-- ==== Sys2Proof/Word.lean ====
section
/-! DEFINITION. The word types of the core: 00_scope.md R11, 30_encoding.md R68. -/

namespace Sys2Proof

/-- A 32-bit register or command word (R21, R68). -/
abbrev Word := BitVec 32

/-- One byte of a storage space (R48). -/
abbrev Byte := BitVec 8

/-- One signed 16-bit PCM sample, as its bits (R52). -/
abbrev Sample := BitVec 16

end Sys2Proof
end

