-- ==== Sys2Proof/Machine/Arith.lean ====
section
/-! DEFINITION. The arithmetic primitives of 00_scope.md R12 and 40_filter.md R84, over mathematical integers. -/

namespace Sys2Proof.Machine

/-- The w in [−2^63, 2^63) with w ≡ v (mod 2^64) (R12). -/
def wrap64 (v : Int) : Int := v.bmod (2 ^ 64)

/-- floor(v / 2^k), an arithmetic right shift (R12, R84 (b)). -/
def asr (v : Int) (k : Nat) : Int := Int.fdiv v (2 ^ k)

/-- The quotient rounded toward zero (R12). -/
def tdiv (a b : Int) : Int := Int.tdiv a b

/-- floor(a / b) (R12). -/
def fdiv (a b : Int) : Int := Int.fdiv a b

/-- lo if v < lo, hi if v > hi, else v (R12). -/
def clamp (v lo hi : Int) : Int := if v < lo then lo else if v > hi then hi else v

/-- Division that rounds half away from zero (R84 (c)). -/
def rounddiv (a d : Int) : Int :=
  if a > 0 then tdiv (a + fdiv d 2) d else tdiv (a - fdiv d 2) d

/-- A saturated sample: the clamp to ±32700, as 16 two's-complement bits (R83, R84 (d)). -/
def saturate (v : Int) : Sample := BitVec.ofInt 16 (clamp v (-32700) 32700)

/-- A 64-bit register holding an integer modulo 2^64 (R84 (a)). -/
def reg64 (v : Int) : BitVec 64 := BitVec.ofInt 64 v

end Sys2Proof.Machine
end

