-- ==== Sys2Proof/Config.lean ====
section
/-! DEFINITION. What is fixed for the core (00_scope.md R8), and the values the spec leaves open (93_implementation_defined.md). -/

namespace Sys2Proof

/-- The three byte-addressed storage spaces (20_memory.md R48). -/
inductive Space where
  | ring
  | scratch
  | pcm
deriving DecidableEq, Repr

namespace Config

/-- RING_BYTES_MAX (R8, R48). -/
def ringBytesMax : Nat := 524288

/-- SCRATCH_BYTES (R8, R48). -/
def scratchBytes : Nat := 131072

/-- The PCM buffer in bytes, PCM_SAMPLES_MAX × 2 (R8, R48). -/
def pcmBytes : Nat := 16384

/-- SBS_MAX (R8). -/
def sbsMax : Nat := 2048

/-- VOLUME_DEFAULT (R8, R113). -/
def volumeDefault : Nat := 64

/-- GAIN_DEFAULT (R8, R113). -/
def gainDefault : Nat := 16

/-- MAXVOL_DEFAULT (R8, R113). -/
def maxvolDefault : Nat := 64

/-- HP_HZ_DEFAULT (R8, R33). -/
def hpHzDefault : Nat := 10

/-- The size in bytes of a storage space (R48). -/
def spaceBytes : Space → Nat
  | .ring => ringBytesMax
  | .scratch => scratchBytes
  | .pcm => pcmBytes

/-- Free value: what byte `off` of a space holds after the reset that made draw `epoch`, before anything writes it.
U1: "every byte is an independent draw". Log 5. -/
opaque powerOnByte (epoch : Nat) (sp : Space) (off : Nat) : Byte

/-- Free value: which of the values R61 allows a command reads from RING byte `off`. U2, log 6. -/
opaque raceChoice (draw off : Nat) : Nat

/-- Free value: the byte a host read returns at MMIO address `addr`, of a place the running command writes.
R62, U3, log 7. -/
opaque busyByte (draw addr : Nat) : Byte

/-- OPEN parameter: the system address of MMIO offset 0 (D41). No rule of the core depends on it. Log 19. -/
opaque coreBase : Nat

/-- OPEN parameter: the platform's interrupt number for irq (D42). No rule of the core depends on it. Log 19. -/
opaque irqLine : Nat

end Config
end Sys2Proof
end

