-- ==== Sys2Proof/Syntax.lean ====
section
/-! DEFINITION. The commands: one constructor for each row of the opcode table (30_encoding.md R69).
Operands are numbers, as assembly writes them (R73); WellFormed says which fit their field. -/

namespace Sys2Proof

/-- A command with its operands (R69, R73). -/
inductive Instr where
  /-- `nop` (R112). -/
  | nop
  /-- `init` (R113). -/
  | init
  /-- `start` (R114). -/
  | start
  /-- `stop` (R115). -/
  | stop
  /-- `read n`: take one slot, at most `n` samples for each channel (R106). -/
  | read (n : Nat)
  /-- `setvol v` (R116). -/
  | setVolume (v : Nat)
  /-- `setgain g` (R117). -/
  | setGain (g : Nat)
  /-- `setmaxvol m` (R118). -/
  | setMaxvol (m : Nat)
  /-- `freset c` (R89). -/
  | freset (c : Nat)
  /-- `demux s` (R97). -/
  | demux (s : Nat)
  /-- `decode c, k`: block `k` of channel `c` (R88). -/
  | decode (c k : Nat)
deriving DecidableEq, Repr

end Sys2Proof
end

