-- ==== Sys2Proof/WellFormed.lean ====
section
/-! DEFINITION. Which commands assembly accepts: 30_encoding.md R73, "An operand that does not fit its field
(n, v, g, m, s, k > 65535, or c > 3) is an assembly error." -/

namespace Sys2Proof

/-- The number fits the 16-bit field ARG (R68, R73). -/
def fitsArg (n : Nat) : Bool := n ≤ 65535

/-- The number fits the 2-bit field CH (R68, R73). -/
def fitsChannel (c : Nat) : Bool := c ≤ 3

/-- Every operand fits its field (R73). -/
def Instr.wellFormed : Instr → Bool
  | .nop => true
  | .init => true
  | .start => true
  | .stop => true
  | .read n => fitsArg n
  | .setVolume v => fitsArg v
  | .setGain g => fitsArg g
  | .setMaxvol m => fitsArg m
  | .freset c => fitsChannel c
  | .demux s => fitsArg s
  | .decode c k => fitsChannel c && fitsArg k

end Sys2Proof
end

