-- ==== Sys2Proof/Decode.lean ====
section
/-! DEFINITION. Command words: the map of encodings, the decoder and the encoder (30_encoding.md R68-R73). -/

namespace Sys2Proof

/-- The rows of the map of encodings, by mnemonic (R69). -/
inductive Mnemonic where
  | NOP | INIT | START | STOP | READ | SET_VOLUME | SET_GAIN | SET_MAXVOL | FRESET | DEMUX | DECODE
deriving DecidableEq, Repr

/-- One row of R69: a word belongs to it if `word & mask = match`. -/
structure EncRow where
  mnemonic : Mnemonic
  pattern : Word
  mask : Word
deriving DecidableEq, Repr

/-- `(word & row.mask) == row.match` (R69, R70). -/
def EncRow.selects (row : EncRow) (word : Word) : Bool := word &&& row.mask == row.pattern

/-- The map of encodings, row by row as R69 prints it. -/
def encMap : List EncRow :=
  [⟨.NOP, 0x00000000, 0xFFFFFFFF⟩,
   ⟨.INIT, 0x00000001, 0xFFFFFFFF⟩,
   ⟨.START, 0x00000002, 0xFFFFFFFF⟩,
   ⟨.STOP, 0x00000003, 0xFFFFFFFF⟩,
   ⟨.READ, 0x00000004, 0x0000FFFF⟩,
   ⟨.SET_VOLUME, 0x00000005, 0x0000FFFF⟩,
   ⟨.SET_GAIN, 0x00000006, 0x0000FFFF⟩,
   ⟨.SET_MAXVOL, 0x00000007, 0x0000FFFF⟩,
   ⟨.FRESET, 0x00000010, 0xFFFFFCFF⟩,
   ⟨.DEMUX, 0x00000011, 0x0000FFFF⟩,
   ⟨.DECODE, 0x00000012, 0x0000FCFF⟩]

/-- OPC = word[7:0] (R68). -/
def fieldOpc (word : Word) : Nat := (word.extractLsb' 0 8).toNat

/-- CH = zext_2(word[9:8]) (R68). -/
def fieldCh (word : Word) : Nat := (word.extractLsb' 8 2).toNat

/-- RSV = word[15:10] (R68). -/
def fieldRsv (word : Word) : Nat := (word.extractLsb' 10 6).toNat

/-- ARG = zext_16(word[31:16]) (R68). -/
def fieldArg (word : Word) : Nat := (word.extractLsb' 16 16).toNat

/-- The command of a row, with the operands the row takes from the word (R69). -/
def operandsOf (m : Mnemonic) (word : Word) : Instr :=
  match m with
  | .NOP => .nop
  | .INIT => .init
  | .START => .start
  | .STOP => .stop
  | .READ => .read (fieldArg word)
  | .SET_VOLUME => .setVolume (fieldArg word)
  | .SET_GAIN => .setGain (fieldArg word)
  | .SET_MAXVOL => .setMaxvol (fieldArg word)
  | .FRESET => .freset (fieldCh word)
  | .DEMUX => .demux (fieldArg word)
  | .DECODE => .decode (fieldCh word) (fieldArg word)

/-- Why a word, or a run of bytes, is no command (R71). -/
inductive DecodeError where
  /-- Fewer than the four bytes of a command word (R68: every command is one word). -/
  | truncated
  /-- OPC in 0x08-0x0F or 0x13-0xFF. -/
  | reservedOpcode (opc : Nat)
  /-- RSV ≠ 0. -/
  | reservedBits
  /-- CH ≠ 0 for a command that does not use CH. -/
  | unusedChannel
  /-- ARG ≠ 0 for a command that does not use ARG. -/
  | unusedArgument
deriving DecidableEq, Repr

/-- OPC is in 0x08-0x0F or 0x13-0xFF (R71). -/
def reservedOpc (opc : Nat) : Bool := (0x08 ≤ opc && opc ≤ 0x0F) || 0x13 ≤ opc

/-- The command uses CH: FRESET and DECODE (R68). -/
def usesCh (opc : Nat) : Bool := opc == 0x10 || opc == 0x12

/-- The command uses ARG: READ, SET_VOLUME, SET_GAIN, SET_MAXVOL, DEMUX, DECODE (R68). -/
def usesArg (opc : Nat) : Bool := (0x04 ≤ opc && opc ≤ 0x07) || opc == 0x11 || opc == 0x12

/-- The first cause of R71's list that holds of a word no row selects. -/
def illegalCause (word : Word) : DecodeError :=
  if reservedOpc (fieldOpc word) then .reservedOpcode (fieldOpc word)
  else if fieldRsv word ≠ 0 then .reservedBits
  else if !usesCh (fieldOpc word) && fieldCh word ≠ 0 then .unusedChannel
  else .unusedArgument

/-- Decoding a word, total: the command of the row that selects it, or the reason it is illegal (R70, R71). -/
def decode (word : Word) : Except DecodeError Instr :=
  match encMap.find? (·.selects word) with
  | some row => .ok (operandsOf row.mnemonic word)
  | none => .error (illegalCause word)

/-- A 32-bit value from its four bytes, the lowest-addressed byte in bits 7:0 (20_memory.md R53). -/
def wordOfBytes (b0 b1 b2 b3 : Byte) : Word := b3 ++ b2 ++ b1 ++ b0

/-- Decoding bytes as they stand on the bus: one little-endian word, and the bytes after it. -/
def decodeBytes : List Byte → Except DecodeError (Instr × List Byte)
  | b0 :: b1 :: b2 :: b3 :: rest => (decode (wordOfBytes b0 b1 b2 b3)).map (·, rest)
  | _ => .error .truncated

/-- The command word of a table row's bits: the low `nbits` bits of `w`, every higher bit 0. -/
def tableWord (nbits w : Nat) : Word := BitVec.ofNat 32 (w % 2 ^ nbits)

/-- The four bytes of a word, lowest address first (R53). -/
def bytesOfWord (w : Word) : List Byte :=
  [w.extractLsb' 0 8, w.extractLsb' 8 8, w.extractLsb' 16 8, w.extractLsb' 24 8]

/-- The command the decoder reads from a table row's bits; every command is one 32-bit word (R68). -/
def decodeTableWord (nbits w : Nat) : Option Instr :=
  if nbits ≤ 32 then
    match decodeBytes (bytesOfWord (tableWord nbits w)) with
    | .ok (i, _) => some i
    | .error _ => none
  else none

/-- `OPC | (CH << 8) | (ARG << 16)` (R68). -/
def formatC (opc ch arg : Nat) : Word :=
  BitVec.ofNat 32 opc ||| BitVec.ofNat 32 ch <<< 8 ||| BitVec.ofNat 32 arg <<< 16

/-- The word of a command (R73). Of a command that is not well-formed it is the word of no assembly. -/
def encode : Instr → Word
  | .nop => formatC 0x00 0 0
  | .init => formatC 0x01 0 0
  | .start => formatC 0x02 0 0
  | .stop => formatC 0x03 0 0
  | .read n => formatC 0x04 0 n
  | .setVolume v => formatC 0x05 0 v
  | .setGain g => formatC 0x06 0 g
  | .setMaxvol m => formatC 0x07 0 m
  | .freset c => formatC 0x10 c 0
  | .demux s => formatC 0x11 0 s
  | .decode c k => formatC 0x12 c k

/-- Assembly: no word for an operand that does not fit its field (R73). -/
def assemble (i : Instr) : Option Word := if i.wellFormed then some (encode i) else none

end Sys2Proof
end

