-- ==== Sys2Proof/Machine/State.lean ====
section
/-! DEFINITION. The state of the core (10_state.md R18), as plain data, and its value after reset (R47). -/

namespace Sys2Proof.Machine

/-- What stops the machine: nothing. The core takes no traps (60_exceptions.md R127) and is never stuck
(70_reset_and_hazards.md R149); bus_error is a response and an error code a result, both in a next state. -/
inductive Fault where
deriving DecidableEq, Repr

/-- Why an instruction has no meaning. -/
inductive Refusal where
  /-- Raised by an arm of `exec` whose instruction is not modelled yet; safe. No arm raises it. -/
  | notModelled (mnemonic : String)
deriving DecidableEq, Repr

/-- CTRL (R22). -/
structure Ctrl where
  irqEn : Bool
  strategy : Bool
deriving DecidableEq, Repr

/-- The outcome codes a command can write to STATUS.ERR (R120). The reserved codes 2 and 9-15 have no constructor:
they are "never written". -/
inductive ErrCode where
  | ok
  | illegalCmd
  | notInit
  | state
  | config
  | resource
  | hardware
  | arg
deriving DecidableEq, Repr

/-- The fields of STATUS that are storage (R24). BUSY is the sequencer's state. -/
structure Status where
  inited : Bool
  running : Bool
  readyPend : Bool
  collide : Bool
  dropped : Bool
  err : ErrCode
deriving DecidableEq, Repr

/-- RESULT (R25). -/
structure ReadResult where
  nwritten : BitVec 16
  consumed : Bool
  rebased : Bool
  slot : BitVec 8
deriving DecidableEq, Repr

/-- The fields of CFG_FS, CFG_SBS, CFG_FMT and CFG_RING (R26-R29). The active configuration A is a latched copy (R42). -/
structure Configuration where
  fs : BitVec 16
  sbs : BitVec 16
  nch : BitVec 3
  dsel : Bool
  nprod : Bool
  b : BitVec 8
  guard : BitVec 8
  offset : BitVec 8
deriving DecidableEq, Repr

/-- The registers the filter's arithmetic reads (R30-R35). -/
structure FilterConsts where
  volume : BitVec 16
  gain : BitVec 16
  maxvol : BitVec 16
  lpHz : BitVec 16
  hpHz : BitVec 16
  lpAlfa : BitVec 9
  hpAlfa : BitVec 9
  subConst : BitVec 32
  divConst : BitVec 32
deriving DecidableEq, Repr

/-- One channel's filter state: five signed 64-bit registers (R40). -/
structure FilterState where
  oldOut : BitVec 64
  oldIn : BitVec 64
  oldZ : BitVec 64
  coef0 : BitVec 64
  coef1 : BitVec 64
deriving DecidableEq, Repr

/-- The bytes of a storage space that have been written since reset, addresses strictly rising.
A byte not listed holds what reset left there: no value here, a free value where it is read (R47, U1; log 5). -/
abbrev Memory := List Host.Cell

/-- The index p of a transport (R9). -/
abbrev Transport := Fin 2

/-- The status inputs of the transports (R98). -/
structure Pins where
  xportAvail0 : Bool
  xportAvail1 : Bool
  notifyOk : Bool
deriving DecidableEq, Repr

/-- The working values of an accepted command (R44), the inputs as they were at acceptance, and what the race rule
draws from (R61; log 6). -/
structure Work where
  /-- w_snap: W at acceptance (R106). -/
  wSnap : BitVec 8
  /-- s_sel: the slot a READ or DEMUX is reading; none where the command reads no slot (R102, R109; log 12). -/
  sSel : Option (BitVec 8)
  /-- The transports' status inputs at acceptance, those START samples (R98, R110, R114; log 11). -/
  pins : Pins
  /-- RING at acceptance. -/
  ringAtAccept : Memory
  /-- The RING bytes written since acceptance, newest first. -/
  ringWrites : List Host.Cell
deriving DecidableEq, Repr

/-- The sequencer: IDLE, or BUSY with the accepted command word (R44). -/
inductive Sequencer where
  | idle
  | busy (cmd : Word) (work : Work)
deriving DecidableEq, Repr

/-- The width of a host access (R54). -/
inductive Width where
  | byte
  | half
  | word
deriving DecidableEq, Repr

/-- One step of an agent (R9, R60), as the environment asks for it. -/
inductive Event where
  /-- The host reads (R74 `rd`, `rd16`, and the 8-bit read of R54). -/
  | rd (width : Width) (addr : BitVec 20)
  /-- The host writes (R74 `wr`, `wr8`, `wr16`). -/
  | wr (width : Width) (addr : BitVec 20) (value : Word)
  /-- The host polls STATUS until BUSY = 0 (R74 `wait`); each poll is a step. -/
  | wait
  /-- Transport p writes one byte of RING (R98); nothing happens where p is not there (R9; log 16). -/
  | portWrite (p : Transport) (off : BitVec 19) (b : Byte)
  /-- Transport p delivers a completion (R98, R100). -/
  | done (p : Transport)
  /-- A host write of STATUS that falls in the same step as a completion of p (R24, R126; log 17). -/
  | statusWriteWithDone (value : Word) (p : Transport)
  /-- The transports' status inputs change (R98). -/
  | pins (pins : Pins)
  /-- The sequencer takes its completion step (R44, R109). -/
  | complete
  /-- The reset input (R135). -/
  | reset
deriving DecidableEq, Repr

/-- What the core drives outwards. -/
inductive Output where
  /-- The response to a host access: the data of a read, 0 for a write; an error is `bus_error`, with data 0 (R56). -/
  | response (data : Word) (error : Bool)
  /-- arm(p, slot), with the base byte offset and length it passes (R98). -/
  | arm (p : Transport) (slot base length : Nat)
  /-- disarm(p) (R98). -/
  | disarm (p : Transport)
deriving DecidableEq, Repr

/-- The state of the core (R18 (a)-(h)), the inputs it samples, and four fields of the model's own (log 10):
`events`, `outputs`, `draws` and `powerOn`. -/
structure State where
  /-- CTRL (R22). -/
  ctrl : Ctrl
  /-- STATUS (R24). -/
  status : Status
  /-- RESULT (R25). -/
  result : ReadResult
  /-- CFG_FS, CFG_SBS, CFG_FMT, CFG_RING (R26-R29). -/
  cfg : Configuration
  /-- The active configuration A (R42). -/
  active : Configuration
  /-- VOLUME, GAIN, MAXVOL, LP_HZ, HP_HZ, LP_ALFA, HP_ALFA, SUB_CONST, DIV_CONST (R30-R35). -/
  consts : FilterConsts
  /-- SPM (R36). -/
  spm : BitVec 8
  /-- SLOT_BYTES (R36). -/
  slotBytes : BitVec 32
  /-- W, the logical write cursor (R37). -/
  w : BitVec 8
  /-- R, the read cursor (R37). -/
  r : BitVec 8
  /-- WC[p], the slot of transport p's latest arm (R37, R99). -/
  wc : Vector (BitVec 8) 2
  /-- ARMED[p] (R39, R99). -/
  armed : Vector Bool 2
  /-- COMPLETIONS (R38). -/
  completions : BitVec 16
  /-- The filter state file F[0..3] (R40). -/
  filter : Vector FilterState 4
  /-- The sequencer state (R44). -/
  sequencer : Sequencer
  /-- RING (R48). -/
  ring : Memory
  /-- SCRATCH (R48). -/
  scratch : Memory
  /-- PCM (R48). -/
  pcm : Memory
  /-- xport_avail[0], xport_avail[1], notify_ok, as the transports drive them now (R98). -/
  pins : Pins
  /-- The model's own: what the agents do next, in order (log 1). -/
  events : List Event
  /-- The model's own: what the core has driven outwards, newest first. -/
  outputs : List Output
  /-- The model's own: the count of steps that the free values are applied to. -/
  draws : Nat
  /-- The model's own: the draw behind the storage bytes nothing has written since reset. -/
  powerOn : Nat
deriving DecidableEq, Repr

/-- All five registers 0 (R47, R89, R113). -/
def FilterState.zero : FilterState := ⟨0, 0, 0, 0, 0⟩

/-- Every configuration field 0: the reset value of CFG_* (R21). -/
def Configuration.zero : Configuration := ⟨0, 0, 0, false, false, 0, 0, 0⟩

/-- The machine right after reset (R47, R135): every register 0, the sequencer IDLE, storage with nothing written.
A is unspecified in the spec and 0 here (log 8); the inputs are 1 (log 9); the model's own fields are log 10. -/
def State.reset : State where
  ctrl := ⟨false, false⟩
  status := ⟨false, false, false, false, false, .ok⟩
  result := ⟨0, false, false, 0⟩
  cfg := .zero
  active := .zero
  consts := ⟨0, 0, 0, 0, 0, 0, 0, 0, 0⟩
  spm := 0
  slotBytes := 0
  w := 0
  r := 0
  wc := Vector.replicate 2 0
  armed := Vector.replicate 2 false
  completions := 0
  filter := Vector.replicate 4 .zero
  sequencer := .idle
  ring := []
  scratch := []
  pcm := []
  pins := ⟨true, true, true⟩
  events := []
  outputs := []
  draws := 0
  powerOn := 0

end Sys2Proof.Machine
end

