-- ==== Sys2Proof/Machine/Operands.lean ====
section
/-! DEFINITION. The configuration as numbers: the components of A (10_state.md R42), for A and for CFG_* alike,
and the operand checks of the commands. -/

namespace Sys2Proof.Machine

/-- Fs, in Hz (R42). -/
def Configuration.rateHz (a : Configuration) : Nat := a.fs.toNat

/-- spm = fdiv(Fs, 1000), samples per millisecond (R42). -/
def Configuration.spm (a : Configuration) : Nat := a.rateHz / 1000

/-- SBS, samples per channel per slot (R42). -/
def Configuration.samples (a : Configuration) : Nat := a.sbs.toNat

/-- N, the channel count (R42). -/
def Configuration.channels (a : Configuration) : Nat := a.nch.toNat

/-- D, the decimation factor (R42). -/
def Configuration.decim (a : Configuration) : Nat := if a.dsel then 128 else 64

/-- DB = D / 8, the bytes of one window of one channel (R42). -/
def Configuration.windowBytes (a : Configuration) : Nat := a.decim / 8

/-- NPROD, the number of producer transports (R42). -/
def Configuration.producers (a : Configuration) : Nat := 1 + a.nprod.toNat

/-- B, the slot count (R42). -/
def Configuration.slots (a : Configuration) : Nat := a.b.toNat

/-- GUARD, in slots (R42). -/
def Configuration.guardSlots (a : Configuration) : Nat := a.guard.toNat

/-- OFFSET = sext_8, in slots (R42). -/
def Configuration.offsetSlots (a : Configuration) : Int := a.offset.toInt

/-- STREAM_BYTES = SBS · DB (R42). -/
def Configuration.streamBytes (a : Configuration) : Nat := a.samples * a.windowBytes

/-- SLOT_BYTES = STREAM_BYTES · N (R42). -/
def Configuration.slotSize (a : Configuration) : Nat := a.streamBytes * a.channels

/-- DECODE's operands are in range: channel c exists and block k lies inside the stream (R88). -/
def decodeOperandsOk (a : Configuration) (c k : Nat) : Bool :=
  c < a.channels && (k + 1) * a.spm ≤ a.samples

/-- DEMUX's operand is in range: slot s exists (R97). -/
def demuxOperandOk (a : Configuration) (s : Nat) : Bool := s < a.slots

end Sys2Proof.Machine
end

