-- ==== Sys2Proof/Machine/Ops.lean ====
section
/-! DEFINITION. The shared operations: storage, the race rule, command outcomes, arm and disarm requests, responses. -/

namespace Sys2Proof.Machine

/-! ### Storage (20_memory.md) -/

/-- The byte written at an address; none where nothing has been written since reset (log 5). -/
def Memory.read? (m : Memory) (a : Nat) : Option Byte := List.lookup a m

/-- The run of bytes `bs` written from address `base` on, whatever was there before. -/
def Memory.writeRun (m : Memory) (base : Nat) (bs : List Byte) : Memory :=
  m.filter (fun cell => cell.1 < base) ++ (bs.zipIdx base).map (fun p => (p.2, p.1)) ++
    m.filter (fun cell => base + bs.length ≤ cell.1)

/-- Addresses strictly rising from `lo` on. -/
def Memory.risingFrom (lo : Nat) : Memory → Bool
  | [] => true
  | (a, _) :: rest => lo ≤ a && Memory.risingFrom (a + 1) rest

/-- The canonical form: addresses strictly rising and inside the space. An unlisted address has no value of its own,
so no listed entry can equal it. -/
def Memory.wf (size : Nat) (m : Memory) : Bool := m.risingFrom 0 && m.all (fun cell => cell.1 < size)

/-- The bytes of one storage space. -/
def State.mem (s : State) : Space → Memory
  | .ring => s.ring
  | .scratch => s.scratch
  | .pcm => s.pcm

/-- The state with another content of one storage space. -/
def State.setMem (s : State) (sp : Space) (m : Memory) : State :=
  match sp with
  | .ring => { s with ring := m }
  | .scratch => { s with scratch := m }
  | .pcm => { s with pcm := m }

/-- MemRead(space, off, 1) (R14). A byte nothing has written since reset is a free value (R47, U1; log 5). -/
def State.memByte (s : State) (sp : Space) (off : Nat) : Byte :=
  ((s.mem sp).read? off).getD (Config.powerOnByte s.powerOn sp off)

/-- MemWrite of consecutive bytes from offset `off` on (R14). -/
def State.writeMem (s : State) (sp : Space) (off : Nat) (bs : List Byte) : State :=
  s.setMem sp ((s.mem sp).writeRun off bs)

/-- The `n` low bytes of a value, lowest address first (R53). -/
def leBytes (n v : Nat) : List Byte := (List.range n).map (fun i => BitVec.ofNat 8 (v >>> (8 * i)))

/-- The number that bytes stand for, lowest address first (R53). -/
def ofLeBytes : List Byte → Nat
  | [] => 0
  | b :: rest => b.toNat + 256 * ofLeBytes rest

/-- The two bytes of a PCM sample (R52). -/
def sampleBytes (v : Sample) : List Byte := leBytes 2 v.toNat

/-- PCM sample `i`: bytes 2i and 2i+1 (R52). -/
def State.pcmSample (s : State) (i : Nat) : Sample :=
  BitVec.ofNat 16 (ofLeBytes [s.memByte .pcm (2 * i), s.memByte .pcm (2 * i + 1)])

/-! ### The sequencer and the race rule (10_state.md R44, 20_memory.md R61) -/

/-- BUSY: a command is accepted and not yet complete (R44). -/
def State.busy (s : State) : Bool :=
  match s.sequencer with
  | .idle => false
  | .busy _ _ => true

/-- The working values of a command that is accepted in this state and reads no slot yet (R109). -/
def State.freshWork (s : State) : Work := ⟨s.w, none, s.pins, s.ring, []⟩

/-- The working values of the running command. At an IDLE sequencer, those of a command accepted in this very state
(log 18). -/
def State.work (s : State) : Work :=
  match s.sequencer with
  | .idle => s.freshWork
  | .busy _ wk => wk

/-- The value RING byte `off` held at acceptance (R61). -/
def State.ringAtAcceptByte (s : State) (off : Nat) : Byte :=
  (s.work.ringAtAccept.read? off).getD (Config.powerOnByte s.powerOn .ring off)

/-- The values written to RING byte `off` since acceptance (R61). -/
def State.racingWrites (s : State) (off : Nat) : List Byte :=
  (s.work.ringWrites.filter (fun cell => cell.1 == off)).map (·.2)

/-- RingByte(off): the value at acceptance where nothing wrote the byte since; otherwise that value or one of those
written since, a free choice made for each byte (R61, U2; log 6). -/
def State.ringByte (s : State) (off : Nat) : Byte :=
  match s.racingWrites off with
  | [] => s.ringAtAcceptByte off
  | b :: bs =>
    (s.ringAtAcceptByte off :: b :: bs).getD (Config.raceChoice s.draws off % (bs.length + 2)) b

/-- A write of one RING byte by a transport or the host: the byte changes, and a running command's race record grows
(R59, R61). -/
def State.writeRing (s : State) (off : Nat) (b : Byte) : State :=
  let t := s.writeMem .ring off [b]
  match t.sequencer with
  | .idle => t
  | .busy cmd wk => { t with sequencer := .busy cmd { wk with ringWrites := (off, b) :: wk.ringWrites } }

/-- Consecutive RING bytes written by one host access, byte by byte (R53, R57). -/
def State.writeRingRun (s : State) (off : Nat) : List Byte → State
  | [] => s
  | b :: bs => (s.writeRing off b).writeRingRun (off + 1) bs

/-! ### Command outcomes (00_scope.md R15), this core's place for taking and leaving an exception (R127) -/

/-- The end of a command: STATUS.ERR <- the code, the sequencer IDLE, STATUS.BUSY <- 0 (R15, R44). -/
def State.finish (s : State) (e : ErrCode) : State :=
  { s with status := { s.status with err := e }, sequencer := .idle }

/-- fail(E): only the code is written (R15, R122). -/
def State.fail (s : State) (e : ErrCode) : Host.Outcome State Fault Refusal := .next (s.finish e)

/-- done(): the command ends with OK (R15). -/
def State.done (s : State) : Host.Outcome State Fault Refusal := .next (s.finish .ok)

/-! ### Requests to the transports and responses to the host -/

/-- Something the core drives outwards. -/
def State.drive (s : State) (o : Output) : State := { s with outputs := o :: s.outputs }

/-- arm(p, slot), with WC[p] <- slot and ARMED[p] <- 1 (R98, R99). -/
def State.arm (s : State) (p : Transport) (slot : Nat) : State :=
  { s.drive (.arm p slot (slot * s.active.slotSize) s.active.slotSize) with
    wc := s.wc.set p (BitVec.ofNat 8 slot), armed := s.armed.set p true }

/-- disarm(p), with ARMED[p] <- 0 (R98, R99). -/
def State.disarm (s : State) (p : Transport) : State :=
  { s.drive (.disarm p) with armed := s.armed.set p false }

/-- A host access that succeeds: the data of a read, 0 for a write. -/
def State.respond (s : State) (data : Word) : State := s.drive (.response data false)

/-- `bus_error`: nothing of the core changes, and a read returns 0 (R56, R123). -/
def State.busError (s : State) : State := s.drive (.response 0 true)

/-- The model's count of steps, which makes each step's free values its own (log 10). -/
def State.tick (s : State) : State := { s with draws := s.draws + 1 }

/-! ### The filter state file (R40) -/

/-- F[c]; there is none above channel 3 (log 21). -/
def State.filterAt (s : State) (c : Nat) : FilterState := s.filter[c]?.getD .zero

/-- F[c] <- f. -/
def State.setFilter (s : State) (c : Nat) (f : FilterState) : State :=
  { s with filter := s.filter.setIfInBounds c f }

end Sys2Proof.Machine
end

