-- ==== Sys2Proof/Machine/Flags.lean ====
section
/-! DEFINITION. The flags and the register words they stand in: STATUS, CTRL, RESULT, XPORT, CFG_* (10_state.md),
the outcome codes (60_exceptions.md R120) and irq (R125). -/

namespace Sys2Proof.Machine

/-- The code of an outcome in STATUS[11:8] (R120). -/
def ErrCode.code : ErrCode → BitVec 4
  | .ok => 0
  | .illegalCmd => 1
  | .notInit => 3
  | .state => 4
  | .config => 5
  | .resource => 6
  | .hardware => 7
  | .arg => 8

/-- STATUS as a read sees it (R24). -/
def State.statusWord (s : State) : Word :=
  (0 : BitVec 20) ++ s.status.err.code ++ (0 : BitVec 2) ++ BitVec.ofBool s.status.dropped ++
    BitVec.ofBool s.status.collide ++ BitVec.ofBool s.status.readyPend ++ BitVec.ofBool s.busy ++
    BitVec.ofBool s.status.running ++ BitVec.ofBool s.status.inited

/-- A host write of STATUS: 1 in bit 3, 4 or 5 clears that bit, every other bit is ignored (R24). -/
def State.clearFlags (s : State) (v : Word) : State :=
  { s with status := { s.status with
      readyPend := s.status.readyPend && !v.getLsbD 3
      collide := s.status.collide && !v.getLsbD 4
      dropped := s.status.dropped && !v.getLsbD 5 } }

/-- A CMD write while BUSY: the word is discarded and STATUS.DROPPED set (R109). -/
def State.dropCommand (s : State) : State := { s with status := { s.status with dropped := true } }

/-- The flags of an accepted completion: READY_PEND set, COMPLETIONS counted modulo 2^16 (R100). -/
def State.notify (s : State) : State :=
  { s with status := { s.status with readyPend := true }, completions := s.completions + 1 }

/-- irq = CTRL.IRQ_EN & STATUS.READY_PEND (R125). -/
def State.irq (s : State) : Bool := s.ctrl.irqEn && s.status.readyPend

/-- CTRL as a read sees it (R22). -/
def Ctrl.toWord (c : Ctrl) : Word :=
  (0 : BitVec 30) ++ BitVec.ofBool c.strategy ++ BitVec.ofBool c.irqEn

/-- CTRL as a write leaves it; bits 31:2 are ignored (R22). -/
def Ctrl.ofWord (v : Word) : Ctrl := ⟨v.getLsbD 0, v.getLsbD 1⟩

/-- RESULT as a read sees it (R25). -/
def ReadResult.toWord (r : ReadResult) : Word :=
  r.slot ++ (0 : BitVec 6) ++ BitVec.ofBool r.rebased ++ BitVec.ofBool r.consumed ++ r.nwritten

/-- XPORT as a read sees it (R39). -/
def State.xportWord (s : State) : Word :=
  (0 : BitVec 30) ++ BitVec.ofBool s.armed[1] ++ BitVec.ofBool s.armed[0]

/-- CFG_FS (R26). -/
def Configuration.fsWord (a : Configuration) : Word := a.fs.setWidth 32

/-- CFG_SBS (R27). -/
def Configuration.sbsWord (a : Configuration) : Word := a.sbs.setWidth 32

/-- CFG_FMT: NCH in 2:0, DSEL in 4, NPROD in 8 (R28). -/
def Configuration.fmtWord (a : Configuration) : Word :=
  (0 : BitVec 23) ++ BitVec.ofBool a.nprod ++ (0 : BitVec 3) ++ BitVec.ofBool a.dsel ++ (0 : BitVec 1) ++ a.nch

/-- CFG_RING: B in 7:0, GUARD in 15:8, OFFSET in 23:16 (R29). -/
def Configuration.ringWord (a : Configuration) : Word := (0 : BitVec 8) ++ a.offset ++ a.guard ++ a.b

/-- A write of CFG_FS (R26). -/
def Configuration.setFsWord (a : Configuration) (v : Word) : Configuration :=
  { a with fs := v.extractLsb' 0 16 }

/-- A write of CFG_SBS (R27). -/
def Configuration.setSbsWord (a : Configuration) (v : Word) : Configuration :=
  { a with sbs := v.extractLsb' 0 16 }

/-- A write of CFG_FMT (R28). -/
def Configuration.setFmtWord (a : Configuration) (v : Word) : Configuration :=
  { a with nch := v.extractLsb' 0 3, dsel := v.getLsbD 4, nprod := v.getLsbD 8 }

/-- A write of CFG_RING (R29). -/
def Configuration.setRingWord (a : Configuration) (v : Word) : Configuration :=
  { a with b := v.extractLsb' 0 8, guard := v.extractLsb' 8 8, offset := v.extractLsb' 16 8 }

end Sys2Proof.Machine
end

