-- ==== Sys2Proof/Machine/Demux.lean ====
section
/-! DEFINITION. The bit demultiplexer and the command DEMUX (41_demux.md). -/

namespace Sys2Proof.Machine

/-- Word m of slot `slot`, little-endian, read through RingByte (R91). -/
def State.slotWord (s : State) (slot m : Nat) : Word :=
  let base := slot * s.active.slotSize + 4 * m
  wordOfBytes (s.ringByte base) (s.ringByte (base + 1)) (s.ringByte (base + 2)) (s.ringByte (base + 3))

/-- chan(w, N, c): the bits N·k + c of the word, as channel c's bits k (R92). -/
def chan (w : Word) (n c : Nat) : Nat :=
  ((List.range (32 / n)).map (fun k => (w.getLsbD (n * k + c)).toNat <<< k)).sum

/-- The shift and mask sequence of R93 for N = 2. -/
def chanMask2 (w : Word) (c : Nat) : Word :=
  let x := (w >>> c) &&& 0x55555555
  let x := (x ||| (x >>> 1)) &&& 0x33333333
  let x := (x ||| (x >>> 2)) &&& 0x0F0F0F0F
  let x := (x ||| (x >>> 4)) &&& 0x00FF00FF
  (x ||| (x >>> 8)) &&& 0x0000FFFF

/-- The shift and mask sequence of R93 for N = 4. -/
def chanMask4 (w : Word) (c : Nat) : Word :=
  let x := (w >>> c) &&& 0x11111111
  let x := (x ||| (x >>> 3)) &&& 0x03030303
  let x := (x ||| (x >>> 6)) &&& 0x000F000F
  (x ||| (x >>> 12)) &&& 0x000000FF

/-- The word that carries per-channel patterns p_0..p_{N−1}, bit k of p_c at position N·k + c (R96). -/
def interleave (n : Nat) (p : Nat → Nat) : Nat :=
  ((List.range n).map fun c =>
    ((List.range (32 / n)).map fun k => ((p c).testBit k).toNat <<< (n * k + c)).sum).sum

/-- The bytes of channel `c`'s stream from slot `slot`: the slot's own bytes for N = 1; for N = 2 the 16-bit values
of its words, little-endian; otherwise the 8-bit values (R94, R95). -/
def State.streamOf (s : State) (slot c : Nat) : List Byte :=
  let a := s.active
  if a.channels = 1 then (List.range a.slotSize).map (fun o => s.ringByte (slot * a.slotSize + o))
  else if a.channels = 2 then
    (List.range (a.slotSize / 4)).flatMap (fun m => leBytes 2 (chan (s.slotWord slot m) 2 c))
  else (List.range (a.slotSize / 4)).map (fun m => BitVec.ofNat 8 (chan (s.slotWord slot m) 4 c))

/-- demux_slot(slot): every channel's stream into SCRATCH (R94, R95). -/
def State.demuxSlot (s : State) (slot : Nat) : State :=
  (List.range s.active.channels).foldl
    (fun t c => t.writeMem .scratch (c * s.active.streamBytes) (s.streamOf slot c)) s

/-- DEMUX (R97). -/
def execDemux (slot : Nat) (s : State) : Host.Outcome State Fault Refusal :=
  if s.status.inited = false then s.fail .notInit
  else if demuxOperandOk s.active slot = false then s.fail .arg
  else (s.demuxSlot slot).done

end Sys2Proof.Machine
end

