-- ==== Sys2Proof/Machine/Filter.lean ====
section
/-! DEFINITION. The decimation filter: the tables and constants INIT computes, the filter step, and the commands
FRESET and DECODE (40_filter.md). -/

namespace Sys2Proof.Machine

/-! ### Init-time computations -/

/-- c3[n], the rectangular pulse of length D convolved with itself twice, in closed form (R75). -/
def c3 (D n : Nat) : Nat :=
  if n < D then (n + 1) * (n + 2) / 2
  else if n < 2 * D then (n + 1) * (n + 2) / 2 - 3 * ((n - D + 1) * (n - D + 2)) / 2
  else (3 * D - 2 - n) * (3 * D - 1 - n) / 2

/-- The sinc array of 3D entries: 0, then c3, then 0 (R75). -/
def sinc (D k : Nat) : Nat := if k = 0 then 0 else c3 D (k - 1)

/-- coef[s][i] = sinc[s·D + i], for s in 0..2 and i in 0..D−1 (R75). -/
def coef (D s i : Nat) : Nat := sinc D (s * D + i)

/-- rowsum_s, the sum of one coefficient row (R76). -/
def rowSum (D s : Nat) : Nat := ((List.range D).map (coef D s)).sum

/-- The sum of all coefficients (R78). -/
def coefSum (D : Nat) : Nat := rowSum D 0 + rowSum D 1 + rowSum D 2

/-- The rectangular pulse r of length D (R75). -/
def rectPulse (D : Nat) : List Nat := List.replicate D 1

/-- Discrete convolution of two finite sequences (R75). -/
def convolve : List Nat → List Nat → List Nat
  | [], _ => []
  | a :: as, bs => addSeq (bs.map (a * ·)) (0 :: convolve as bs)
where
  /-- The sum of two sequences, the shorter one continued by zeros. -/
  addSeq : List Nat → List Nat → List Nat
    | [], ys => ys
    | xs, [] => xs
    | x :: xs, y :: ys => (x + y) :: addSeq xs ys

/-- LP_ALFA from the low-pass cutoff and the sample rate (R77). -/
def lpAlfaOf (lp fs : Nat) : Nat := 256 * lp * 628318 / (628318 * lp + 100000 * fs)

/-- HP_ALFA from the high-pass cutoff and the sample rate (R77). -/
def hpAlfaOf (hp fs : Nat) : Nat := 256 * fs * 100000 / (628318 * hp + 100000 * fs)

/-- SUB_CONST, half the coefficient sum (R78). -/
def subConstOf (D : Nat) : Nat := coefSum D / 2

/-- DIV_CONST, clamped to at least 1 (R78). -/
def divConstOf (sub maxvol gain : Nat) : Nat := max 1 (sub * maxvol / 32768 / gain)

/-! ### The filter step -/

/-- bit(v, i) of a byte, as a number (R11). -/
def bitOf (v : Byte) (i : Nat) : Nat := (v.getLsbD i).toNat

/-- The bits of a window in the order of the coefficient index: bytes in address order, most significant bit first (R81). -/
def windowBits (win : List Byte) : List Nat :=
  win.flatMap (fun v => (List.range 8).map (fun b => bitOf v (7 - b)))

/-- T[s] by direct bit test: the dot product of the window's bits and one coefficient row (R81). -/
def tapDirect (D s : Nat) (win : List Byte) : Nat :=
  ((windowBits win).zipIdx.map (fun p => p.1 * coef D s p.2)).sum

/-- lut[v][j][s] (R79). -/
def lut (D : Nat) (v : Byte) (j s : Nat) : Nat :=
  ((List.range 8).map (fun b => bitOf v (7 - b) * coef D s (8 * j + b))).sum

/-- T[s] by lookup table (R82). -/
def tapTable (D s : Nat) (win : List Byte) : Nat := (win.zipIdx.map (fun p => lut D p.1 p.2 s)).sum

/-- T[s], by the strategy CTRL.STRATEGY selects (R22, R82). -/
def tap (strategy : Bool) (D s : Nat) (win : List Byte) : Nat :=
  if strategy then tapTable D s win else tapDirect D s win

/-- Z of one filter step: the wrapped sum of Coef1 and T2 less SUB_CONST (R83). -/
def stepZ (k : FilterConsts) (f : FilterState) (t2 : Nat) : Int :=
  wrap64 (f.coef1.toInt + t2 - k.subConst.toNat)

/-- OldOut after one filter step: the one-pole high-pass (R83). -/
def stepOldOut (k : FilterConsts) (f : FilterState) (z : Int) : Int :=
  asr (wrap64 (k.hpAlfa.toNat * wrap64 (f.oldOut.toInt + z - f.oldIn.toInt))) 8

/-- OldZ after one filter step: the one-pole low-pass over the new OldOut (R83). -/
def stepOldZ (k : FilterConsts) (f : FilterState) (oldOut : Int) : Int :=
  asr (wrap64 ((256 - (k.lpAlfa.toNat : Int)) * f.oldZ.toInt + k.lpAlfa.toNat * oldOut)) 8

/-- The sample of one filter step: volume, rounding divide, saturation (R83). -/
def stepSample (k : FilterConsts) (oldZ : Int) : Sample :=
  saturate (rounddiv (wrap64 (oldZ * k.volume.toNat)) k.divConst.toNat)

/-- One filter step on one window: the channel's new state and the sample (R83). -/
def filterStep (k : FilterConsts) (strategy : Bool) (D : Nat) (f : FilterState) (win : List Byte) :
    FilterState × Sample :=
  let z := stepZ k f (tap strategy D 2 win)
  let oldOut := stepOldOut k f z
  let oldZ := stepOldZ k f oldOut
  ({ coef1 := reg64 (wrap64 (f.coef0.toInt + tap strategy D 1 win))
     coef0 := reg64 (tap strategy D 0 win)
     oldOut := reg64 oldOut
     oldIn := reg64 z
     oldZ := reg64 oldZ },
   stepSample k oldZ)

/-- The filter steps of consecutive windows, each from the state the one before it left (R87). -/
def filterRun (k : FilterConsts) (strategy : Bool) (D : Nat) : FilterState → List (List Byte) → FilterState × List Sample
  | f, [] => (f, [])
  | f, win :: wins =>
    let one := filterStep k strategy D f win
    let rest := filterRun k strategy D one.1 wins
    (rest.1, one.2 :: rest.2)

/-- Window `i` of the block at stream byte offset `src` of channel `c` (R80, R87). -/
def State.window (s : State) (c src i : Nat) : List Byte :=
  (List.range s.active.windowBytes).map fun j =>
    s.memByte .scratch (c * s.active.streamBytes + src + i * s.active.windowBytes + j)

/-- The windows of one block (R87). -/
def State.blockWindows (s : State) (c src : Nat) : List (List Byte) :=
  (List.range s.active.spm).map (s.window c src)

/-- The filter's outcome on one block of channel `c`: its new state and the samples (R87). -/
def State.blockOut (s : State) (c src : Nat) : FilterState × List Sample :=
  filterRun s.consts s.ctrl.strategy s.active.decim (s.filterAt c) (s.blockWindows c src)

/-- decode_block(c, src, dst): one block of channel `c` into PCM from sample index `dst` on (R87). -/
def State.decodeBlock (s : State) (c src dst : Nat) : State :=
  let out := s.blockOut c src
  (s.setFilter c out.1).writeMem .pcm (2 * dst) (out.2.flatMap sampleBytes)

/-! ### Commands -/

/-- FRESET (R89). -/
def execFreset (c : Nat) (s : State) : Host.Outcome State Fault Refusal :=
  if s.status.inited = false then s.fail .notInit
  else (s.setFilter c .zero).done

/-- DECODE (R88). -/
def execDecode (c k : Nat) (s : State) : Host.Outcome State Fault Refusal :=
  if s.status.inited = false then s.fail .notInit
  else if decodeOperandsOk s.active c k = false then s.fail .arg
  else (s.decodeBlock c (k * s.active.spm * s.active.windowBytes) 0).done

end Sys2Proof.Machine
end

