-- ==== Sys2Proof/Machine/Ring.lean ====
section
/-! DEFINITION. The capture ring: cursors, slot selection, the producer completion, and the command READ (42_ring.md). -/

namespace Sys2Proof.Machine

/-- x mod B as a slot index (R12, R67). -/
def slotMod (b : Nat) (x : Int) : BitVec 8 := BitVec.ofInt 8 (x % b)

/-- norm(x): the signed distance modulo B (R103). -/
def norm (b : Nat) (x : Int) : Int :=
  let m := x % b
  if 2 * m < b then m else m - b

/-- The outcome of a slot selection that found a slot (R104). -/
structure Selection where
  slot : BitVec 8
  rebased : Bool
deriving DecidableEq, Repr

/-- select(w) from a snapshot w of W and the read cursor R; none is NONE (R104). -/
def select (a : Configuration) (r w : BitVec 8) : Option Selection :=
  if w = r then none
  else if a.guardSlots > 0 ∧ (norm a.slots ((w.toNat : Int) - r.toNat)).natAbs ≤ a.guardSlots then
    some ⟨slotMod a.slots (w.toNat + a.offsetSlots), true⟩
  else some ⟨r, false⟩

/-- collide_check(ns): COLLIDE if the running READ or DEMUX is reading the slot just armed (R102).
Only a READ or a DEMUX holds an s_sel. -/
def State.collideCheck (s : State) (ns : BitVec 8) : State :=
  match s.sequencer with
  | .idle => s
  | .busy _ wk =>
    if wk.sSel = some ns then { s with status := { s.status with collide := true } } else s

/-- The slot a completion re-arms, from the new W: W for one transport, W + 1 for two (R100). -/
def rearmSlot (a : Configuration) (w : BitVec 8) : BitVec 8 := slotMod a.slots (w.toNat + a.producers - 1)

/-- `on done p` (R100). -/
def State.onDone (s : State) (p : Transport) : State :=
  if s.status.running = false ∨ s.active.producers ≤ p.val then s
  else
    let w := slotMod s.active.slots (s.w.toNat + 1)
    let ns := rearmSlot s.active w
    ((({ s with w := w }).arm p ns.toNat).notify).collideCheck ns

/-- A transport's write of one RING byte through its port, wherever it is armed or not; transport 1 exists only when
A.NPROD = 2 (R9, R98, R108, R132; log 16). -/
def State.portWrite (s : State) (p : Transport) (off : BitVec 19) (b : Byte) : State :=
  if s.active.producers ≤ p.val then s else s.writeRing off.toNat b

/-- n: whole blocks only, at most one slot's worth (R106). -/
def readCount (a : Configuration) (nreq : Nat) : Nat := min (nreq / a.spm * a.spm) a.samples

/-- The blocks of channel `c` of a READ of `n` samples (R106). -/
def State.decodeChannel (n : Nat) (s : State) (c : Nat) : State :=
  (List.range (n / s.active.spm)).foldl
    (fun t k => t.decodeBlock c (k * t.active.spm * t.active.windowBytes) (c * n + k * t.active.spm)) s

/-- The filtering of a READ: every channel, every whole block (R106). -/
def State.decodeAll (n : Nat) (s : State) : State :=
  (List.range s.active.channels).foldl (State.decodeChannel n) s

/-- READ (R106). -/
def execRead (nreq : Nat) (s : State) : Host.Outcome State Fault Refusal :=
  if s.status.inited = false then s.fail .notInit
  else
    match select s.active s.r s.work.wSnap with
    | none => ({ s with result := ⟨0, false, false, s.r⟩ }).done
    | some sel =>
      let n := readCount s.active nreq
      ({ (s.demuxSlot sel.slot.toNat).decodeAll n with
          r := slotMod s.active.slots (sel.slot.toNat + 1)
          result := ⟨BitVec.ofNat 16 n, true, sel.rebased, sel.slot⟩ }).done

end Sys2Proof.Machine
end

