-- ==== Sys2Proof/Machine/Session.lean ====
section
/-! DEFINITION. The session commands NOP, INIT, START, STOP, SET_VOLUME, SET_GAIN, SET_MAXVOL (43_session.md). -/

namespace Sys2Proof.Machine

/-- NOP (R112). -/
def execNop (s : State) : Host.Outcome State Fault Refusal := s.done

/-- INIT's validation of the configuration, in R113's order: the first check that fails. -/
def initCheck (a : Configuration) : Option ErrCode :=
  if ¬(a.channels = 1 ∨ a.channels = 2 ∨ a.channels = 4) then some .config
  else if a.spm = 0 then some .config
  else if a.samples = 0 ∨ a.samples % a.spm ≠ 0 then some .config
  else if a.samples > Config.sbsMax then some .resource
  else if a.slots < 2 then some .config
  else if a.slots * a.slotSize > Config.ringBytesMax then some .resource
  else if a.guardSlots > 0 ∧ a.guardSlots ≥ (norm a.slots a.offsetSlots).natAbs then some .config
  else none

/-- The registers the filter reads, as INIT sets them for a configuration (R113, R77, R78). -/
def initConsts (a : Configuration) : FilterConsts where
  volume := BitVec.ofNat 16 Config.volumeDefault
  gain := BitVec.ofNat 16 Config.gainDefault
  maxvol := BitVec.ofNat 16 Config.maxvolDefault
  lpHz := BitVec.ofNat 16 (a.rateHz / 2)
  hpHz := BitVec.ofNat 16 Config.hpHzDefault
  lpAlfa := BitVec.ofNat 9 (lpAlfaOf (a.rateHz / 2) a.rateHz)
  hpAlfa := BitVec.ofNat 9 (hpAlfaOf Config.hpHzDefault a.rateHz)
  subConst := BitVec.ofNat 32 (subConstOf a.decim)
  divConst := BitVec.ofNat 32 (divConstOf (subConstOf a.decim) Config.maxvolDefault Config.gainDefault)

/-- What a successful INIT makes of the state, before its outcome (R113). -/
def State.newSession (s : State) : State :=
  { s with
    active := s.cfg
    consts := initConsts s.cfg
    spm := BitVec.ofNat 8 s.cfg.spm
    slotBytes := BitVec.ofNat 32 s.cfg.slotSize
    filter := Vector.replicate 4 .zero
    w := 0
    r := 0
    wc := Vector.replicate 2 0
    status := { s.status with inited := true } }

/-- INIT (R113). -/
def execInit (s : State) : Host.Outcome State Fault Refusal :=
  if s.status.running = true then s.fail .state
  else
    match initCheck s.cfg with
    | some e => ({ s with status := { s.status with inited := false } }).fail e
    | none => s.newSession.done

/-- The transports the configuration uses can be claimed, by the inputs START sampled (R114; log 11). -/
def State.xportsAvailable (s : State) : Bool :=
  s.work.pins.xportAvail0 && (!s.active.nprod || s.work.pins.xportAvail1)

/-- Every check of START passes (R114). -/
def State.startOk (s : State) : Bool :=
  s.status.inited && !s.status.running && s.xportsAvailable && s.work.pins.notifyOk

/-- START's arm requests: transport 0 on slot 0, and with two transports, transport 1 on slot 1 (R99, R114). -/
def State.armFirst (s : State) : State :=
  if s.active.nprod then (s.arm 0 0).arm 1 1 else s.arm 0 0

/-- START (R114). -/
def execStart (s : State) : Host.Outcome State Fault Refusal :=
  if s.status.inited = false then s.fail .notInit
  else if s.status.running = true then s.fail .state
  else if s.xportsAvailable = false then s.fail .resource
  else if s.work.pins.notifyOk = false then s.fail .hardware
  else
    let t := ({ s with w := 0, r := 0, wc := Vector.replicate 2 0 }).armFirst
    ({ t with status := { t.status with running := true } }).done

/-- STOP's disarm requests (R115). -/
def State.disarmAll (s : State) : State :=
  if s.active.nprod then (s.disarm 0).disarm 1 else s.disarm 0

/-- STOP (R115). -/
def execStop (s : State) : Host.Outcome State Fault Refusal :=
  if s.status.running = false then s.done
  else
    let t := s.disarmAll
    ({ t with armed := Vector.replicate 2 false, status := { t.status with running := false } }).done

/-- SET_VOLUME (R116). -/
def execSetVolume (v : Nat) (s : State) : Host.Outcome State Fault Refusal :=
  if s.status.inited = false then s.fail .notInit
  else ({ s with consts := { s.consts with volume := BitVec.ofNat 16 v } }).done

/-- SET_GAIN (R117). -/
def execSetGain (g : Nat) (s : State) : Host.Outcome State Fault Refusal :=
  if s.status.inited = false then s.fail .notInit
  else if g = 0 then s.fail .config
  else
    ({ s with consts := { s.consts with
        gain := BitVec.ofNat 16 g
        divConst := BitVec.ofNat 32 (divConstOf s.consts.subConst.toNat s.consts.maxvol.toNat g) } }).done

/-- SET_MAXVOL (R118). -/
def execSetMaxvol (m : Nat) (s : State) : Host.Outcome State Fault Refusal :=
  if s.status.inited = false then s.fail .notInit
  else
    ({ s with consts := { s.consts with
        maxvol := BitVec.ofNat 16 m
        divConst := BitVec.ofNat 32 (divConstOf s.consts.subConst.toNat m s.consts.gain.toNat) } }).done

end Sys2Proof.Machine
end

