-- ==== Sys2Proof/Machine/Dispatch.lean ====
section
/-! DEFINITION. One arm per command: its completion (43_session.md R109). -/

namespace Sys2Proof.Machine

def exec (i : Instr) (s : State) : Host.Outcome State Fault Refusal :=
  match i with
  | .nop => Sys2Proof.Machine.execNop s
  | .init => Sys2Proof.Machine.execInit s
  | .start => Sys2Proof.Machine.execStart s
  | .stop => Sys2Proof.Machine.execStop s
  | .read n => Sys2Proof.Machine.execRead n s
  | .setVolume v => Sys2Proof.Machine.execSetVolume v s
  | .setGain g => Sys2Proof.Machine.execSetGain g s
  | .setMaxvol m => Sys2Proof.Machine.execSetMaxvol m s
  | .freset c => Sys2Proof.Machine.execFreset c s
  | .demux n => Sys2Proof.Machine.execDemux n s
  | .decode c k => Sys2Proof.Machine.execDecode c k s

end Sys2Proof.Machine
end

