-- ==== Sys2Proof/Machine/Sequencer.lean ====
section
/-! DEFINITION. Acceptance and completion of a command (43_session.md R109), and reset (70_reset_and_hazards.md R135). -/

namespace Sys2Proof.Machine

/-- The slot a command reads, from a snapshot `w` of W: a READ's selected slot, a DEMUX's operand where its checks
pass; none for every other command, and none where the command will fail or finds no slot (R97, R106; log 12). -/
def State.slotRead (s : State) (w : BitVec 8) : Instr → Option (BitVec 8)
  | .read _ => if s.status.inited then (select s.active s.r w).map (·.slot) else none
  | .demux n => if s.status.inited && demuxOperandOk s.active n then some (BitVec.ofNat 8 n) else none
  | .nop => none
  | .init => none
  | .start => none
  | .stop => none
  | .setVolume _ => none
  | .setGain _ => none
  | .setMaxvol _ => none
  | .freset _ => none
  | .decode _ _ => none

/-- The s_sel that the command word `x` holds from acceptance on (R109). -/
def State.slotReadBy (s : State) (w : BitVec 8) (x : Word) : Option (BitVec 8) :=
  match decode x with
  | .ok i => s.slotRead w i
  | .error _ => none

/-- Acceptance: the sequencer becomes BUSY(x), with the acceptance actions of the command (R44, R109). -/
def State.accept (s : State) (x : Word) : State :=
  { s with sequencer := .busy x { s.freshWork with sSel := s.slotReadBy s.w x } }

/-- A host write of the word x to CMD (R109). -/
def State.issue (s : State) (x : Word) : State := if s.busy then s.dropCommand else s.accept x

/-- The command the sequencer is running, where its word is legal. -/
def State.running? (s : State) : Option Instr :=
  match s.sequencer with
  | .idle => none
  | .busy cmd _ => (decode cmd).toOption

/-- The completion step of the running command; an illegal word fails with ILLEGAL_CMD (R71, R109; log 4).
At an IDLE sequencer there is nothing to complete. -/
def State.completeCommand (s : State) : Host.Outcome State Fault Refusal :=
  match s.sequencer with
  | .idle => .next s
  | .busy cmd _ =>
    match decode cmd with
    | .ok i => exec i s
    | .error _ => s.fail .illegalCmd

/-- The reset event: every piece of state at its reset value, and disarm(0) and disarm(1) driven (R135).
The environment is not reset: the inputs, the events to come, what was driven before (log 20). -/
def State.resetNow (s : State) : State :=
  (({ State.reset with
      pins := s.pins, events := s.events, outputs := s.outputs, draws := s.draws, powerOn := s.draws }).drive
    (.disarm 0)).drive (.disarm 1)

end Sys2Proof.Machine
end

