-- ==== Sys2Proof/Machine/Registers.lean ====
section
/-! DEFINITION. The register map (10_state.md R21-R41): which register an offset names, and the word it reads as. -/

namespace Sys2Proof.Machine

/-- One register of a channel's filter state (R40). -/
inductive FilterField where
  | oldOut
  | oldIn
  | oldZ
  | coef0
  | coef1
deriving DecidableEq, Repr

/-- The registers of the map (R21). `fstate c f hi` is half of a filter register of channel c (R41). -/
inductive Reg where
  | ctrl | cmd | status | result | cfgFs | cfgSbs | cfgFmt | cfgRing
  | volume | gain | maxvol | lpHz | hpHz | lpAlfa | hpAlfa | subConst | divConst
  | spm | slotBytes | wcur | rcur | wc0 | wc1 | completions | xport
  | fstate (c : Fin 4) (f : FilterField) (hi : Bool)
deriving DecidableEq, Repr

/-- The offsets of R21's table. -/
def regMap : List (Nat × Reg) :=
  [(0x000, .ctrl), (0x004, .cmd), (0x008, .status), (0x00C, .result),
   (0x010, .cfgFs), (0x014, .cfgSbs), (0x018, .cfgFmt), (0x01C, .cfgRing),
   (0x020, .volume), (0x024, .gain), (0x028, .maxvol), (0x02C, .lpHz),
   (0x030, .hpHz), (0x034, .lpAlfa), (0x038, .hpAlfa), (0x03C, .subConst),
   (0x040, .divConst), (0x044, .spm), (0x048, .slotBytes), (0x04C, .wcur),
   (0x050, .rcur), (0x054, .wc0), (0x058, .wc1), (0x05C, .completions), (0x060, .xport)]

/-- The offsets of one channel's set inside the FSTATE window (R41). -/
def filterMap : List (Nat × FilterField × Bool) :=
  [(0x00, .oldOut, false), (0x04, .oldOut, true), (0x08, .oldIn, false), (0x0C, .oldIn, true),
   (0x10, .oldZ, false), (0x14, .oldZ, true), (0x18, .coef0, false), (0x1C, .coef0, true),
   (0x20, .coef1, false), (0x24, .coef1, true)]

/-- The register at an offset of 0x000-0xFFF; none where the offset is reserved (R21, R41). -/
def regAt (off : Nat) : Option Reg :=
  if off < 0x100 then List.lookup off regMap
  else if off < 0x200 then
    (List.lookup ((off - 0x100) % 0x40) filterMap).map
      fun fh => .fstate (Fin.ofNat 4 ((off - 0x100) / 0x40)) fh.1 fh.2
  else none

/-- A register of a filter state set (R40). -/
def FilterState.field (f : FilterState) : FilterField → BitVec 64
  | .oldOut => f.oldOut
  | .oldIn => f.oldIn
  | .oldZ => f.oldZ
  | .coef0 => f.coef0
  | .coef1 => f.coef1

/-- The 32-bit word a register holds, reserved bits 0 (R21-R41). -/
def State.regWord (s : State) : Reg → Word
  | .ctrl => s.ctrl.toWord
  | .cmd => 0
  | .status => s.statusWord
  | .result => s.result.toWord
  | .cfgFs => s.cfg.fsWord
  | .cfgSbs => s.cfg.sbsWord
  | .cfgFmt => s.cfg.fmtWord
  | .cfgRing => s.cfg.ringWord
  | .volume => s.consts.volume.setWidth 32
  | .gain => s.consts.gain.setWidth 32
  | .maxvol => s.consts.maxvol.setWidth 32
  | .lpHz => s.consts.lpHz.setWidth 32
  | .hpHz => s.consts.hpHz.setWidth 32
  | .lpAlfa => s.consts.lpAlfa.setWidth 32
  | .hpAlfa => s.consts.hpAlfa.setWidth 32
  | .subConst => s.consts.subConst
  | .divConst => s.consts.divConst
  | .spm => s.spm.setWidth 32
  | .slotBytes => s.slotBytes
  | .wcur => s.w.setWidth 32
  | .rcur => s.r.setWidth 32
  | .wc0 => s.wc[0].setWidth 32
  | .wc1 => s.wc[1].setWidth 32
  | .completions => s.completions.setWidth 32
  | .xport => s.xportWord
  | .fstate c f hi => ((s.filter[c]).field f).extractLsb' (if hi then 32 else 0) 32

end Sys2Proof.Machine
end

