-- ==== Sys2Proof/Machine/Visibility.lean ====
section
/-! DEFINITION. Which places the running command will write, so that a host read of them while BUSY is unspecified
(20_memory.md R62, 93_implementation_defined.md U3; log 7). STATUS is not among them: polling reads it (R62).
A command that is sure to fail writes only its code (R122). -/

namespace Sys2Proof.Machine

/-- The registers a successful INIT writes, beside STATUS (R113). -/
def initRegs : List Reg :=
  [.volume, .gain, .maxvol, .lpHz, .hpHz, .lpAlfa, .hpAlfa, .subConst, .divConst, .spm, .slotBytes,
   .wcur, .rcur, .wc0, .wc1]

/-- The registers a successful START writes, beside STATUS (R114). -/
def startRegs : List Reg := [.wcur, .rcur, .wc0, .wc1, .xport]

/-- The register is part of the filter state of a channel that `p` holds of. -/
def Reg.inFilter (p : Nat → Bool) : Reg → Bool
  | .fstate c _ _ => p c.val
  | _ => false

/-- The command may write the register at its completion. -/
def State.willWriteReg (s : State) (i : Instr) (r : Reg) : Bool :=
  match i with
  | .nop => false
  | .init => !s.status.running && (initCheck s.cfg).isNone && (initRegs.contains r || r.inFilter (fun _ => true))
  | .start => s.startOk && startRegs.contains r
  | .stop => s.status.running && r == .xport
  | .read nreq =>
    s.status.inited && (r == .result ||
      (s.work.sSel.isSome &&
        (r == .rcur || (readCount s.active nreq != 0 && r.inFilter (fun c => c < s.active.channels)))))
  | .setVolume _ => s.status.inited && r == .volume
  | .setGain g => s.status.inited && g != 0 && (r == .gain || r == .divConst)
  | .setMaxvol _ => s.status.inited && (r == .maxvol || r == .divConst)
  | .freset c => s.status.inited && r.inFilter (fun x => x == c)
  | .demux _ => false
  | .decode c k => s.status.inited && decodeOperandsOk s.active c k && r.inFilter (fun x => x == c)

/-- The command may write the storage byte at its completion (R59, R88, R97, R106). -/
def State.willWriteByte (s : State) (i : Instr) (sp : Space) (off : Nat) : Bool :=
  match i, sp with
  | .read _, .scratch => s.status.inited && s.work.sSel.isSome && off < s.active.slotSize
  | .read nreq, .pcm =>
    s.status.inited && s.work.sSel.isSome && off < 2 * (s.active.channels * readCount s.active nreq)
  | .demux n, .scratch => s.status.inited && demuxOperandOk s.active n && off < s.active.slotSize
  | .decode c k, .pcm => s.status.inited && decodeOperandsOk s.active c k && off < 2 * s.active.spm
  | .decode _ _, .scratch => false
  | .demux _, .pcm => false
  | .nop, _ => false
  | .init, _ => false
  | .start, _ => false
  | .stop, _ => false
  | .setVolume _, _ => false
  | .setGain _, _ => false
  | .setMaxvol _, _ => false
  | .freset _, _ => false
  | .read _, .ring => false
  | .demux _, .ring => false
  | .decode _ _, .ring => false

/-- A host read of the register is unspecified now (R62). -/
def State.regUnspecified (s : State) (r : Reg) : Bool :=
  match s.running? with
  | none => false
  | some i => s.willWriteReg i r

/-- A host read of the storage byte is unspecified now (R62). -/
def State.byteUnspecified (s : State) (sp : Space) (off : Nat) : Bool :=
  match s.running? with
  | none => false
  | some i => s.willWriteByte i sp off

end Sys2Proof.Machine
end

