-- ==== Sys2Proof/Machine/Mmio.lean ====
section
/-! DEFINITION. Host accesses to the MMIO window (20_memory.md R49-R58, R62). -/

namespace Sys2Proof.Machine

/-- The bytes of an access (R54). -/
def Width.bytes : Width → Nat
  | .byte => 1
  | .half => 2
  | .word => 4

/-- What an MMIO address names (R49). -/
inductive Target where
  | reg (r : Reg)
  | mem (sp : Space) (off : Nat)
  | reserved
deriving DecidableEq, Repr

/-- The windows of R49: registers, PCM at 0x01000, SCRATCH at 0x40000, RING at 0x80000, the rest reserved. -/
def target (a : Nat) : Target :=
  if a < 0x01000 then
    match regAt a with
    | some r => .reg r
    | none => .reserved
  else if a < 0x05000 then .mem .pcm (a - 0x01000)
  else if a < 0x40000 then .reserved
  else if a < 0x60000 then .mem .scratch (a - 0x40000)
  else if a < 0x80000 then .reserved
  else .mem .ring (a - 0x80000)

/-- An access of n bytes is at a multiple of n (R55). -/
def aligned (w : Width) (a : Nat) : Bool := a % w.bytes == 0

/-- A 32-bit free value at an address: what a read of an unspecified register returns (U3; log 7). -/
def State.busyWord (s : State) (a : Nat) : Word :=
  wordOfBytes (Config.busyByte s.draws a) (Config.busyByte s.draws (a + 1)) (Config.busyByte s.draws (a + 2))
    (Config.busyByte s.draws (a + 3))

/-- The word a host read of a register returns; `a` is its address (R21, R62). -/
def State.hostRegWord (s : State) (a : Nat) (r : Reg) : Word :=
  if s.regUnspecified r then s.busyWord a else s.regWord r

/-- The byte a host read of a storage byte returns; `a` is its address (R62). -/
def State.hostByte (s : State) (a : Nat) (sp : Space) (off : Nat) : Byte :=
  if s.byteUnspecified sp off then Config.busyByte s.draws a else s.memByte sp off

/-- The little-endian value of a storage window's bytes (R53). -/
def State.hostBytes (s : State) (w : Width) (a : Nat) (sp : Space) (off : Nat) : Word :=
  BitVec.ofNat 32 (ofLeBytes ((List.range w.bytes).map (fun i => s.hostByte (a + i) sp (off + i))))

/-- The data a host read returns; none is `bus_error` (R54-R56). -/
def State.readData (s : State) (w : Width) (a : Nat) : Option Word :=
  if aligned w a then
    match target a with
    | .reg r => if w = .word then some (s.hostRegWord a r) else none
    | .mem sp off => some (s.hostBytes w a sp off)
    | .reserved => none
  else none

/-- A host read: no side effect but its response (R58). -/
def State.hostRead (s : State) (w : Width) (a : BitVec 20) : State :=
  match s.readData w a.toNat with
  | some v => s.respond v
  | none => s.busError

/-- A 32-bit host write of a register; none is `bus_error` (R21-R29, R56). -/
def State.writeReg (s : State) (r : Reg) (v : Word) : Option State :=
  match r with
  | .ctrl => some { s with ctrl := Ctrl.ofWord v }
  | .cmd => some (s.issue v)
  | .status => some (s.clearFlags v)
  | .cfgFs => if s.busy then none else some { s with cfg := s.cfg.setFsWord v }
  | .cfgSbs => if s.busy then none else some { s with cfg := s.cfg.setSbsWord v }
  | .cfgFmt => if s.busy then none else some { s with cfg := s.cfg.setFmtWord v }
  | .cfgRing => if s.busy then none else some { s with cfg := s.cfg.setRingWord v }
  | .result => none
  | .volume => none
  | .gain => none
  | .maxvol => none
  | .lpHz => none
  | .hpHz => none
  | .lpAlfa => none
  | .hpAlfa => none
  | .subConst => none
  | .divConst => none
  | .spm => none
  | .slotBytes => none
  | .wcur => none
  | .rcur => none
  | .wc0 => none
  | .wc1 => none
  | .completions => none
  | .xport => none
  | .fstate _ _ _ => none

/-- What a host write makes of the state; none is `bus_error` (R49, R54-R56). Of the value an access of n bytes
takes the n low bytes (R74; log 23). -/
def State.writeData (s : State) (w : Width) (a : Nat) (v : Word) : Option State :=
  if aligned w a then
    match target a with
    | .reg r => if w = .word then s.writeReg r v else none
    | .mem .ring off => some (s.writeRingRun off (leBytes w.bytes v.toNat))
    | .mem .scratch _ => none
    | .mem .pcm _ => none
    | .reserved => none
  else none

/-- A host write and its response. -/
def State.hostWrite (s : State) (w : Width) (a : BitVec 20) (v : Word) : State :=
  match s.writeData w a.toNat v with
  | some t => t.respond 0
  | none => s.busError

/-- The address of CMD (R23). -/
def cmdAddr : BitVec 20 := 0x00004

/-- The address of STATUS (R24). -/
def statusAddr : BitVec 20 := 0x00008

end Sys2Proof.Machine
end

