-- ==== Sys2Proof/Machine/Events.lean ====
section
/-! DEFINITION. The steps of the agents (00_scope.md R9, 20_memory.md R60), and which one comes next (log 1, log 2). -/

namespace Sys2Proof.Machine

/-- One poll of `wait` (R74): a read of STATUS. While it returns BUSY = 1 the wait goes on, and the sequencer is the
next to step (R146; log 15). -/
def State.hostPoll (s : State) : State :=
  let t := s.hostRead .word statusAddr
  if s.busy then { t with events := .complete :: .wait :: t.events } else t

/-- One step of an agent. Every step but a host read counts (log 10). -/
def takeEvent (e : Event) (s : State) : Host.Outcome State Fault Refusal :=
  match e with
  | .rd w a => .next (s.hostRead w a)
  | .wr w a v => .next (s.tick.hostWrite w a v)
  | .wait => .next s.hostPoll
  | .portWrite p off b => .next (s.tick.portWrite p off b)
  | .done p => .next (s.tick.onDone p)
  | .statusWriteWithDone v p => .next ((s.tick.hostWrite .word statusAddr v).onDone p)
  | .pins ps => .next { s.tick with pins := ps }
  | .complete => s.tick.completeCommand
  | .reset => .next s.tick.resetNow

/-- The next step and the events after it: the events in order, and after them a running command's completion, legal
or illegal (R44, R126, R146; log 2, log 4). -/
def State.nextEvent (s : State) : Option (Event × List Event) :=
  match s.events with
  | e :: es => some (e, es)
  | [] => if s.busy then some (.complete, []) else none

/-- The step that comes next, if any agent has one to take; else the core rests as it is (R20). -/
def State.advance (s : State) : Host.Outcome State Fault Refusal :=
  match s.nextEvent with
  | some (e, es) => takeEvent e { s with events := es }
  | none => .next s

/-- An operation of the host program (R74). -/
def Event.isHost : Event → Bool
  | .rd _ _ => true
  | .wr _ _ _ => true
  | .wait => true
  | .statusWriteWithDone _ _ => true
  | .portWrite _ _ _ => false
  | .done _ => false
  | .pins _ => false
  | .complete => false
  | .reset => false

/-- The command word `x` accepted, and the sequencer the next to step (R44, R65; log 3). -/
def State.withCommand (s : State) (x : Word) : State :=
  let t := s.accept x
  { t with events := .complete :: t.events }

end Sys2Proof.Machine
end

