-- ==== Sys2Proof/Machine/Step.lean ====
section
/-! DEFINITION. The step of the machine, and where it finds its next command. -/

namespace Sys2Proof.Machine

/-- One step of one agent (R60). -/
def step (s : State) : Host.Outcome State Fault Refusal := s.advance

/-- The command word latched in the sequencer, accepted from CMD (R65), with the sequencer's completion step next:
the very next step runs that command (log 3). -/
def State.withFetchWord (s : State) (nbits w : Nat) : State := s.withCommand (tableWord nbits w)

end Sys2Proof.Machine
end

