-- ==== Sys2Proof/Machine/HostOps.lean ====
section
/-! DEFINITION. The operations host programs are written in, as events (30_encoding.md R74). -/

namespace Sys2Proof.Machine

/-- `wr A, v`: a 32-bit write (R74). -/
def opWr (a : BitVec 20) (v : Word) : List Event := [.wr .word a v]

/-- `wr16 A, v` (R74). -/
def opWr16 (a : BitVec 20) (v : Word) : List Event := [.wr .half a v]

/-- `wr8 A, v` (R74). -/
def opWr8 (a : BitVec 20) (v : Word) : List Event := [.wr .byte a v]

/-- `rd A`: a 32-bit read (R74). -/
def opRd (a : BitVec 20) : List Event := [.rd .word a]

/-- `rd16 A` (R74). -/
def opRd16 (a : BitVec 20) : List Event := [.rd .half a]

/-- `cmd <command>`: a write of its word to CMD; none for an operand that assembly rejects (R73, R74). -/
def opCmd (i : Instr) : Option (List Event) := (assemble i).map (fun x => [.wr .word cmdAddr x])

/-- `wait` (R74). -/
def opWait : List Event := [.wait]

/-- `cmdw <command>`: `cmd`, then `wait` (R74). -/
def opCmdw (i : Instr) : Option (List Event) := (opCmd i).map (· ++ opWait)

/-- `fill s, o, b0 b1 ...`: the transport's writes of bytes at offsets o, o+1, ... of slot s, `size` bytes a slot (R74).
R74 does not say which transport where there are two; DESIGN CHOICE: transport 0, the one that is always there. A place
past the end of RING is taken modulo its size (log 26). -/
def opFill (size slot off : Nat) (bs : List Byte) : List Event :=
  (bs.zipIdx off).map (fun p => .portWrite 0 (BitVec.ofNat 19 (slot * size + p.2)) p.1)

/-- `done p` (R74). -/
def opDone (p : Transport) : List Event := [.done p]

end Sys2Proof.Machine
end

