-- ==== Sys2Proof/Safety.lean ====
section
/-! DEFINITION. The terms claims use: slot classes (R45), session states (R119), the observation and the end of a run
(R148), what a run must be free of (R149), and the invariants of the machine. -/

namespace Sys2Proof.Machine

/-! ### Classes the spec derives from the state -/

/-- The classes of a slot (R45). -/
inductive SlotClass where
  | beingConsumed
  | inFlight
  | filled
  | empty
deriving DecidableEq, Repr

/-- Whether the running READ or DEMUX reads this slot (R45). -/
def State.consuming (s : State) (slot : BitVec 8) : Bool :=
  match s.sequencer with
  | .idle => false
  | .busy _ wk => wk.sSel == some slot

/-- The class of a slot, from the cursors (R45). -/
def State.slotClass (s : State) (slot : BitVec 8) : SlotClass :=
  let b := s.active.slots
  if s.consuming slot then .beingConsumed
  else if slot = s.w ∨ (s.active.producers = 2 ∧ slot = slotMod b (s.w.toNat + 1)) then .inFlight
  else if ((slot.toNat : Int) - s.r.toNat) % b < ((s.w.toNat : Int) - s.r.toNat) % b then .filled
  else .empty

/-- The session states (R119). `broken` is INITED = 0 with RUNNING = 1, which "cannot be reached". -/
inductive Session where
  | uninit
  | ready
  | running
  | broken
deriving DecidableEq, Repr

/-- The session state (R119). -/
def State.session (s : State) : Session :=
  if s.status.inited then (if s.status.running then .running else .ready)
  else if s.status.running then .broken else .uninit

/-! ### Runs -/

/-- The host program has executed its last operation (R148 (a)): only steps of other agents are left to come. -/
def State.hostDone (s : State) : Bool := s.events.all (fun e => !e.isHost)

/-- What the core drove outwards in the step from `s` to `t`, newest first. -/
def State.drivenTo (s t : State) : List Output := t.outputs.take (t.outputs.length - s.outputs.length)

/-- The output is a `bus_error` (R56). -/
def Output.isBusError : Output → Bool
  | .response _ error => error
  | .arm _ _ _ _ => false
  | .disarm _ => false

/-- What the end of a run and its observation need of the way there (R148). -/
structure RunRecord where
  /-- The host's latest operation is a `wait` that read BUSY = 0. -/
  waited : Bool
  /-- A reset occurred. -/
  wasReset : Bool
  /-- A host access got `bus_error`. -/
  busError : Bool
  /-- DROPPED was 1 in some state of the run. -/
  dropped : Bool
  /-- COLLIDE was 1 in some state of the run. -/
  collided : Bool
deriving DecidableEq, Repr

/-- The record at the launch of a host program. -/
def RunRecord.launch (s : State) : RunRecord := ⟨false, false, false, s.status.dropped, s.status.collide⟩

/-- The record after the step from `s` to `t`. -/
def RunRecord.after (r : RunRecord) (s t : State) : RunRecord where
  waited :=
    match s.nextEvent with
    | none => r.waited
    | some (e, _) => if e = .wait then !s.busy else !e.isHost && r.waited
  wasReset := r.wasReset || s.nextEvent.any (fun p => p.1 == .reset)
  busError := r.busError || (s.drivenTo t).any Output.isBusError
  dropped := r.dropped || t.status.dropped
  collided := r.collided || t.status.collide

/-- The run of the host program ends in this state, the first where R148's (a), (b) and (c) hold. -/
def RunRecord.ended (r : RunRecord) (s : State) : Bool := s.hostDone && (r.waited && !s.busy) && !r.wasReset

/-- The bytes of a storage space as the host reads them at an IDLE sequencer, from offset 0 on: a byte nothing has
written since reset is its free value, as in every read of it (R48, R47; log 5). -/
def State.storage (s : State) (sp : Space) : List Byte := (List.range (Config.spaceBytes sp)).map (s.memByte sp)

/-- What R148 observes of the end of a run: the values a host would read, F and the cursors, and what happened on the way. -/
structure Observation where
  registers : List Word
  pcm : List Byte
  scratch : List Byte
  ring : List Byte
  filter : Vector FilterState 4
  cursors : List (BitVec 8)
  busError : Bool
  everDropped : Bool
  everCollided : Bool
deriving DecidableEq, Repr

/-- The observation of a state at the end of a run with this record (R148). -/
def State.observe (s : State) (r : RunRecord) : Observation where
  registers := regMap.map (fun p => s.regWord p.2)
  pcm := s.storage .pcm
  scratch := s.storage .scratch
  ring := s.storage .ring
  filter := s.filter
  cursors := [s.w, s.r, s.wc[0], s.wc[1]]
  busError := r.busError
  everDropped := r.dropped
  everCollided := r.collided

/-- The observation at the end of the run, if the end comes within `k` more steps; a run that is not at its end has
none (R148). -/
def observeRun : Nat → State → RunRecord → Option Observation
  | 0, s, r => if r.ended s then some (s.observe r) else none
  | k + 1, s, r =>
    if r.ended s then some (s.observe r)
    else
      match step s with
      | .next t => observeRun k t (r.after s t)
      | .fault _ => none
      | .refused _ => none

/-- The observation of the host program that `s` is launched with (R148). -/
def State.observeProgram (s : State) (k : Nat) : Option Observation := observeRun k s (.launch s)

/-- A run whose observation stands: no `bus_error`, no dropped command (R149). -/
def Observation.safe (o : Observation) : Bool := !o.busError && !o.everDropped

/-! ### Invariants -/

/-- The three storage spaces are in canonical form (R48). -/
def State.memoryWf (s : State) : Bool :=
  s.ring.wf Config.ringBytesMax && s.scratch.wf Config.scratchBytes && s.pcm.wf Config.pcmBytes

/-- The four cursors are slots of the active configuration (R37). -/
def State.cursorsInRange (s : State) : Prop :=
  s.w.toNat < s.active.slots ∧ s.r.toNat < s.active.slots ∧
    s.wc[0].toNat < s.active.slots ∧ s.wc[1].toNat < s.active.slots

/-- The constants are those INIT, SET_GAIN and SET_MAXVOL compute (R31, R33-R36, R77, R78). -/
structure State.ConstsOk (s : State) : Prop where
  spm : s.spm = BitVec.ofNat 8 s.active.spm
  slotBytes : s.slotBytes = BitVec.ofNat 32 s.active.slotSize
  lpHz : s.consts.lpHz = (initConsts s.active).lpHz
  hpHz : s.consts.hpHz = (initConsts s.active).hpHz
  lpAlfa : s.consts.lpAlfa = (initConsts s.active).lpAlfa
  hpAlfa : s.consts.hpAlfa = (initConsts s.active).hpAlfa
  subConst : s.consts.subConst = (initConsts s.active).subConst
  gain : 1 ≤ s.consts.gain.toNat
  divConst : s.consts.divConst =
    BitVec.ofNat 32 (divConstOf s.consts.subConst.toNat s.consts.maxvol.toNat s.consts.gain.toNat)

/-- The running command's s_sel is the one its word, its snapshot of W and the state give (R102, R109). -/
def State.selectionOk (s : State) : Prop :=
  match s.sequencer with
  | .idle => True
  | .busy cmd wk => wk.sSel = s.slotReadBy wk.wSnap cmd

/-- What every step keeps. -/
structure State.Inv (s : State) : Prop where
  /-- Storage in canonical form, inside its space (R48). -/
  memory : s.memoryWf = true
  /-- RUNNING without INITED "cannot be reached" (R119). -/
  running_inited : s.status.running = true → s.status.inited = true
  /-- A is a configuration that INIT accepts (R42, R113). -/
  legal : s.status.inited = true → initCheck s.active = none
  /-- The constants belong to A (R35). -/
  consts : s.status.inited = true → s.ConstsOk
  /-- "While STATUS.INITED = 1, each is less than A.B" (R37). -/
  cursors : s.status.inited = true → s.cursorsInRange
  /-- Nothing is armed while RUNNING = 0 (R39, R115). -/
  armed_off : s.status.running = false → s.armed = Vector.replicate 2 false
  /-- While RUNNING = 1, transport 0 is armed, and transport 1 exactly if there are two (R99). -/
  armed_on : s.status.running = true → s.armed[0] = true ∧ s.armed[1] = s.active.nprod
  /-- The slot the command reads (R102). -/
  selection : s.selectionOk

/-- R85's bounds on one channel's filter state, for decimation factor D. -/
structure FilterState.Bounded (D : Nat) (f : FilterState) : Prop where
  coef0 : 0 ≤ f.coef0.toInt ∧ f.coef0.toInt ≤ rowSum D 0
  coef1 : 0 ≤ f.coef1.toInt ∧ f.coef1.toInt ≤ rowSum D 0 + rowSum D 1
  oldIn : 2 * f.oldIn.toInt.natAbs ≤ D ^ 3
  oldOut : f.oldOut.toInt.natAbs ≤ 255 * D ^ 3 + 256
  oldZ : f.oldZ.toInt.natAbs < 2 ^ 29 + 256

/-- R85's bounds on every channel. -/
def State.FiltersBounded (s : State) : Prop := ∀ c : Fin 4, (s.filter[c]).Bounded s.active.decim

end Sys2Proof.Machine
end

