-- ==== Sys2Proof/Certificates/Slice0/Obligations.lean ====
section
/-! DEFINITION. The statements for the provers. A statement about what a command does gives the whole next state:
what it does not name in the record it leaves as it was. -/

open Sys2Proof Sys2Proof.Machine

/-! ### Encoding (30_encoding.md) -/

/-- R69, R73: words written out from the encoding table decode to the commands they stand for. -/
def Obligations.SampleWordsDecode : Prop :=
  decode 0x00000000 = .ok .nop ∧ decode 0x00000001 = .ok .init ∧ decode 0x00000002 = .ok .start ∧
  decode 0x00000003 = .ok .stop ∧ decode 0x00100004 = .ok (.read 16) ∧ decode 0x00040005 = .ok (.setVolume 4) ∧
  decode 0x00200006 = .ok (.setGain 32) ∧ decode 0x00800007 = .ok (.setMaxvol 128) ∧
  decode 0x00000310 = .ok (.freset 3) ∧ decode 0x00050011 = .ok (.demux 5) ∧ decode 0x00070212 = .ok (.decode 2 7)

/-- R68, R69, R73: every well-formed command's word, as a word and as four bytes on the bus, decodes to that command. -/
def Obligations.DecodeOfEncode : Prop :=
  ∀ i : Instr, i.wellFormed = true →
    decode (encode i) = .ok i ∧ ∀ rest, decodeBytes (bytesOfWord (encode i) ++ rest) = .ok (i, rest)

/-- R68, R69: a legal word is the encoding of the command it decodes to, and that command is well-formed. -/
def Obligations.EncodeOfDecode : Prop :=
  ∀ (x : Word) (i : Instr), decode x = .ok i → i.wellFormed = true ∧ encode i = x

/-- R70: every word is selected by exactly one row, whose command it decodes to, or by none, and then it is illegal. -/
def Obligations.DecodeTotal : Prop :=
  ∀ x : Word,
    (∃ row ∈ encMap, x &&& row.mask = row.pattern ∧ (∀ other ∈ encMap, x &&& other.mask = other.pattern → other = row) ∧
      decode x = .ok (operandsOf row.mnemonic x)) ∨
    ((∀ row ∈ encMap, x &&& row.mask ≠ row.pattern) ∧ ∃ e, decode x = .error e)

/-- R71: a word is illegal exactly if its opcode is reserved, RSV ≠ 0, or a field its command does not use is not 0. -/
def Obligations.IllegalWords : Prop :=
  ∀ x : Word, (∃ e, decode x = .error e) ↔
    (8 ≤ fieldOpc x ∧ fieldOpc x ≤ 15) ∨ 0x13 ≤ fieldOpc x ∨ fieldRsv x ≠ 0 ∨
    (fieldCh x ≠ 0 ∧ fieldOpc x ≠ 0x10 ∧ fieldOpc x ≠ 0x12) ∨
    (fieldArg x ≠ 0 ∧ (fieldOpc x ≤ 3 ∨ fieldOpc x = 0x10))

/-! ### Acceptance, completion, steps (43_session.md R109) -/

/-- R109, R23, R44: a CMD write at an IDLE sequencer is accepted, whatever its word. The sequencer holds W, RING and the
transports' inputs as they are now (log 11), and the slot the command will read: a READ the one `select` finds for this
W, a DEMUX its operand, where the checks pass, and every other word none (R102, R104; log 12). The value at acceptance
of every RING byte, which R61 draws from, is the one the byte holds now. A CMD write while BUSY changes only DROPPED. -/
def Obligations.CmdWrite : Prop :=
  ∀ (s : State) (x : Word),
    let slot : Option (BitVec 8) :=
      match decode x with
      | .ok (.read _) => if s.status.inited then (select s.active s.r s.w).map (·.slot) else none
      | .ok (.demux n) => if s.status.inited ∧ n < s.active.slots then some (BitVec.ofNat 8 n) else none
      | _ => none
    s.slotReadBy s.w x = slot ∧
    (s.sequencer = .idle →
      s.hostWrite .word cmdAddr x =
          { s with sequencer := .busy x ⟨s.w, slot, s.pins, s.ring, []⟩, outputs := .response 0 false :: s.outputs } ∧
        ∀ o, (s.hostWrite .word cmdAddr x).ringAtAcceptByte o = s.memByte .ring o) ∧
    (s.sequencer ≠ .idle →
      s.hostWrite .word cmdAddr x =
        { s with status := { s.status with dropped := true }, outputs := .response 0 false :: s.outputs })

/-- R109, log 2: where the sequencer has the turn, or nothing else is left to happen, a step of a BUSY core is `exec` of
the command its word decodes to; around it the step takes the event away and counts itself. -/
def Obligations.StepRunsCommand : Prop :=
  ∀ (s : State) (cmd : Word) (wk : Work) (i : Instr) (es : List Event),
    s.sequencer = .busy cmd wk → decode cmd = .ok i →
    (s.events = .complete :: es ∨ (s.events = [] ∧ es = [])) →
    step s = exec i { s with events := es, draws := s.draws + 1 }

/-- Log 3: the step after `withFetchWord` is `exec` of the command placed, on the state with that word accepted as a CMD
write accepts it (CmdWrite). -/
def Obligations.FetchedWordRuns : Prop :=
  ∀ (s : State) (n : Nat) (i : Instr), decode (BitVec.ofNat 32 n) = .ok i →
    decodeTableWord 32 n = some i ∧
    step (s.withFetchWord 32 n) =
      exec i { s with
        sequencer := .busy (BitVec.ofNat 32 n) ⟨s.w, s.slotReadBy s.w (BitVec.ofNat 32 n), s.pins, s.ring, []⟩
        draws := s.draws + 1 }

/-- R71, R109: the completion step of an accepted illegal word, where the sequencer has the turn or nothing else is left
to happen (log 2), writes ILLEGAL_CMD and changes nothing else. Other agents may step before it, as before every
completion (log 4; OnlyCommandsWrite). -/
def Obligations.IllegalWordCompletes : Prop :=
  ∀ (s : State) (cmd : Word) (wk : Work) (e : DecodeError) (es : List Event),
    s.sequencer = .busy cmd wk → decode cmd = .error e →
    (s.events = .complete :: es ∨ (s.events = [] ∧ es = [])) →
    step s = .next { s with
      status := { s.status with err := .illegalCmd }, sequencer := .idle, events := es, draws := s.draws + 1 }

/-- R149 "Stuck: none in the core", R127: every step answers a next state. It is the step of the first event there is
(log 1); with nothing left to happen an IDLE core stays as it is (log 2). -/
def Obligations.NoStepStops : Prop :=
  ∀ s : State, (∃ t, step s = .next t) ∧
    (∀ e es, s.events = e :: es → step s = takeEvent e { s with events := es }) ∧
    (s.sequencer = .idle → s.events = [] → step s = .next s)

/-- R74, R146: a `wait` on a running command, legal or not, ends: a poll that reads BUSY and puts the completion next
(StepRunsCommand, IllegalWordCompletes), the completion, a poll that does not (log 15). At an IDLE sequencer it ends
with one poll, which changes nothing but the response. -/
def Obligations.WaitEnds : Prop :=
  ∀ (s : State) (es : List Event), s.events = .wait :: es →
    (∀ cmd wk, s.sequencer = .busy cmd wk →
      step s = .next { s with
        events := .complete :: .wait :: es, outputs := .response s.statusWord false :: s.outputs } ∧
      ∃ t, Host.Core.run Sys2Proof.core 3 s = .next t ∧ t.sequencer = .idle ∧ t.events = es ∧
        t.outputs.head? = some (.response t.statusWord false)) ∧
    (s.sequencer = .idle →
      step s = .next { s with events := es, outputs := .response s.statusWord false :: s.outputs })

/-- R120, R121: every command, in every state, completes: the sequencer is IDLE and ERR holds one of the command's codes. -/
def Obligations.EveryCommandCompletes : Prop :=
  ∀ (i : Instr) (s : State), ∃ t, exec i s = .next t ∧ t.sequencer = .idle ∧
    t.status.err ∈
      (match i with
      | .nop => [.ok]
      | .init => [.state, .config, .resource, .ok]
      | .start => [.notInit, .state, .resource, .hardware, .ok]
      | .stop => [.ok]
      | .read _ => [.notInit, .ok]
      | .setVolume _ => [.notInit, .ok]
      | .setGain _ => [.notInit, .config, .ok]
      | .setMaxvol _ => [.notInit, .ok]
      | .freset _ => [.notInit, .ok]
      | .demux _ => [.notInit, .arg, .ok]
      | .decode _ _ => [.notInit, .arg, .ok] : List ErrCode)

/-- R122: a command that fails changes only STATUS.ERR and STATUS.BUSY, and an INIT that fails validation STATUS.INITED,
which it clears. -/
def Obligations.FailureChangesOnlyItsCode : Prop :=
  ∀ (i : Instr) (s t : State), exec i s = .next t → t.status.err ≠ .ok →
    t = { s with
      status := { s.status with
        err := t.status.err
        inited := s.status.inited && !(i == .init && t.status.err != .state) }
      sequencer := .idle }

/-! ### Session commands (43_session.md) -/

/-- R112: NOP writes ERR = OK and becomes IDLE; nothing else changes. -/
def Obligations.NopResult : Prop :=
  ∀ s : State, exec .nop s = .next { s with status := { s.status with err := .ok }, sequencer := .idle }

/-- R113, R42, R77, R78: INIT on a stopped core and a legal configuration creates the session. -/
def Obligations.InitCreatesSession : Prop :=
  ∀ s : State,
    let a := s.cfg
    let fs := a.fs.toNat
    let sbs := a.sbs.toNat
    let n := a.nch.toNat
    let d : Nat := if a.dsel then 128 else 64
    let slot := sbs * (d / 8) * n
    s.status.running = false → (n = 1 ∨ n = 2 ∨ n = 4) → 1000 ≤ fs → 0 < sbs → sbs % (fs / 1000) = 0 → sbs ≤ 2048 →
    2 ≤ a.b.toNat → a.b.toNat * slot ≤ 524288 →
    (a.guard = 0 ∨ a.guard.toNat < (norm a.b.toNat a.offset.toInt).natAbs) →
    exec .init s = .next { s with
      active := a
      consts :=
        { volume := 64, gain := 16, maxvol := 64
          lpHz := BitVec.ofNat 16 (fs / 2), hpHz := 10
          lpAlfa := BitVec.ofNat 9 (256 * (fs / 2) * 628318 / (628318 * (fs / 2) + 100000 * fs))
          hpAlfa := BitVec.ofNat 9 (256 * fs * 100000 / (628318 * 10 + 100000 * fs))
          subConst := BitVec.ofNat 32 (d ^ 3 / 2)
          divConst := BitVec.ofNat 32 (d ^ 3 / 2 * 64 / 32768 / 16) }
      spm := BitVec.ofNat 8 (fs / 1000)
      slotBytes := BitVec.ofNat 32 slot
      filter := Vector.replicate 4 .zero
      w := 0, r := 0, wc := Vector.replicate 2 0
      status := { s.status with inited := true, err := .ok }
      sequencer := .idle }

/-- R113, R111: INIT while RUNNING fails with STATE and keeps INITED; otherwise the first check that fails gives its code
and clears INITED. -/
def Obligations.InitRejects : Prop :=
  ∀ s : State,
    let a := s.cfg
    let spm := a.fs.toNat / 1000
    let sbs := a.sbs.toNat
    let n := a.nch.toNat
    let slot := sbs * ((if a.dsel then 128 else 64) / 8) * n
    let failed (e : ErrCode) : Host.Outcome State Fault Refusal :=
      .next { s with status := { s.status with inited := false, err := e }, sequencer := .idle }
    let c1 := n = 1 ∨ n = 2 ∨ n = 4
    let c2 := spm ≠ 0
    let c3 := sbs ≠ 0 ∧ sbs % spm = 0
    let c4 := sbs ≤ 2048
    let c5 := 2 ≤ a.b.toNat
    let c6 := a.b.toNat * slot ≤ 524288
    let c7 := a.guard = 0 ∨ a.guard.toNat < (norm a.b.toNat a.offset.toInt).natAbs
    (s.status.running = true →
      exec .init s = .next { s with status := { s.status with err := .state }, sequencer := .idle }) ∧
    (s.status.running = false →
      (¬c1 → exec .init s = failed .config) ∧
      (c1 → ¬c2 → exec .init s = failed .config) ∧
      (c1 → c2 → ¬c3 → exec .init s = failed .config) ∧
      (c1 → c2 → c3 → ¬c4 → exec .init s = failed .resource) ∧
      (c1 → c2 → c3 → c4 → ¬c5 → exec .init s = failed .config) ∧
      (c1 → c2 → c3 → c4 → c5 → ¬c6 → exec .init s = failed .resource) ∧
      (c1 → c2 → c3 → c4 → c5 → c6 → ¬c7 → exec .init s = failed .config))

/-- R114, R99: with its inputs as they were sampled at acceptance (R109, R110; log 11), START resets the cursors and arms
transport 0 on slot 0, and transport 1 on slot 1 if there are two. -/
def Obligations.StartArms : Prop :=
  ∀ s : State, s.status.inited = true → s.status.running = false → s.work.pins.notifyOk = true →
    s.work.pins.xportAvail0 = true →
    let slot := s.active.slotSize
    (s.active.nprod = false →
      exec .start s = .next { s with
        w := 0, r := 0, wc := #v[0, 0], armed := s.armed.set 0 true
        outputs := .arm 0 0 0 slot :: s.outputs
        status := { s.status with running := true, err := .ok }, sequencer := .idle }) ∧
    (s.active.nprod = true → s.work.pins.xportAvail1 = true →
      exec .start s = .next { s with
        w := 0, r := 0, wc := #v[0, 1], armed := #v[true, true]
        outputs := .arm 1 1 slot slot :: .arm 0 0 0 slot :: s.outputs
        status := { s.status with running := true, err := .ok }, sequencer := .idle })

/-- R114, R111: START's failures in their order; each changes nothing but ERR. RESOURCE and HARDWARE go by the inputs as
sampled at START's acceptance (R109, R110; log 11): a change of the inputs (R98) changes them alone, for the commands
accepted after it. -/
def Obligations.StartRejects : Prop :=
  ∀ s : State,
    let failed (e : ErrCode) : Host.Outcome State Fault Refusal :=
      .next { s with status := { s.status with err := e }, sequencer := .idle }
    let inputs := s.work.pins
    let available := inputs.xportAvail0 = true ∧ (s.active.nprod = true → inputs.xportAvail1 = true)
    (s.status.inited = false → exec .start s = failed .notInit) ∧
    (s.status.inited = true → s.status.running = true → exec .start s = failed .state) ∧
    (s.status.inited = true → s.status.running = false → ¬available → exec .start s = failed .resource) ∧
    (s.status.inited = true → s.status.running = false → available → inputs.notifyOk = false →
      exec .start s = failed .hardware) ∧
    (∀ ps, takeEvent (.pins ps) s = .next { s with pins := ps, draws := s.draws + 1 }) ∧
    (∀ ps cmd wk, s.sequencer = .busy cmd wk → ({ s with pins := ps }).work.pins = inputs)

/-- R115: STOP disarms the transports in use and clears RUNNING and ARMED; when stopped it is an OK no-op. -/
def Obligations.StopDisarms : Prop :=
  ∀ s : State,
    (s.status.running = false →
      exec .stop s = .next { s with status := { s.status with err := .ok }, sequencer := .idle }) ∧
    (s.status.running = true →
      exec .stop s = .next { s with
        armed := #v[false, false]
        outputs := if s.active.nprod then .disarm 1 :: .disarm 0 :: s.outputs else .disarm 0 :: s.outputs
        status := { s.status with running := false, err := .ok }, sequencer := .idle })

/-- R116: SET_VOLUME writes VOLUME and nothing else. -/
def Obligations.SetVolumeResult : Prop :=
  ∀ (s : State) (v : Nat), s.status.inited = true → v ≤ 65535 →
    exec (.setVolume v) s = .next { s with
      consts := { s.consts with volume := BitVec.ofNat 16 v }
      status := { s.status with err := .ok }, sequencer := .idle }

/-- R117, R78: SET_GAIN writes GAIN and recomputes DIV_CONST, at least 1; gain 0 is refused with CONFIG. -/
def Obligations.SetGainResult : Prop :=
  ∀ (s : State) (g : Nat), s.status.inited = true → g ≤ 65535 →
    (g ≠ 0 →
      exec (.setGain g) s = .next { s with
        consts := { s.consts with
          gain := BitVec.ofNat 16 g
          divConst := BitVec.ofNat 32 (max 1 (s.consts.subConst.toNat * s.consts.maxvol.toNat / 32768 / g)) }
        status := { s.status with err := .ok }, sequencer := .idle }) ∧
    (g = 0 →
      exec (.setGain g) s = .next { s with status := { s.status with err := .config }, sequencer := .idle })

/-- R118, R78: SET_MAXVOL writes MAXVOL and recomputes DIV_CONST, at least 1. -/
def Obligations.SetMaxvolResult : Prop :=
  ∀ (s : State) (m : Nat), s.status.inited = true → m ≤ 65535 →
    exec (.setMaxvol m) s = .next { s with
      consts := { s.consts with
        maxvol := BitVec.ofNat 16 m
        divConst := BitVec.ofNat 32 (max 1 (s.consts.subConst.toNat * m / 32768 / s.consts.gain.toNat)) }
      status := { s.status with err := .ok }, sequencer := .idle }

/-- R120, R121: before a successful INIT, the eight commands that need a session fail with NOT_INIT and change nothing else. -/
def Obligations.NotInitialised : Prop :=
  ∀ (s : State) (i : Instr), s.status.inited = false → i ≠ .nop → i ≠ .init → i ≠ .stop →
    exec i s = .next { s with status := { s.status with err := .notInit }, sequencer := .idle }

/-- R119: a step changes the session state only by the completion of INIT, START or STOP, along the table's rows, or by
reset; the fourth combination of the bits stays out of reach. -/
def Obligations.SessionLifeCycle : Prop :=
  ∀ s t : State, s.Inv → step s = .next t →
    t.session ≠ .broken ∧
    (t.session ≠ s.session →
      (s.nextEvent.map (·.1) = some .reset ∧ t.session = .uninit) ∨
      (s.nextEvent.map (·.1) = some .complete ∧
        ((s.running? = some .init ∧
            ((s.session = .uninit ∧ t.session = .ready ∧ t.status.err = .ok) ∨
             (s.session = .ready ∧ t.session = .uninit ∧ (t.status.err = .config ∨ t.status.err = .resource)))) ∨
         (s.running? = some .start ∧ s.session = .ready ∧ t.session = .running ∧ t.status.err = .ok) ∨
         (s.running? = some .stop ∧ s.session = .running ∧ t.session = .ready ∧ t.status.err = .ok))))

/-! ### The decimation filter (40_filter.md) -/

/-- R76: symmetry, sums, maxima and the sample entries of the coefficient table. -/
def Obligations.CoefficientFacts : Prop :=
  (∀ D ∈ [64, 128], coefSum D = D ^ 3 ∧ ∀ k < 3 * D, sinc D k = sinc D (3 * D - 1 - k)) ∧
  [rowSum 64 0, rowSum 64 1, rowSum 64 2, coefSum 64] = [43680, 174784, 43680, 262144] ∧
  [rowSum 128 0, rowSum 128 1, rowSum 128 2, coefSum 128] = [349504, 1398144, 349504, 2097152] ∧
  (∀ s < 3, ∀ i < 64, coef 64 s i ≤ 3072) ∧ coef 64 1 31 = 3072 ∧ coef 64 1 32 = 3072 ∧
  (∀ s < 3, ∀ i < 128, coef 128 s i ≤ 12288) ∧ coef 128 1 63 = 12288 ∧ coef 128 1 64 = 12288 ∧
  (List.range 10).map (coef 64 0) = [0, 1, 3, 6, 10, 15, 21, 28, 36, 45] ∧
  [coef 64 0 61, coef 64 0 62, coef 64 0 63] = [1891, 1953, 2016] ∧
  (List.range 4).map (coef 64 1) = [2080, 2142, 2202, 2260] ∧
  (List.range 4).map (coef 64 2) = [2016, 1953, 1891, 1830] ∧
  [coef 64 2 60, coef 64 2 61, coef 64 2 62, coef 64 2 63] = [6, 3, 1, 0] ∧
  [coef 128 0 125, coef 128 0 126, coef 128 0 127] = [7875, 8001, 8128] ∧ coef 128 1 0 = 8256 ∧ coef 128 2 127 = 0

/-- R75: for both decimation factors, the table is one zero, the pulse convolved with itself twice, and one zero, cut into
three slices of length D. -/
def Obligations.CoefficientsAreConvolution : Prop :=
  ∀ a : Configuration,
    let D := a.decim
    let r := rectPulse D
    let table := [0] ++ convolve (convolve r r) r ++ [0]
    table.length = 3 * D ∧ ∀ s < 3, ∀ i < D, table[s * D + i]? = some (coef D s i)

/-- R82, R81: by either strategy a tap is the sum, over every byte j and bit b of the window, of bit 7 − b times the
coefficient 8j + b; so CTRL.STRATEGY changes no command's output, state or error. -/
def Obligations.StrategyHasNoEffect : Prop :=
  (∀ (D s : Nat) (win : List Byte),
    tapDirect D s win =
      ((List.range win.length).map fun j =>
        ((List.range 8).map fun b => ((win.getD j 0).getLsbD (7 - b)).toNat * coef D s (8 * j + b)).sum).sum ∧
    tapTable D s win = tapDirect D s win) ∧
  ∀ (i : Instr) (s t : State) (b : Bool), exec i s = .next t →
    exec i { s with ctrl := { s.ctrl with strategy := b } } = .next { t with ctrl := { t.ctrl with strategy := b } }

/-- R83, R81, R85: on a bounded filter state no wrap changes its operand, so one filter step is the recurrence in unbounded
integers over the window's taps, with floor shifts; and the state stays bounded. -/
def Obligations.FilterStepExact : Prop :=
  ∀ (D : Nat) (k : FilterConsts) (strategy : Bool) (f : FilterState) (win : List Byte),
    (D = 64 ∨ D = 128) → win.length = D / 8 → f.Bounded D → k.subConst.toNat = D ^ 3 / 2 →
    k.lpAlfa.toNat ≤ 255 → k.hpAlfa.toNat ≤ 255 →
    let t (i : Nat) : Int :=
      ((List.range (D / 8)).map fun j =>
        ((List.range 8).map fun b => ((win.getD j 0).getLsbD (7 - b)).toNat * coef D i (8 * j + b)).sum).sum
    let z : Int := f.coef1.toInt + t 2 - k.subConst.toNat
    let oldOut : Int := (k.hpAlfa.toNat * (f.oldOut.toInt + z - f.oldIn.toInt)) / 256
    let oldZ : Int := ((256 - (k.lpAlfa.toNat : Int)) * f.oldZ.toInt + k.lpAlfa.toNat * oldOut) / 256
    let out := filterStep k strategy D f win
    out.1.coef0.toInt = t 0 ∧ out.1.coef1.toInt = f.coef0.toInt + t 1 ∧ out.1.oldIn.toInt = z ∧
    out.1.oldOut.toInt = oldOut ∧ out.1.oldZ.toInt = oldZ ∧
    out.2.toInt = max (-32700) (min 32700 (rounddiv (oldZ * k.volume.toNat) k.divConst.toNat)) ∧
    out.1.Bounded D

/-- R86: after F is zeroed, the Z of step m, which OldIn then holds, combines three consecutive windows. A run is the
filter steps of its windows in order, each from the state the one before it left (R87). -/
def Obligations.ThreeWindows : Prop :=
  ∀ (D : Nat) (k : FilterConsts) (strategy : Bool) (wins : List (List Byte)) (m : Nat),
    (D = 64 ∨ D = 128) → (∀ win ∈ wins, win.length = D / 8) → m < wins.length →
    let t (s : Nat) (back : Nat) : Int := if back ≤ m then tapDirect D s (wins.getD (m - back) []) else 0
    (filterRun k strategy D .zero (wins.take (m + 1))).1.oldIn.toInt = t 0 2 + t 1 1 + t 2 0 - k.subConst.toNat ∧
    ∀ f win, filterRun k strategy D f [] = (f, []) ∧
      filterRun k strategy D f (win :: wins) =
        (let one := filterStep k strategy D f win
         let rest := filterRun k strategy D one.1 wins
         (rest.1, one.2 :: rest.2))

/-- R84 (c): rounddiv is the nearest integer, half away from zero, for every positive divisor. -/
def Obligations.RounddivNearest : Prop :=
  ∀ a d : Int, 0 < d →
    2 * (rounddiv a d * d - a).natAbs ≤ d ∧
    (2 * (rounddiv a d * d - a).natAbs = d → a.natAbs ≤ (rounddiv a d * d).natAbs) ∧
    rounddiv (-a) d = -rounddiv a d

/-- R90 (b): the rounded quotient of a doubled product is twice the single one, up to 1. -/
def Obligations.VolumeDoubling : Prop :=
  ∀ oldZ volume d : Int, 0 < d →
    (rounddiv (oldZ * (2 * volume)) d - 2 * rounddiv (oldZ * volume) d).natAbs ≤ 1

/-- R84 (d), R86: samples never leave ±32700, and with VOLUME = 0 every sample of a run is 0. -/
def Obligations.SamplesSaturate : Prop :=
  ∀ (k : FilterConsts) (strategy : Bool) (D : Nat) (f : FilterState) (wins : List (List Byte)),
    let out := (filterRun k strategy D f wins).2
    out.length = wins.length ∧ (∀ v ∈ out, -32700 ≤ v.toInt ∧ v.toInt ≤ 32700) ∧
    (k.volume = 0 → ∀ v ∈ out, v = 0)

/-- R90 (c): with Z constant, every OldOut = −k with k·(256 − HP_ALFA) < 256 is a fixed point of the high-pass, the
residual of the floor shift. -/
def Obligations.HighPassResidual : Prop :=
  ∀ (k : FilterConsts) (f : FilterState) (j : Nat), k.hpAlfa.toNat ≤ 256 → j * (256 - k.hpAlfa.toNat) < 256 →
    j ≤ 255 → f.oldOut.toInt = -j → stepOldOut k f f.oldIn.toInt = f.oldOut.toInt

/-- R89: FRESET zeroes the five registers of its channel and nothing else. -/
def Obligations.FresetResult : Prop :=
  ∀ (s : State) (c : Nat) (h : c < 4), s.status.inited = true →
    exec (.freset c) s = .next { s with
      filter := s.filter.set c ⟨0, 0, 0, 0, 0⟩
      status := { s.status with err := .ok }, sequencer := .idle }

/-- R88, R87, R80: DECODE filters the spm windows of block k of channel c, from SCRATCH into PCM samples 0..spm−1, and
leaves F[c] as the last step left it; every other PCM byte and everything else stays. -/
def Obligations.DecodeResult : Prop :=
  ∀ (s : State) (c k : Nat), s.status.inited = true → initCheck s.active = none →
    c < s.active.channels → (k + 1) * s.active.spm ≤ s.active.samples →
    let a := s.active
    let wins := (List.range a.spm).map fun i => (List.range a.windowBytes).map fun j =>
      s.memByte .scratch (c * a.streamBytes + k * a.spm * a.windowBytes + i * a.windowBytes + j)
    let out := filterRun s.consts s.ctrl.strategy a.decim (s.filter[c]?.getD .zero) wins
    ∃ t, exec (.decode c k) s = .next t ∧
      t = { s with filter := s.filter.setIfInBounds c out.1, pcm := t.pcm
                   status := { s.status with err := .ok }, sequencer := .idle } ∧
      (∀ i < a.spm, out.2[i]? = some (t.pcmSample i)) ∧
      (∀ o, 2 * a.spm ≤ o → t.memByte .pcm o = s.memByte .pcm o)

/-- R88, R97: DECODE of a channel or block that is not there, and DEMUX of a slot that is not there, fail with ARG. -/
def Obligations.OperandRejects : Prop :=
  ∀ (s : State), s.status.inited = true →
    let failed : Host.Outcome State Fault Refusal :=
      .next { s with status := { s.status with err := .arg }, sequencer := .idle }
    (∀ c k, s.active.channels ≤ c ∨ s.active.samples < (k + 1) * s.active.spm → exec (.decode c k) s = failed) ∧
    (∀ slot, s.active.slots ≤ slot → exec (.demux slot) s = failed)

/-! ### The bit demultiplexer (41_demux.md) and the race rule -/

/-- R93, R92: the shift and mask sequences compute chan, for every word and channel: bit N·k + c of the word is bit k of
channel c's value. -/
def Obligations.MaskSequences : Prop :=
  ∀ w : Word, (∀ c < 2, (chanMask2 w c).toNat = chan w 2 c) ∧ (∀ c < 4, (chanMask4 w c).toNat = chan w 4 c) ∧
    ∀ n ∈ [2, 4], ∀ c < n,
      chan w n c = ((List.range (32 / n)).map fun k => (w.getLsbD (n * k + c)).toNat * 2 ^ k).sum

/-- R96: a word that interleaves per-channel patterns demultiplexes to exactly those patterns. -/
def Obligations.InterleaveRoundTrip : Prop :=
  ∀ (n : Nat) (p : Nat → Nat), (n = 2 ∨ n = 4) → (∀ c < n, p c < 2 ^ (32 / n)) →
    interleave n p = ((List.range n).map fun c =>
      ((List.range (32 / n)).map fun k => ((p c).testBit k).toNat * 2 ^ (n * k + c)).sum).sum ∧
    interleave n p < 2 ^ 32 ∧ ∀ c < n, chan (BitVec.ofNat 32 (interleave n p)) n c = p c

/-- R97, R94, R91, R51: DEMUX writes each channel's stream into SCRATCH: the slot's own bytes for N = 1, the 16-bit channel
values little-endian for N = 2, the 8-bit ones for N = 4. SCRATCH bytes from SLOT_BYTES on and everything else stay. -/
def Obligations.DemuxResult : Prop :=
  ∀ (s : State) (slot : Nat), s.status.inited = true → initCheck s.active = none → slot < s.active.slots →
    let a := s.active
    let base := slot * a.slotSize
    let word (m : Nat) : Word :=
      s.ringByte (base + 4 * m + 3) ++ s.ringByte (base + 4 * m + 2) ++ s.ringByte (base + 4 * m + 1) ++
        s.ringByte (base + 4 * m)
    ∃ t, exec (.demux slot) s = .next t ∧
      t = { s with scratch := t.scratch, status := { s.status with err := .ok }, sequencer := .idle } ∧
      (∀ c < a.channels, ∀ o < a.streamBytes,
        t.memByte .scratch (c * a.streamBytes + o) =
          if a.channels = 1 then s.ringByte (base + o)
          else if a.channels = 2 then BitVec.ofNat 8 (chan (word (o / 2)) 2 c >>> (8 * (o % 2)))
          else BitVec.ofNat 8 (chan (word o) 4 c)) ∧
      (∀ o, a.slotSize ≤ o → t.memByte .scratch o = s.memByte .scratch o)

/-- R61, U2: a command's RING read gives the value at acceptance, or one written to that byte since; with no such write it
is the value at acceptance. A RING write changes the byte it writes and, while BUSY, joins the values of that byte alone
and leaves the value at acceptance; nothing else changes (R59). A step of a transport's write port is such a write, armed
or not; of a transport the configuration does not have it does nothing (R98, R9; log 16). -/
def Obligations.RaceRule : Prop :=
  ∀ s : State,
    (∀ cmd wk, s.sequencer = .busy cmd wk → ∀ o,
      (s.ringByte o = s.ringAtAcceptByte o ∨ (o, s.ringByte o) ∈ wk.ringWrites) ∧
      ((∀ cell ∈ wk.ringWrites, cell.1 ≠ o) → s.ringByte o = s.ringAtAcceptByte o)) ∧
    (∀ off b, let t := s.writeRing off b
      (∀ o, t.memByte .ring o = if o = off then b else s.memByte .ring o) ∧
      (s.sequencer = .idle → t = { s with ring := t.ring }) ∧
      ∀ cmd wk, s.sequencer = .busy cmd wk →
        t = { s with ring := t.ring, sequencer := .busy cmd { wk with ringWrites := (off, b) :: wk.ringWrites } } ∧
        (∀ o, t.ringAtAcceptByte o = s.ringAtAcceptByte o) ∧
        ∀ o, t.racingWrites o = if o = off then b :: s.racingWrites o else s.racingWrites o) ∧
    (∀ (p : Transport) (off : BitVec 19) (b : Byte),
      (p.val < 1 + s.active.nprod.toNat →
        takeEvent (.portWrite p off b) s = .next { s.writeRing off.toNat b with draws := s.draws + 1 }) ∧
      (1 + s.active.nprod.toNat ≤ p.val → takeEvent (.portWrite p off b) s = .next { s with draws := s.draws + 1 }))

/-! ### The capture ring (42_ring.md) -/

/-- R103: norm(x) is x modulo B in [−B/2, B/2), and its magnitude is that of norm(−x). -/
def Obligations.NormProperties : Prop :=
  ∀ (b : Nat) (x : Int), 0 < b →
    norm b x = (if 2 * (x % b) < b then x % b else x % b - b) ∧
    (b % 2 = 0 → -(b : Int) ≤ 2 * norm b x ∧ 2 * norm b x < b) ∧
    (b % 2 = 1 → -((b : Int) - 1) ≤ 2 * norm b x ∧ 2 * norm b x ≤ (b : Int) - 1) ∧
    (norm b (-x)).natAbs = (norm b x).natAbs ∧
    (b % 2 = 0 → (x - b / 2) % b = 0 → norm b x = -(b / 2 : Int) ∧ norm b (-x) = -(b / 2 : Int))

/-- R104, R105, R107 (a): under a legal configuration the selected slot is never the snapshot of W; in the drift variant it
is further than GUARD from it, so never the second armed slot either; it is a slot of the ring, R or W + OFFSET. -/
def Obligations.SelectionAvoidsWriter : Prop :=
  ∀ (a : Configuration) (r w : BitVec 8), initCheck a = none → r.toNat < a.slots → w.toNat < a.slots →
    (select a r w = none ↔ w = r) ∧
    ∀ sel, select a r w = some sel →
      sel.slot.toNat < a.slots ∧ sel.slot ≠ w ∧
      (sel.rebased = false → sel.slot = r) ∧
      (sel.rebased = true → (sel.slot.toNat : Int) = (w.toNat + a.offsetSlots) % a.slots ∧
        0 < a.guardSlots ∧ (norm a.slots ((w.toNat : Int) - r.toNat)).natAbs ≤ a.guardSlots) ∧
      (0 < a.guardSlots → a.guardSlots < (norm a.slots ((w.toNat : Int) - sel.slot.toNat)).natAbs ∧
        sel.slot.toNat ≠ (w.toNat + 1) % a.slots)

/-- R100, R102, R108: an accepted completion advances W, re-arms its transport on W, or W + 1 with two transports, sets
READY_PEND, counts, and sets COLLIDE if the slot re-armed is the one a command is reading; nothing else changes. One that
comes while stopped, or of a transport the configuration does not use, changes nothing. The step of `done p` is that, and
the model's count of steps. -/
def Obligations.CompletionEvent : Prop :=
  ∀ (s : State) (p : Transport),
    takeEvent (.done p) s = .next { s.onDone p with draws := s.draws + 1 } ∧
    (s.status.running = false ∨ 1 + s.active.nprod.toNat ≤ p.val → s.onDone p = s) ∧
    (s.status.running = true → p.val < 1 + s.active.nprod.toNat → 2 ≤ s.active.slots →
      let w' := (s.w.toNat + 1) % s.active.slots
      let ns := (w' + s.active.nprod.toNat) % s.active.slots
      let reading := match s.sequencer with
        | .idle => false
        | .busy _ wk => wk.sSel == some (BitVec.ofNat 8 ns)
      s.onDone p = { s with
        w := BitVec.ofNat 8 w'
        wc := s.wc.set p (BitVec.ofNat 8 ns)
        armed := s.armed.set p true
        completions := s.completions + 1
        outputs := .arm p ns (ns * s.active.slotSize) s.active.slotSize :: s.outputs
        status := { s.status with readyPend := true, collide := s.status.collide || reading } })

/-- R101: W counts accepted completions modulo B, whatever the order of the transports; so does COMPLETIONS modulo 2^16. -/
def Obligations.WCountsCompletions : Prop :=
  ∀ (s : State) (ps : List Transport), s.status.running = true → 2 ≤ s.active.slots → s.w.toNat < s.active.slots →
    (∀ p ∈ ps, p.val < 1 + s.active.nprod.toNat) →
    let t := ps.foldl State.onDone s
    t.w.toNat = (s.w.toNat + ps.length) % s.active.slots ∧
    t.completions = s.completions + BitVec.ofNat 16 ps.length ∧ t.r = s.r ∧ t.result = s.result

/-- R106, R107 (c): a READ that finds no new slot writes only RESULT and ERR = OK; and once INITED holds no READ fails. -/
def Obligations.ReadWithoutSlot : Prop :=
  ∀ (s : State) (n : Nat), s.status.inited = true →
    (s.work.wSnap = s.r →
      exec (.read n) s = .next { s with
        result := ⟨0, false, false, s.r⟩, status := { s.status with err := .ok }, sequencer := .idle }) ∧
    ∃ t, exec (.read n) s = .next t ∧ t.status = { s.status with err := .ok } ∧ t.sequencer = .idle

/-- R106, R52, R83, R94: a READ that consumes a slot demultiplexes it into SCRATCH, as DEMUX of that slot would, and,
channel by channel, runs the filter over the first n windows of the channel's stream, n the whole blocks asked for, at
most SBS: the samples stand at PCM index c·n + i and F[c] is where the filter ended. R moves one past the slot read,
RESULT reports it, every other byte and everything else stays. -/
def Obligations.ReadConsumesSlot : Prop :=
  ∀ (s : State) (nreq : Nat) (sel : Selection), s.status.inited = true → initCheck s.active = none →
    select s.active s.r s.work.wSnap = some sel →
    let a := s.active
    let n := min (nreq / a.spm * a.spm) a.samples
    let stream (c : Nat) := s.streamOf sel.slot.toNat c
    let wins (c : Nat) := (List.range n).map fun i => ((stream c).drop (i * a.windowBytes)).take a.windowBytes
    let out (c : Nat) := filterRun s.consts s.ctrl.strategy a.decim (s.filter[c]?.getD .zero) (wins c)
    ∃ t, exec (.read nreq) s = .next t ∧
      t = { s with
        filter := t.filter, scratch := t.scratch, pcm := t.pcm
        r := BitVec.ofNat 8 ((sel.slot.toNat + 1) % a.slots)
        result := ⟨BitVec.ofNat 16 n, true, sel.rebased, sel.slot⟩
        status := { s.status with err := .ok }, sequencer := .idle } ∧
      (∀ c < a.channels, (stream c).length = a.streamBytes ∧
        ∀ o < a.streamBytes, (stream c)[o]? = some (t.memByte .scratch (c * a.streamBytes + o))) ∧
      (∀ o, a.slotSize ≤ o → t.memByte .scratch o = s.memByte .scratch o) ∧
      (sel.slot.toNat < a.slots → ∀ u, exec (.demux sel.slot.toNat) s = .next u →
        ∀ o, t.memByte .scratch o = u.memByte .scratch o) ∧
      (∀ c < a.channels, t.filter[c]? = some (out c).1 ∧ ∀ i < n, (out c).2[i]? = some (t.pcmSample (c * n + i))) ∧
      (∀ c, a.channels ≤ c → t.filter[c]? = s.filter[c]?) ∧
      (∀ o, 2 * (a.channels * n) ≤ o → t.memByte .pcm o = s.memByte .pcm o)

/-! ### Host accesses (20_memory.md, 10_state.md) -/

/-- R55: a misaligned access, read or write, of any width makes `bus_error`, with nothing else done. -/
def Obligations.MisalignedAccess : Prop :=
  ∀ (s : State) (w : Width) (a : BitVec 20) (v : Word), a.toNat % w.bytes ≠ 0 →
    s.hostRead w a = { s with outputs := .response 0 true :: s.outputs } ∧
    s.hostWrite w a v = { s with outputs := .response 0 true :: s.outputs }

/-- R56: an access makes `bus_error` for the causes the rule lists and for no other; it then changes no state of the core,
and a read returns 0. Reserved are the gaps of R49 and the offsets of 0x000-0xFFF that R21 and R41 do not list. -/
def Obligations.BusErrorCauses : Prop :=
  ∀ (s : State) (w : Width) (a : BitVec 20) (v : Word),
    let n := a.toNat
    let misaligned := n % w.bytes ≠ 0
    let reserved := (0x05000 ≤ n ∧ n < 0x40000) ∨ (0x60000 ≤ n ∧ n < 0x80000) ∨ (0x200 ≤ n ∧ n < 0x1000) ∨
      (0x064 ≤ n ∧ n < 0x100) ∨ (0x100 ≤ n ∧ n < 0x200 ∧ 0x28 ≤ n % 0x40)
    let narrow := n < 0x1000 ∧ w ≠ .word
    let readOnly := (0x01000 ≤ n ∧ n < 0x05000) ∨ (0x40000 ≤ n ∧ n < 0x60000) ∨ n = 0x00C ∨ (0x020 ≤ n ∧ n < 0x200)
    let locked := s.busy = true ∧ (n = 0x010 ∨ n = 0x014 ∨ n = 0x018 ∨ n = 0x01C)
    (s.readData w n = none ↔ misaligned ∨ reserved ∨ narrow) ∧
    (s.writeData w n v = none ↔ misaligned ∨ reserved ∨ narrow ∨ readOnly ∨ locked) ∧
    (s.readData w n = none → s.hostRead w a = { s with outputs := .response 0 true :: s.outputs }) ∧
    (s.writeData w n v = none → s.hostWrite w a v = { s with outputs := .response 0 true :: s.outputs })

/-- R58, R60: a host access is one step; a read changes nothing but the response it leaves, and a write is counted. At
an IDLE sequencer the data is what the place holds: RESULT's fields (R25), the fields of CFG_FS, CFG_SBS, CFG_FMT and
CFG_RING (R26-R29), the constants (R30-R36), the cursors (R37), COMPLETIONS (R38), the arm state (R39), each half of
the filter registers (R41), and in the three windows the bytes, little-endian at every width (R49, R53), so a half
word of PCM is a sample (R52). -/
def Obligations.HostReadOnlyResponds : Prop :=
  ∀ s : State,
    (∀ w a, takeEvent (.rd w a) s = .next { s with
      outputs := (match s.readData w a.toNat with
        | some v => .response v false
        | none => .response 0 true) :: s.outputs }) ∧
    (∀ w a v, takeEvent (.wr w a v) s = .next { s.hostWrite w a v with draws := s.draws + 1 }) ∧
    s.readData .word 0x004 = some 0 ∧
    (s.sequencer = .idle →
      (∃ v, s.readData .word 0x00C = some v ∧ v.extractLsb' 0 16 = s.result.nwritten ∧
        v.getLsbD 16 = s.result.consumed ∧ v.getLsbD 17 = s.result.rebased ∧ v.extractLsb' 18 6 = 0 ∧
        v.extractLsb' 24 8 = s.result.slot) ∧
      (∀ p ∈ ([(0x010, s.cfg.fs.toNat), (0x014, s.cfg.sbs.toNat),
          (0x018, s.cfg.nch.toNat + 16 * s.cfg.dsel.toNat + 256 * s.cfg.nprod.toNat),
          (0x01C, s.cfg.b.toNat + 256 * s.cfg.guard.toNat + 65536 * s.cfg.offset.toNat),
          (0x020, s.consts.volume.toNat), (0x024, s.consts.gain.toNat), (0x028, s.consts.maxvol.toNat),
          (0x02C, s.consts.lpHz.toNat), (0x030, s.consts.hpHz.toNat), (0x034, s.consts.lpAlfa.toNat),
          (0x038, s.consts.hpAlfa.toNat), (0x03C, s.consts.subConst.toNat), (0x040, s.consts.divConst.toNat),
          (0x044, s.spm.toNat), (0x048, s.slotBytes.toNat), (0x04C, s.w.toNat), (0x050, s.r.toNat),
          (0x054, s.wc[0].toNat), (0x058, s.wc[1].toNat), (0x05C, s.completions.toNat),
          (0x060, s.armed[0].toNat + 2 * s.armed[1].toNat)] : List (Nat × Nat)),
        s.readData .word p.1 = some (BitVec.ofNat 32 p.2)) ∧
      (∀ c : Fin 4, let f := s.filter[c]
        ∀ p ∈ ([(0x00, f.oldOut), (0x08, f.oldIn), (0x10, f.oldZ), (0x18, f.coef0), (0x20, f.coef1)] :
            List (Nat × BitVec 64)),
          s.readData .word (0x100 + 0x40 * c.val + p.1) = some (p.2.extractLsb' 0 32) ∧
          s.readData .word (0x100 + 0x40 * c.val + p.1 + 4) = some (p.2.extractLsb' 32 32)) ∧
      (∀ p ∈ ([(.pcm, 0x01000, 0x4000), (.scratch, 0x40000, 0x20000), (.ring, 0x80000, 0x80000)] :
          List (Space × Nat × Nat)), ∀ o < p.2.2,
        let b (i : Nat) := s.memByte p.1 (o + i)
        s.readData .byte (p.2.1 + o) = some ((b 0).setWidth 32) ∧
        (o % 2 = 0 → s.readData .half (p.2.1 + o) = some ((b 1 ++ b 0).setWidth 32)) ∧
        (o % 4 = 0 → s.readData .word (p.2.1 + o) = some (b 3 ++ b 2 ++ b 1 ++ b 0))) ∧
      ∀ i < 8192, s.readData .half (0x01000 + 2 * i) = some ((s.pcmSample i).setWidth 32))

/-- R21, R22, R26-R29, U6: CTRL, whatever the sequencer does, and at an IDLE sequencer the CFG registers read back what
was written, reserved bits 0, and nothing else changes. IRQ_EN drives irq at once (R22, R125). -/
def Obligations.ConfigReadsBack : Prop :=
  ∀ (s : State) (v : Word),
    (let t := s.hostWrite .word 0x000 v
     t.readData .word 0x000 = some (v &&& 0x00000003) ∧ t.irq = (v.getLsbD 0 && s.status.readyPend) ∧
     t = { s with ctrl := ⟨v.getLsbD 0, v.getLsbD 1⟩, outputs := .response 0 false :: s.outputs }) ∧
    (s.sequencer = .idle →
      ∀ p ∈ ([(0x010, 0x0000FFFF), (0x014, 0x0000FFFF), (0x018, 0x00000117), (0x01C, 0x00FFFFFF)] :
          List (BitVec 20 × Word)),
        let t := s.hostWrite .word p.1 v
        t.readData .word p.1.toNat = some (v &&& p.2) ∧
        t = { s with cfg := t.cfg, outputs := .response 0 false :: s.outputs } ∧
        ∀ q ∈ ([0x010, 0x014, 0x018, 0x01C] : List Nat), q ≠ p.1.toNat →
          t.readData .word q = s.readData .word q)

/-- R24, R120: where STATUS holds its bits, the number of each outcome code, and what a host write of it does: 1 clears
bit 3, 4 or 5, all else is ignored. That a read while BUSY returns every bit as held, those the running command will
write too, is log 7 (R62 makes polling STATUS the synchronisation). -/
def Obligations.StatusRegister : Prop :=
  ∀ (s : State) (v : Word),
    let code : BitVec 4 :=
      match s.status.err with
      | .ok => 0
      | .illegalCmd => 1
      | .notInit => 3
      | .state => 4
      | .config => 5
      | .resource => 6
      | .hardware => 7
      | .arg => 8
    (∀ w, s.readData .word 0x008 = some w →
      w.getLsbD 0 = s.status.inited ∧ w.getLsbD 1 = s.status.running ∧ w.getLsbD 2 = s.busy ∧
      w.getLsbD 3 = s.status.readyPend ∧ w.getLsbD 4 = s.status.collide ∧ w.getLsbD 5 = s.status.dropped ∧
      w.extractLsb' 6 2 = 0 ∧ w.extractLsb' 8 4 = code ∧ w.extractLsb' 12 20 = 0) ∧
    (∃ w, s.readData .word 0x008 = some w) ∧
    s.hostWrite .word statusAddr v = { s with
      status := { s.status with
        readyPend := s.status.readyPend && !v.getLsbD 3
        collide := s.status.collide && !v.getLsbD 4
        dropped := s.status.dropped && !v.getLsbD 5 }
      outputs := .response 0 false :: s.outputs }

/-- R53, R59, R60: the step of an aligned host write of RING, of any width, stores the low bytes of its value (log 23),
little-endian: a read of the same place returns them, whether or not a command runs, and every other RING byte stays.
While BUSY the same bytes join the race record (R61; log 6); the command and its working values stay, and so does
everything else. -/
def Obligations.RingWindow : Prop :=
  ∀ (s : State) (w : Width) (a : BitVec 20) (v : Word), 0x80000 ≤ a.toNat → a.toNat % w.bytes = 0 →
    let off := a.toNat - 0x80000
    let cells := (List.range w.bytes).map fun i => (off + i, v.extractLsb' (8 * i) 8)
    ∃ t, takeEvent (.wr w a v) s = .next t ∧
      t = { s with
        ring := t.ring, sequencer := t.sequencer, outputs := .response 0 false :: s.outputs, draws := s.draws + 1 } ∧
      (s.sequencer = .idle → t.sequencer = .idle) ∧
      (∀ cmd wk, s.sequencer = .busy cmd wk →
        t.sequencer = .busy cmd { wk with ringWrites := cells.reverse ++ wk.ringWrites }) ∧
      (∀ cell ∈ cells, t.memByte .ring cell.1 = cell.2) ∧
      (∀ o, o < off ∨ off + w.bytes ≤ o → t.memByte .ring o = s.memByte .ring o) ∧
      t.readData w a.toNat = some (BitVec.ofNat 32 (v.toNat % 256 ^ w.bytes))

/-- R125, R24: irq is IRQ_EN and READY_PEND; an accepted completion sets READY_PEND whatever the enable; the write of 1 to
STATUS bit 3 clears it, unless a completion falls in the same step (log 17): then the set wins, and otherwise that step is
the write and the completion. -/
def Obligations.Interrupt : Prop :=
  ∀ (s : State) (p : Transport) (v : Word),
    s.irq = (s.ctrl.irqEn && s.status.readyPend) ∧
    takeEvent (.statusWriteWithDone v p) s =
      .next { (s.hostWrite .word statusAddr v).onDone p with draws := s.draws + 1 } ∧
    (s.status.running = true → p.val < 1 + s.active.nprod.toNat →
      (s.onDone p).status.readyPend = true ∧ (s.onDone p).irq = s.ctrl.irqEn ∧
      ∃ t, takeEvent (.statusWriteWithDone v p) s = .next t ∧ t.status.readyPend = true) ∧
    (v.getLsbD 3 = true → (s.hostWrite .word statusAddr v).irq = false) ∧
    (v.getLsbD 3 = false → (s.hostWrite .word statusAddr v).irq = s.irq)

/-- R62, R122: what each command writes, as MMIO addresses (`written`; R113-R118, R106, R89, R97, R88), a command that
is sure to fail nothing; a host read, of any width, that meets none of these places returns what they hold while the
command runs, and the same at its completion. STATUS is apart: it is read as held (log 7), and the completion writes ERR
and BUSY. The model's own count of the places (Visibility.lean; log 7) bounds the completion's writes in the same way. -/
def Obligations.CommandsWriteOnlyTheirPlaces : Prop :=
  ∀ (s t : State) (cmd : Word) (wk : Work) (i : Instr),
    s.Inv → s.sequencer = .busy cmd wk → decode cmd = .ok i → exec i s = .next t →
    let inited := s.status.inited = true
    let running := s.status.running = true
    let a := s.active
    let spm := a.fs.toNat / 1000
    let sbs := a.sbs.toNat
    let channels := a.nch.toNat
    let slotBytes := sbs * ((if a.dsel then 128 else 64) / 8) * channels
    let available := wk.pins.xportAvail0 = true ∧ (a.nprod = true → wk.pins.xportAvail1 = true)
    let within (lo n x : Nat) := lo ≤ x ∧ x < lo + n
    let written (x : Nat) : Prop :=
      match i with
      | .nop => False
      | .init => ¬running ∧ initCheck s.cfg = none ∧ (within 0x020 0x3C x ∨ within 0x100 0x100 x)
      | .start => inited ∧ ¬running ∧ available ∧ wk.pins.notifyOk = true ∧ (within 0x04C 16 x ∨ within 0x060 4 x)
      | .stop => running ∧ within 0x060 4 x
      | .read nreq =>
        let n := min (nreq / spm * spm) sbs
        inited ∧ (within 0x00C 4 x ∨ (wk.wSnap ≠ s.r ∧
          (within 0x050 4 x ∨ within 0x40000 slotBytes x ∨
            (n ≠ 0 ∧ (within 0x100 (0x40 * channels) x ∨ within 0x01000 (2 * (channels * n)) x)))))
      | .setVolume _ => inited ∧ within 0x020 4 x
      | .setGain g => inited ∧ g ≠ 0 ∧ (within 0x024 4 x ∨ within 0x040 4 x)
      | .setMaxvol _ => inited ∧ (within 0x028 4 x ∨ within 0x040 4 x)
      | .freset c => inited ∧ within (0x100 + 0x40 * c) 0x40 x
      | .demux slot => inited ∧ slot < a.b.toNat ∧ within 0x40000 slotBytes x
      | .decode c k => inited ∧ c < channels ∧ (k + 1) * spm ≤ sbs ∧
          (within (0x100 + 0x40 * c) 0x40 x ∨ within 0x01000 (2 * spm) x)
    let held := ({ s with sequencer := .idle } : State)
    (∀ w x, x ≠ 0x008 → (∀ j < w.bytes, ¬written (x + j)) →
      s.readData w x = held.readData w x ∧ t.readData w x = held.readData w x) ∧
    (∀ r, r ≠ .status → s.willWriteReg i r = false → t.regWord r = s.regWord r) ∧
    (∀ sp off, s.willWriteByte i sp off = false → t.memByte sp off = s.memByte sp off) ∧
    (∀ x r, s.willWriteReg i r = false → s.hostRegWord x r = s.regWord r) ∧
    (∀ x sp off, s.willWriteByte i sp off = false → s.hostByte x sp off = s.memByte sp off)

/-! ### Reset and the whole machine (70_reset_and_hazards.md) -/

/-- R21, R47: after reset every register of the map reads 0, F is 0, the cursors are 0, nothing is armed, the sequencer is
IDLE and no storage byte has been written. -/
def Obligations.ResetValues : Prop :=
  (∀ p ∈ regMap, State.reset.readData .word p.1 = some 0) ∧
  (∀ c : Fin 4, State.reset.filter[c] = ⟨0, 0, 0, 0, 0⟩) ∧
  State.reset.w = 0 ∧ State.reset.r = 0 ∧ State.reset.wc = #v[0, 0] ∧ State.reset.armed = #v[false, false] ∧
  State.reset.sequencer = .idle ∧ State.reset.irq = false ∧
  State.reset.ring = [] ∧ State.reset.scratch = [] ∧ State.reset.pcm = []

/-- R135: the reset event, in any state and also while BUSY, puts every piece of the core's state at its reset value, with
storage unspecified anew, and drives both disarm requests. That A, which R135 leaves unspecified, is 0 then is the model's
choice (log 8); the inputs, the events to come and the record of outputs are not the core's and stay (log 10, log 20). -/
def Obligations.ResetEvent : Prop :=
  ∀ s : State, takeEvent .reset s = .next { State.reset with
    pins := s.pins
    events := s.events
    outputs := .disarm 1 :: .disarm 0 :: s.outputs
    draws := s.draws + 1
    powerOn := s.draws + 1 }

/-- R42, R37, R35, R39, R102, R119: the invariant holds after reset, and every filter register is in its bounds. -/
def Obligations.InvariantAtReset : Prop := State.reset.Inv ∧ State.reset.FiltersBounded

/-- R37, R35, R42, R39, R99, R102, R119, R48: every step of every agent, from any state that meets the invariant, keeps it:
storage in canonical form, RUNNING only with INITED, A legal, the constants those of A, the cursors inside the ring, the
arm state that of the session, s_sel that of the command. -/
def Obligations.StepKeepsInvariant : Prop :=
  ∀ s t : State, s.Inv → step s = .next t → t.Inv

/-- R85: every step keeps every channel's filter registers within the bounds under which no 64-bit wrap changes a value. -/
def Obligations.StepKeepsFiltersBounded : Prop :=
  ∀ s t : State, s.Inv → s.FiltersBounded → step s = .next t → t.FiltersBounded

/-- R18, R19, R37, R38, R46, R59, R110: a step that is neither a completion of a command nor reset, the sequencer's
turn at IDLE among them, leaves the filter state, SCRATCH, PCM, A, every constant, R, RESULT, INITED, RUNNING and ERR
as they were, and while BUSY also CFG_*, the command and its working values. Among these steps only an accepted
producer completion changes W, WC, ARMED or COMPLETIONS, W and COMPLETIONS by one, or sets READY_PEND or COLLIDE; only
a CMD write at BUSY sets DROPPED, and only one at IDLE makes the sequencer BUSY; the flags are cleared only by writing
1 to their bit of STATUS; CTRL changes only by its own write, and RING only by a write port or the host's window. -/
def Obligations.OnlyCommandsWrite : Prop :=
  ∀ (s t : State) (e : Event) (es : List Event), s.nextEvent = some (e, es) →
    (e = .complete → s.sequencer = .idle) → e ≠ .reset → step s = .next t →
    let accepted := s.status.running = true ∧
      ∃ p : Transport, p.val < 1 + s.active.nprod.toNat ∧ (e = .done p ∨ ∃ v, e = .statusWriteWithDone v p)
    let clears (bit : Nat) := ∃ v : Word, v.getLsbD bit = true ∧
      (e = .wr .word statusAddr v ∨ ∃ p, e = .statusWriteWithDone v p)
    let cmdWrite := ∃ x, e = .wr .word cmdAddr x
    (t.filter = s.filter ∧ t.scratch = s.scratch ∧ t.pcm = s.pcm ∧ t.active = s.active ∧ t.consts = s.consts ∧
      t.spm = s.spm ∧ t.slotBytes = s.slotBytes ∧ t.r = s.r ∧ t.result = s.result ∧
      t.status.inited = s.status.inited ∧ t.status.running = s.status.running ∧ t.status.err = s.status.err) ∧
    (∀ cmd wk, s.sequencer = .busy cmd wk →
      t.cfg = s.cfg ∧ ∃ ws, t.sequencer = .busy cmd { wk with ringWrites := ws ++ wk.ringWrites }) ∧
    (s.sequencer = .idle → t.sequencer = .idle ∨ cmdWrite) ∧
    (accepted → t.completions = s.completions + 1 ∧
      (0 < s.active.slots → t.w.toNat = (s.w.toNat + 1) % s.active.slots)) ∧
    (¬accepted → t.w = s.w ∧ t.wc = s.wc ∧ t.armed = s.armed ∧ t.completions = s.completions ∧
      (t.status.readyPend = true → s.status.readyPend = true) ∧
      (t.status.collide = true → s.status.collide = true)) ∧
    (s.status.dropped = false → t.status.dropped = true → s.busy = true ∧ cmdWrite) ∧
    (s.status.readyPend = true → t.status.readyPend = false → clears 3) ∧
    (s.status.collide = true → t.status.collide = false → clears 4) ∧
    (s.status.dropped = true → t.status.dropped = false → clears 5) ∧
    (t.ctrl = s.ctrl ∨ ∃ v, e = .wr .word 0x000 v) ∧
    (t.ring = s.ring ∨ (∃ p off b, e = .portWrite p off b) ∨ ∃ w a v, e = .wr w a v ∧ 0x80000 ≤ a.toNat)
end

