-- ==== Sys2Proof/Laws/Arith.lean ====
section
/-! SUPPORT. The arithmetic primitives in Lean's own operations: no wrap within bounds, floors, and the two halves of
the rounding division. -/

namespace Sys2Proof.Machine

/-- wrap64 leaves what fits (R84 (a)). -/
theorem wrap64_of_bounds {v : Int} (h : -2 ^ 63 ≤ v) (h' : v < 2 ^ 63) : wrap64 v = v := by
  unfold wrap64; exact Int.bmod_eq_of_le (by omega) (by omega)

/-- A register holds what fits. -/
theorem reg64_toInt {v : Int} (h : -2 ^ 63 ≤ v) (h' : v < 2 ^ 63) : (reg64 v).toInt = v := by
  unfold reg64; rw [BitVec.toInt_ofInt]; exact Int.bmod_eq_of_le (by omega) (by omega)

@[simp] theorem reg64_zero_toInt : (reg64 0).toInt = 0 := by decide

/-- The shift of R83 is a floor division by 256 (R84 (b)). -/
theorem asr_eight (v : Int) : asr v 8 = v / 256 := by
  unfold asr; rw [Int.fdiv_eq_ediv_of_nonneg _ (by norm_num)]; norm_num

theorem fdiv_two (d : Int) : fdiv d 2 = d / 2 := by
  unfold fdiv; rw [Int.fdiv_eq_ediv_of_nonneg _ (by norm_num)]

theorem rounddiv_of_pos {a d : Int} (ha : 0 < a) (hd : 0 < d) : rounddiv a d = (a + d / 2) / d := by
  unfold rounddiv tdiv; rw [if_pos ha, fdiv_two, Int.tdiv_eq_ediv_of_nonneg (by omega)]

theorem rounddiv_of_nonpos {a d : Int} (ha : a ≤ 0) (hd : 0 < d) : rounddiv a d = -((-a + d / 2) / d) := by
  unfold rounddiv tdiv
  rw [if_neg (by omega), fdiv_two, show a - d / 2 = -(-a + d / 2) by ring, Int.neg_tdiv,
    Int.tdiv_eq_ediv_of_nonneg (by omega)]

theorem clamp_bounds (v : Int) {lo hi : Int} (h : lo ≤ hi) : lo ≤ clamp v lo hi ∧ clamp v lo hi ≤ hi := by
  unfold clamp; split <;> [skip; split] <;> omega

/-- A saturated sample is the clamped value (R84 (d)). -/
theorem saturate_toInt (v : Int) : (saturate v).toInt = clamp v (-32700) 32700 := by
  have h := clamp_bounds v (show (-32700 : Int) ≤ 32700 by decide)
  unfold saturate; rw [BitVec.toInt_ofInt]; exact Int.bmod_eq_of_le (by omega) (by omega)

theorem clamp_eq (v lo hi : Int) (h : lo ≤ hi) : clamp v lo hi = max lo (min hi v) := by
  unfold clamp; split <;> [skip; split] <;> omega

end Sys2Proof.Machine
end

