-- ==== Sys2Proof/Laws/State.lean ====
section
/-! SUPPORT. One lemma per field per update of State: what each named update writes, and what it leaves. -/

namespace Sys2Proof.Machine

/-! ### finish -/

@[simp] theorem State.finish_status (s : State) (e : ErrCode) : (s.finish e).status = { s.status with err := e } := rfl
@[simp] theorem State.finish_sequencer (s : State) (e : ErrCode) : (s.finish e).sequencer = .idle := rfl
@[simp] theorem State.finish_ctrl (s : State) (e : ErrCode) : (s.finish e).ctrl = s.ctrl := rfl
@[simp] theorem State.finish_result (s : State) (e : ErrCode) : (s.finish e).result = s.result := rfl
@[simp] theorem State.finish_cfg (s : State) (e : ErrCode) : (s.finish e).cfg = s.cfg := rfl
@[simp] theorem State.finish_active (s : State) (e : ErrCode) : (s.finish e).active = s.active := rfl
@[simp] theorem State.finish_consts (s : State) (e : ErrCode) : (s.finish e).consts = s.consts := rfl
@[simp] theorem State.finish_spm (s : State) (e : ErrCode) : (s.finish e).spm = s.spm := rfl
@[simp] theorem State.finish_slotBytes (s : State) (e : ErrCode) : (s.finish e).slotBytes = s.slotBytes := rfl
@[simp] theorem State.finish_w (s : State) (e : ErrCode) : (s.finish e).w = s.w := rfl
@[simp] theorem State.finish_r (s : State) (e : ErrCode) : (s.finish e).r = s.r := rfl
@[simp] theorem State.finish_wc (s : State) (e : ErrCode) : (s.finish e).wc = s.wc := rfl
@[simp] theorem State.finish_armed (s : State) (e : ErrCode) : (s.finish e).armed = s.armed := rfl
@[simp] theorem State.finish_completions (s : State) (e : ErrCode) : (s.finish e).completions = s.completions := rfl
@[simp] theorem State.finish_filter (s : State) (e : ErrCode) : (s.finish e).filter = s.filter := rfl
@[simp] theorem State.finish_ring (s : State) (e : ErrCode) : (s.finish e).ring = s.ring := rfl
@[simp] theorem State.finish_scratch (s : State) (e : ErrCode) : (s.finish e).scratch = s.scratch := rfl
@[simp] theorem State.finish_pcm (s : State) (e : ErrCode) : (s.finish e).pcm = s.pcm := rfl
@[simp] theorem State.finish_pins (s : State) (e : ErrCode) : (s.finish e).pins = s.pins := rfl
@[simp] theorem State.finish_events (s : State) (e : ErrCode) : (s.finish e).events = s.events := rfl
@[simp] theorem State.finish_outputs (s : State) (e : ErrCode) : (s.finish e).outputs = s.outputs := rfl
@[simp] theorem State.finish_draws (s : State) (e : ErrCode) : (s.finish e).draws = s.draws := rfl
@[simp] theorem State.finish_powerOn (s : State) (e : ErrCode) : (s.finish e).powerOn = s.powerOn := rfl
@[simp] theorem State.finish_mem (s : State) (e : ErrCode) (sp : Space) : (s.finish e).mem sp = s.mem sp := by
  cases sp <;> simp [State.mem]
@[simp] theorem State.finish_memByte (s : State) (e : ErrCode) (sp : Space) (off : Nat) :
    (s.finish e).memByte sp off = s.memByte sp off := by simp [State.memByte]

/-! ### drive -/

@[simp] theorem State.drive_outputs (s : State) (o : Output) : (s.drive o).outputs = o :: s.outputs := rfl
@[simp] theorem State.drive_ctrl (s : State) (o : Output) : (s.drive o).ctrl = s.ctrl := rfl
@[simp] theorem State.drive_status (s : State) (o : Output) : (s.drive o).status = s.status := rfl
@[simp] theorem State.drive_result (s : State) (o : Output) : (s.drive o).result = s.result := rfl
@[simp] theorem State.drive_cfg (s : State) (o : Output) : (s.drive o).cfg = s.cfg := rfl
@[simp] theorem State.drive_active (s : State) (o : Output) : (s.drive o).active = s.active := rfl
@[simp] theorem State.drive_consts (s : State) (o : Output) : (s.drive o).consts = s.consts := rfl
@[simp] theorem State.drive_spm (s : State) (o : Output) : (s.drive o).spm = s.spm := rfl
@[simp] theorem State.drive_slotBytes (s : State) (o : Output) : (s.drive o).slotBytes = s.slotBytes := rfl
@[simp] theorem State.drive_w (s : State) (o : Output) : (s.drive o).w = s.w := rfl
@[simp] theorem State.drive_r (s : State) (o : Output) : (s.drive o).r = s.r := rfl
@[simp] theorem State.drive_wc (s : State) (o : Output) : (s.drive o).wc = s.wc := rfl
@[simp] theorem State.drive_armed (s : State) (o : Output) : (s.drive o).armed = s.armed := rfl
@[simp] theorem State.drive_completions (s : State) (o : Output) : (s.drive o).completions = s.completions := rfl
@[simp] theorem State.drive_filter (s : State) (o : Output) : (s.drive o).filter = s.filter := rfl
@[simp] theorem State.drive_sequencer (s : State) (o : Output) : (s.drive o).sequencer = s.sequencer := rfl
@[simp] theorem State.drive_ring (s : State) (o : Output) : (s.drive o).ring = s.ring := rfl
@[simp] theorem State.drive_scratch (s : State) (o : Output) : (s.drive o).scratch = s.scratch := rfl
@[simp] theorem State.drive_pcm (s : State) (o : Output) : (s.drive o).pcm = s.pcm := rfl
@[simp] theorem State.drive_pins (s : State) (o : Output) : (s.drive o).pins = s.pins := rfl
@[simp] theorem State.drive_events (s : State) (o : Output) : (s.drive o).events = s.events := rfl
@[simp] theorem State.drive_draws (s : State) (o : Output) : (s.drive o).draws = s.draws := rfl
@[simp] theorem State.drive_powerOn (s : State) (o : Output) : (s.drive o).powerOn = s.powerOn := rfl
@[simp] theorem State.drive_mem (s : State) (o : Output) (sp : Space) : (s.drive o).mem sp = s.mem sp := by
  cases sp <;> simp [State.mem]
@[simp] theorem State.drive_memByte (s : State) (o : Output) (sp : Space) (off : Nat) :
    (s.drive o).memByte sp off = s.memByte sp off := by simp [State.memByte]

/-! ### tick -/

@[simp] theorem State.tick_draws (s : State) : s.tick.draws = s.draws + 1 := rfl
@[simp] theorem State.tick_ctrl (s : State) : s.tick.ctrl = s.ctrl := rfl
@[simp] theorem State.tick_status (s : State) : s.tick.status = s.status := rfl
@[simp] theorem State.tick_result (s : State) : s.tick.result = s.result := rfl
@[simp] theorem State.tick_cfg (s : State) : s.tick.cfg = s.cfg := rfl
@[simp] theorem State.tick_active (s : State) : s.tick.active = s.active := rfl
@[simp] theorem State.tick_consts (s : State) : s.tick.consts = s.consts := rfl
@[simp] theorem State.tick_spm (s : State) : s.tick.spm = s.spm := rfl
@[simp] theorem State.tick_slotBytes (s : State) : s.tick.slotBytes = s.slotBytes := rfl
@[simp] theorem State.tick_w (s : State) : s.tick.w = s.w := rfl
@[simp] theorem State.tick_r (s : State) : s.tick.r = s.r := rfl
@[simp] theorem State.tick_wc (s : State) : s.tick.wc = s.wc := rfl
@[simp] theorem State.tick_armed (s : State) : s.tick.armed = s.armed := rfl
@[simp] theorem State.tick_completions (s : State) : s.tick.completions = s.completions := rfl
@[simp] theorem State.tick_filter (s : State) : s.tick.filter = s.filter := rfl
@[simp] theorem State.tick_sequencer (s : State) : s.tick.sequencer = s.sequencer := rfl
@[simp] theorem State.tick_ring (s : State) : s.tick.ring = s.ring := rfl
@[simp] theorem State.tick_scratch (s : State) : s.tick.scratch = s.scratch := rfl
@[simp] theorem State.tick_pcm (s : State) : s.tick.pcm = s.pcm := rfl
@[simp] theorem State.tick_pins (s : State) : s.tick.pins = s.pins := rfl
@[simp] theorem State.tick_events (s : State) : s.tick.events = s.events := rfl
@[simp] theorem State.tick_outputs (s : State) : s.tick.outputs = s.outputs := rfl
@[simp] theorem State.tick_powerOn (s : State) : s.tick.powerOn = s.powerOn := rfl
@[simp] theorem State.tick_mem (s : State) (sp : Space) : s.tick.mem sp = s.mem sp := by
  cases sp <;> simp [State.mem]
@[simp] theorem State.tick_memByte (s : State) (sp : Space) (off : Nat) :
    s.tick.memByte sp off = s.memByte sp off := by simp [State.memByte]

/-! ### setFilter -/

@[simp] theorem State.setFilter_filter (s : State) (c : Nat) (f : FilterState) :
    (s.setFilter c f).filter = s.filter.setIfInBounds c f := rfl
@[simp] theorem State.setFilter_ctrl (s : State) (c : Nat) (f : FilterState) : (s.setFilter c f).ctrl = s.ctrl := rfl
@[simp] theorem State.setFilter_status (s : State) (c : Nat) (f : FilterState) : (s.setFilter c f).status = s.status :=
  rfl
@[simp] theorem State.setFilter_result (s : State) (c : Nat) (f : FilterState) : (s.setFilter c f).result = s.result :=
  rfl
@[simp] theorem State.setFilter_cfg (s : State) (c : Nat) (f : FilterState) : (s.setFilter c f).cfg = s.cfg := rfl
@[simp] theorem State.setFilter_active (s : State) (c : Nat) (f : FilterState) : (s.setFilter c f).active = s.active :=
  rfl
@[simp] theorem State.setFilter_consts (s : State) (c : Nat) (f : FilterState) : (s.setFilter c f).consts = s.consts :=
  rfl
@[simp] theorem State.setFilter_spm (s : State) (c : Nat) (f : FilterState) : (s.setFilter c f).spm = s.spm := rfl
@[simp] theorem State.setFilter_slotBytes (s : State) (c : Nat) (f : FilterState) : (s.setFilter c f).slotBytes = s.slotBytes :=
  rfl
@[simp] theorem State.setFilter_w (s : State) (c : Nat) (f : FilterState) : (s.setFilter c f).w = s.w := rfl
@[simp] theorem State.setFilter_r (s : State) (c : Nat) (f : FilterState) : (s.setFilter c f).r = s.r := rfl
@[simp] theorem State.setFilter_wc (s : State) (c : Nat) (f : FilterState) : (s.setFilter c f).wc = s.wc := rfl
@[simp] theorem State.setFilter_armed (s : State) (c : Nat) (f : FilterState) : (s.setFilter c f).armed = s.armed :=
  rfl
@[simp] theorem State.setFilter_completions (s : State) (c : Nat) (f : FilterState) : (s.setFilter c f).completions = s.completions :=
  rfl
@[simp] theorem State.setFilter_sequencer (s : State) (c : Nat) (f : FilterState) : (s.setFilter c f).sequencer = s.sequencer :=
  rfl
@[simp] theorem State.setFilter_ring (s : State) (c : Nat) (f : FilterState) : (s.setFilter c f).ring = s.ring := rfl
@[simp] theorem State.setFilter_scratch (s : State) (c : Nat) (f : FilterState) : (s.setFilter c f).scratch = s.scratch :=
  rfl
@[simp] theorem State.setFilter_pcm (s : State) (c : Nat) (f : FilterState) : (s.setFilter c f).pcm = s.pcm := rfl
@[simp] theorem State.setFilter_pins (s : State) (c : Nat) (f : FilterState) : (s.setFilter c f).pins = s.pins := rfl
@[simp] theorem State.setFilter_events (s : State) (c : Nat) (f : FilterState) : (s.setFilter c f).events = s.events :=
  rfl
@[simp] theorem State.setFilter_outputs (s : State) (c : Nat) (f : FilterState) : (s.setFilter c f).outputs = s.outputs :=
  rfl
@[simp] theorem State.setFilter_draws (s : State) (c : Nat) (f : FilterState) : (s.setFilter c f).draws = s.draws :=
  rfl
@[simp] theorem State.setFilter_powerOn (s : State) (c : Nat) (f : FilterState) : (s.setFilter c f).powerOn = s.powerOn :=
  rfl
@[simp] theorem State.setFilter_mem (s : State) (c : Nat) (f : FilterState) (sp : Space) : (s.setFilter c f).mem sp = s.mem sp := by
  cases sp <;> simp [State.mem]
@[simp] theorem State.setFilter_memByte (s : State) (c : Nat) (f : FilterState) (sp : Space) (off : Nat) :
    (s.setFilter c f).memByte sp off = s.memByte sp off := by simp [State.memByte]

/-! ### arm -/

@[simp] theorem State.arm_outputs (s : State) (p : Transport) (n : Nat) :
    (s.arm p n).outputs = .arm p n (n * s.active.slotSize) s.active.slotSize :: s.outputs := rfl
@[simp] theorem State.arm_wc (s : State) (p : Transport) (n : Nat) :
    (s.arm p n).wc = s.wc.set p (BitVec.ofNat 8 n) := rfl
@[simp] theorem State.arm_armed (s : State) (p : Transport) (n : Nat) : (s.arm p n).armed = s.armed.set p true := rfl
@[simp] theorem State.arm_ctrl (s : State) (p : Transport) (n : Nat) : (s.arm p n).ctrl = s.ctrl := rfl
@[simp] theorem State.arm_status (s : State) (p : Transport) (n : Nat) : (s.arm p n).status = s.status := rfl
@[simp] theorem State.arm_result (s : State) (p : Transport) (n : Nat) : (s.arm p n).result = s.result := rfl
@[simp] theorem State.arm_cfg (s : State) (p : Transport) (n : Nat) : (s.arm p n).cfg = s.cfg := rfl
@[simp] theorem State.arm_active (s : State) (p : Transport) (n : Nat) : (s.arm p n).active = s.active := rfl
@[simp] theorem State.arm_consts (s : State) (p : Transport) (n : Nat) : (s.arm p n).consts = s.consts := rfl
@[simp] theorem State.arm_spm (s : State) (p : Transport) (n : Nat) : (s.arm p n).spm = s.spm := rfl
@[simp] theorem State.arm_slotBytes (s : State) (p : Transport) (n : Nat) : (s.arm p n).slotBytes = s.slotBytes := rfl
@[simp] theorem State.arm_w (s : State) (p : Transport) (n : Nat) : (s.arm p n).w = s.w := rfl
@[simp] theorem State.arm_r (s : State) (p : Transport) (n : Nat) : (s.arm p n).r = s.r := rfl
@[simp] theorem State.arm_completions (s : State) (p : Transport) (n : Nat) : (s.arm p n).completions = s.completions :=
  rfl
@[simp] theorem State.arm_filter (s : State) (p : Transport) (n : Nat) : (s.arm p n).filter = s.filter := rfl
@[simp] theorem State.arm_sequencer (s : State) (p : Transport) (n : Nat) : (s.arm p n).sequencer = s.sequencer := rfl
@[simp] theorem State.arm_ring (s : State) (p : Transport) (n : Nat) : (s.arm p n).ring = s.ring := rfl
@[simp] theorem State.arm_scratch (s : State) (p : Transport) (n : Nat) : (s.arm p n).scratch = s.scratch := rfl
@[simp] theorem State.arm_pcm (s : State) (p : Transport) (n : Nat) : (s.arm p n).pcm = s.pcm := rfl
@[simp] theorem State.arm_pins (s : State) (p : Transport) (n : Nat) : (s.arm p n).pins = s.pins := rfl
@[simp] theorem State.arm_events (s : State) (p : Transport) (n : Nat) : (s.arm p n).events = s.events := rfl
@[simp] theorem State.arm_draws (s : State) (p : Transport) (n : Nat) : (s.arm p n).draws = s.draws := rfl
@[simp] theorem State.arm_powerOn (s : State) (p : Transport) (n : Nat) : (s.arm p n).powerOn = s.powerOn := rfl
@[simp] theorem State.arm_mem (s : State) (p : Transport) (n : Nat) (sp : Space) : (s.arm p n).mem sp = s.mem sp := by
  cases sp <;> simp [State.mem]
@[simp] theorem State.arm_memByte (s : State) (p : Transport) (n : Nat) (sp : Space) (off : Nat) :
    (s.arm p n).memByte sp off = s.memByte sp off := by simp [State.memByte]

/-! ### disarm -/

@[simp] theorem State.disarm_outputs (s : State) (p : Transport) : (s.disarm p).outputs = .disarm p :: s.outputs := rfl
@[simp] theorem State.disarm_armed (s : State) (p : Transport) : (s.disarm p).armed = s.armed.set p false := rfl
@[simp] theorem State.disarm_ctrl (s : State) (p : Transport) : (s.disarm p).ctrl = s.ctrl := rfl
@[simp] theorem State.disarm_status (s : State) (p : Transport) : (s.disarm p).status = s.status := rfl
@[simp] theorem State.disarm_result (s : State) (p : Transport) : (s.disarm p).result = s.result := rfl
@[simp] theorem State.disarm_cfg (s : State) (p : Transport) : (s.disarm p).cfg = s.cfg := rfl
@[simp] theorem State.disarm_active (s : State) (p : Transport) : (s.disarm p).active = s.active := rfl
@[simp] theorem State.disarm_consts (s : State) (p : Transport) : (s.disarm p).consts = s.consts := rfl
@[simp] theorem State.disarm_spm (s : State) (p : Transport) : (s.disarm p).spm = s.spm := rfl
@[simp] theorem State.disarm_slotBytes (s : State) (p : Transport) : (s.disarm p).slotBytes = s.slotBytes := rfl
@[simp] theorem State.disarm_w (s : State) (p : Transport) : (s.disarm p).w = s.w := rfl
@[simp] theorem State.disarm_r (s : State) (p : Transport) : (s.disarm p).r = s.r := rfl
@[simp] theorem State.disarm_wc (s : State) (p : Transport) : (s.disarm p).wc = s.wc := rfl
@[simp] theorem State.disarm_completions (s : State) (p : Transport) : (s.disarm p).completions = s.completions := rfl
@[simp] theorem State.disarm_filter (s : State) (p : Transport) : (s.disarm p).filter = s.filter := rfl
@[simp] theorem State.disarm_sequencer (s : State) (p : Transport) : (s.disarm p).sequencer = s.sequencer := rfl
@[simp] theorem State.disarm_ring (s : State) (p : Transport) : (s.disarm p).ring = s.ring := rfl
@[simp] theorem State.disarm_scratch (s : State) (p : Transport) : (s.disarm p).scratch = s.scratch := rfl
@[simp] theorem State.disarm_pcm (s : State) (p : Transport) : (s.disarm p).pcm = s.pcm := rfl
@[simp] theorem State.disarm_pins (s : State) (p : Transport) : (s.disarm p).pins = s.pins := rfl
@[simp] theorem State.disarm_events (s : State) (p : Transport) : (s.disarm p).events = s.events := rfl
@[simp] theorem State.disarm_draws (s : State) (p : Transport) : (s.disarm p).draws = s.draws := rfl
@[simp] theorem State.disarm_powerOn (s : State) (p : Transport) : (s.disarm p).powerOn = s.powerOn := rfl
@[simp] theorem State.disarm_mem (s : State) (p : Transport) (sp : Space) : (s.disarm p).mem sp = s.mem sp := by
  cases sp <;> simp [State.mem]
@[simp] theorem State.disarm_memByte (s : State) (p : Transport) (sp : Space) (off : Nat) :
    (s.disarm p).memByte sp off = s.memByte sp off := by simp [State.memByte]

/-! ### clearFlags -/

@[simp] theorem State.clearFlags_inited (s : State) (v : Word) : (s.clearFlags v).status.inited = s.status.inited := rfl
@[simp] theorem State.clearFlags_running (s : State) (v : Word) : (s.clearFlags v).status.running = s.status.running := rfl
@[simp] theorem State.clearFlags_err (s : State) (v : Word) : (s.clearFlags v).status.err = s.status.err := rfl
@[simp] theorem State.clearFlags_readyPend (s : State) (v : Word) :
    (s.clearFlags v).status.readyPend = (s.status.readyPend && !v.getLsbD 3) := rfl
@[simp] theorem State.clearFlags_collide (s : State) (v : Word) :
    (s.clearFlags v).status.collide = (s.status.collide && !v.getLsbD 4) := rfl
@[simp] theorem State.clearFlags_dropped (s : State) (v : Word) :
    (s.clearFlags v).status.dropped = (s.status.dropped && !v.getLsbD 5) := rfl
@[simp] theorem State.clearFlags_ctrl (s : State) (v : Word) : (s.clearFlags v).ctrl = s.ctrl := rfl
@[simp] theorem State.clearFlags_result (s : State) (v : Word) : (s.clearFlags v).result = s.result := rfl
@[simp] theorem State.clearFlags_cfg (s : State) (v : Word) : (s.clearFlags v).cfg = s.cfg := rfl
@[simp] theorem State.clearFlags_active (s : State) (v : Word) : (s.clearFlags v).active = s.active := rfl
@[simp] theorem State.clearFlags_consts (s : State) (v : Word) : (s.clearFlags v).consts = s.consts := rfl
@[simp] theorem State.clearFlags_spm (s : State) (v : Word) : (s.clearFlags v).spm = s.spm := rfl
@[simp] theorem State.clearFlags_slotBytes (s : State) (v : Word) : (s.clearFlags v).slotBytes = s.slotBytes := rfl
@[simp] theorem State.clearFlags_w (s : State) (v : Word) : (s.clearFlags v).w = s.w := rfl
@[simp] theorem State.clearFlags_r (s : State) (v : Word) : (s.clearFlags v).r = s.r := rfl
@[simp] theorem State.clearFlags_wc (s : State) (v : Word) : (s.clearFlags v).wc = s.wc := rfl
@[simp] theorem State.clearFlags_armed (s : State) (v : Word) : (s.clearFlags v).armed = s.armed := rfl
@[simp] theorem State.clearFlags_completions (s : State) (v : Word) : (s.clearFlags v).completions = s.completions :=
  rfl
@[simp] theorem State.clearFlags_filter (s : State) (v : Word) : (s.clearFlags v).filter = s.filter := rfl
@[simp] theorem State.clearFlags_sequencer (s : State) (v : Word) : (s.clearFlags v).sequencer = s.sequencer := rfl
@[simp] theorem State.clearFlags_ring (s : State) (v : Word) : (s.clearFlags v).ring = s.ring := rfl
@[simp] theorem State.clearFlags_scratch (s : State) (v : Word) : (s.clearFlags v).scratch = s.scratch := rfl
@[simp] theorem State.clearFlags_pcm (s : State) (v : Word) : (s.clearFlags v).pcm = s.pcm := rfl
@[simp] theorem State.clearFlags_pins (s : State) (v : Word) : (s.clearFlags v).pins = s.pins := rfl
@[simp] theorem State.clearFlags_events (s : State) (v : Word) : (s.clearFlags v).events = s.events := rfl
@[simp] theorem State.clearFlags_outputs (s : State) (v : Word) : (s.clearFlags v).outputs = s.outputs := rfl
@[simp] theorem State.clearFlags_draws (s : State) (v : Word) : (s.clearFlags v).draws = s.draws := rfl
@[simp] theorem State.clearFlags_powerOn (s : State) (v : Word) : (s.clearFlags v).powerOn = s.powerOn := rfl
@[simp] theorem State.clearFlags_mem (s : State) (v : Word) (sp : Space) : (s.clearFlags v).mem sp = s.mem sp := by
  cases sp <;> simp [State.mem]
@[simp] theorem State.clearFlags_memByte (s : State) (v : Word) (sp : Space) (off : Nat) :
    (s.clearFlags v).memByte sp off = s.memByte sp off := by simp [State.memByte]

/-! ### dropCommand -/

@[simp] theorem State.dropCommand_status (s : State) : s.dropCommand.status = { s.status with dropped := true } := rfl
@[simp] theorem State.dropCommand_ctrl (s : State) : s.dropCommand.ctrl = s.ctrl := rfl
@[simp] theorem State.dropCommand_result (s : State) : s.dropCommand.result = s.result := rfl
@[simp] theorem State.dropCommand_cfg (s : State) : s.dropCommand.cfg = s.cfg := rfl
@[simp] theorem State.dropCommand_active (s : State) : s.dropCommand.active = s.active := rfl
@[simp] theorem State.dropCommand_consts (s : State) : s.dropCommand.consts = s.consts := rfl
@[simp] theorem State.dropCommand_spm (s : State) : s.dropCommand.spm = s.spm := rfl
@[simp] theorem State.dropCommand_slotBytes (s : State) : s.dropCommand.slotBytes = s.slotBytes := rfl
@[simp] theorem State.dropCommand_w (s : State) : s.dropCommand.w = s.w := rfl
@[simp] theorem State.dropCommand_r (s : State) : s.dropCommand.r = s.r := rfl
@[simp] theorem State.dropCommand_wc (s : State) : s.dropCommand.wc = s.wc := rfl
@[simp] theorem State.dropCommand_armed (s : State) : s.dropCommand.armed = s.armed := rfl
@[simp] theorem State.dropCommand_completions (s : State) : s.dropCommand.completions = s.completions := rfl
@[simp] theorem State.dropCommand_filter (s : State) : s.dropCommand.filter = s.filter := rfl
@[simp] theorem State.dropCommand_sequencer (s : State) : s.dropCommand.sequencer = s.sequencer := rfl
@[simp] theorem State.dropCommand_ring (s : State) : s.dropCommand.ring = s.ring := rfl
@[simp] theorem State.dropCommand_scratch (s : State) : s.dropCommand.scratch = s.scratch := rfl
@[simp] theorem State.dropCommand_pcm (s : State) : s.dropCommand.pcm = s.pcm := rfl
@[simp] theorem State.dropCommand_pins (s : State) : s.dropCommand.pins = s.pins := rfl
@[simp] theorem State.dropCommand_events (s : State) : s.dropCommand.events = s.events := rfl
@[simp] theorem State.dropCommand_outputs (s : State) : s.dropCommand.outputs = s.outputs := rfl
@[simp] theorem State.dropCommand_draws (s : State) : s.dropCommand.draws = s.draws := rfl
@[simp] theorem State.dropCommand_powerOn (s : State) : s.dropCommand.powerOn = s.powerOn := rfl
@[simp] theorem State.dropCommand_mem (s : State) (sp : Space) : s.dropCommand.mem sp = s.mem sp := by
  cases sp <;> simp [State.mem]
@[simp] theorem State.dropCommand_memByte (s : State) (sp : Space) (off : Nat) :
    s.dropCommand.memByte sp off = s.memByte sp off := by simp [State.memByte]

/-! ### notify -/

@[simp] theorem State.notify_status (s : State) : s.notify.status = { s.status with readyPend := true } := rfl
@[simp] theorem State.notify_completions (s : State) : s.notify.completions = s.completions + 1 := rfl
@[simp] theorem State.notify_ctrl (s : State) : s.notify.ctrl = s.ctrl := rfl
@[simp] theorem State.notify_result (s : State) : s.notify.result = s.result := rfl
@[simp] theorem State.notify_cfg (s : State) : s.notify.cfg = s.cfg := rfl
@[simp] theorem State.notify_active (s : State) : s.notify.active = s.active := rfl
@[simp] theorem State.notify_consts (s : State) : s.notify.consts = s.consts := rfl
@[simp] theorem State.notify_spm (s : State) : s.notify.spm = s.spm := rfl
@[simp] theorem State.notify_slotBytes (s : State) : s.notify.slotBytes = s.slotBytes := rfl
@[simp] theorem State.notify_w (s : State) : s.notify.w = s.w := rfl
@[simp] theorem State.notify_r (s : State) : s.notify.r = s.r := rfl
@[simp] theorem State.notify_wc (s : State) : s.notify.wc = s.wc := rfl
@[simp] theorem State.notify_armed (s : State) : s.notify.armed = s.armed := rfl
@[simp] theorem State.notify_filter (s : State) : s.notify.filter = s.filter := rfl
@[simp] theorem State.notify_sequencer (s : State) : s.notify.sequencer = s.sequencer := rfl
@[simp] theorem State.notify_ring (s : State) : s.notify.ring = s.ring := rfl
@[simp] theorem State.notify_scratch (s : State) : s.notify.scratch = s.scratch := rfl
@[simp] theorem State.notify_pcm (s : State) : s.notify.pcm = s.pcm := rfl
@[simp] theorem State.notify_pins (s : State) : s.notify.pins = s.pins := rfl
@[simp] theorem State.notify_events (s : State) : s.notify.events = s.events := rfl
@[simp] theorem State.notify_outputs (s : State) : s.notify.outputs = s.outputs := rfl
@[simp] theorem State.notify_draws (s : State) : s.notify.draws = s.draws := rfl
@[simp] theorem State.notify_powerOn (s : State) : s.notify.powerOn = s.powerOn := rfl
@[simp] theorem State.notify_mem (s : State) (sp : Space) : s.notify.mem sp = s.mem sp := by
  cases sp <;> simp [State.mem]
@[simp] theorem State.notify_memByte (s : State) (sp : Space) (off : Nat) :
    s.notify.memByte sp off = s.memByte sp off := by simp [State.memByte]

/-! ### accept -/

@[simp] theorem State.accept_sequencer (s : State) (x : Word) :
    (s.accept x).sequencer = .busy x ⟨s.w, s.slotReadBy s.w x, s.pins, s.ring, []⟩ := rfl
@[simp] theorem State.accept_ctrl (s : State) (x : Word) : (s.accept x).ctrl = s.ctrl := rfl
@[simp] theorem State.accept_status (s : State) (x : Word) : (s.accept x).status = s.status := rfl
@[simp] theorem State.accept_result (s : State) (x : Word) : (s.accept x).result = s.result := rfl
@[simp] theorem State.accept_cfg (s : State) (x : Word) : (s.accept x).cfg = s.cfg := rfl
@[simp] theorem State.accept_active (s : State) (x : Word) : (s.accept x).active = s.active := rfl
@[simp] theorem State.accept_consts (s : State) (x : Word) : (s.accept x).consts = s.consts := rfl
@[simp] theorem State.accept_spm (s : State) (x : Word) : (s.accept x).spm = s.spm := rfl
@[simp] theorem State.accept_slotBytes (s : State) (x : Word) : (s.accept x).slotBytes = s.slotBytes := rfl
@[simp] theorem State.accept_w (s : State) (x : Word) : (s.accept x).w = s.w := rfl
@[simp] theorem State.accept_r (s : State) (x : Word) : (s.accept x).r = s.r := rfl
@[simp] theorem State.accept_wc (s : State) (x : Word) : (s.accept x).wc = s.wc := rfl
@[simp] theorem State.accept_armed (s : State) (x : Word) : (s.accept x).armed = s.armed := rfl
@[simp] theorem State.accept_completions (s : State) (x : Word) : (s.accept x).completions = s.completions := rfl
@[simp] theorem State.accept_filter (s : State) (x : Word) : (s.accept x).filter = s.filter := rfl
@[simp] theorem State.accept_ring (s : State) (x : Word) : (s.accept x).ring = s.ring := rfl
@[simp] theorem State.accept_scratch (s : State) (x : Word) : (s.accept x).scratch = s.scratch := rfl
@[simp] theorem State.accept_pcm (s : State) (x : Word) : (s.accept x).pcm = s.pcm := rfl
@[simp] theorem State.accept_pins (s : State) (x : Word) : (s.accept x).pins = s.pins := rfl
@[simp] theorem State.accept_events (s : State) (x : Word) : (s.accept x).events = s.events := rfl
@[simp] theorem State.accept_outputs (s : State) (x : Word) : (s.accept x).outputs = s.outputs := rfl
@[simp] theorem State.accept_draws (s : State) (x : Word) : (s.accept x).draws = s.draws := rfl
@[simp] theorem State.accept_powerOn (s : State) (x : Word) : (s.accept x).powerOn = s.powerOn := rfl
@[simp] theorem State.accept_mem (s : State) (x : Word) (sp : Space) : (s.accept x).mem sp = s.mem sp := by
  cases sp <;> simp [State.mem]
@[simp] theorem State.accept_memByte (s : State) (x : Word) (sp : Space) (off : Nat) :
    (s.accept x).memByte sp off = s.memByte sp off := by simp [State.memByte]

/-! ### setMem -/

@[simp] theorem State.setMem_mem (s : State) (sp : Space) (m : Memory) : (s.setMem sp m).mem sp = m := by cases sp <;> rfl
theorem State.setMem_mem_of_ne (s : State) {sp sp' : Space} (m : Memory) (h : sp' ≠ sp) :
    (s.setMem sp m).mem sp' = s.mem sp' := by cases sp <;> cases sp' <;> first | rfl | exact absurd rfl h
@[simp] theorem State.setMem_ctrl (s : State) (sp : Space) (m : Memory) : (s.setMem sp m).ctrl = s.ctrl :=
  by cases sp <;> rfl
@[simp] theorem State.setMem_status (s : State) (sp : Space) (m : Memory) : (s.setMem sp m).status = s.status :=
  by cases sp <;> rfl
@[simp] theorem State.setMem_result (s : State) (sp : Space) (m : Memory) : (s.setMem sp m).result = s.result :=
  by cases sp <;> rfl
@[simp] theorem State.setMem_cfg (s : State) (sp : Space) (m : Memory) : (s.setMem sp m).cfg = s.cfg :=
  by cases sp <;> rfl
@[simp] theorem State.setMem_active (s : State) (sp : Space) (m : Memory) : (s.setMem sp m).active = s.active :=
  by cases sp <;> rfl
@[simp] theorem State.setMem_consts (s : State) (sp : Space) (m : Memory) : (s.setMem sp m).consts = s.consts :=
  by cases sp <;> rfl
@[simp] theorem State.setMem_spm (s : State) (sp : Space) (m : Memory) : (s.setMem sp m).spm = s.spm :=
  by cases sp <;> rfl
@[simp] theorem State.setMem_slotBytes (s : State) (sp : Space) (m : Memory) : (s.setMem sp m).slotBytes = s.slotBytes :=
  by cases sp <;> rfl
@[simp] theorem State.setMem_w (s : State) (sp : Space) (m : Memory) : (s.setMem sp m).w = s.w := by cases sp <;> rfl
@[simp] theorem State.setMem_r (s : State) (sp : Space) (m : Memory) : (s.setMem sp m).r = s.r := by cases sp <;> rfl
@[simp] theorem State.setMem_wc (s : State) (sp : Space) (m : Memory) : (s.setMem sp m).wc = s.wc :=
  by cases sp <;> rfl
@[simp] theorem State.setMem_armed (s : State) (sp : Space) (m : Memory) : (s.setMem sp m).armed = s.armed :=
  by cases sp <;> rfl
@[simp] theorem State.setMem_completions (s : State) (sp : Space) (m : Memory) : (s.setMem sp m).completions = s.completions :=
  by cases sp <;> rfl
@[simp] theorem State.setMem_filter (s : State) (sp : Space) (m : Memory) : (s.setMem sp m).filter = s.filter :=
  by cases sp <;> rfl
@[simp] theorem State.setMem_sequencer (s : State) (sp : Space) (m : Memory) : (s.setMem sp m).sequencer = s.sequencer :=
  by cases sp <;> rfl
@[simp] theorem State.setMem_pins (s : State) (sp : Space) (m : Memory) : (s.setMem sp m).pins = s.pins :=
  by cases sp <;> rfl
@[simp] theorem State.setMem_events (s : State) (sp : Space) (m : Memory) : (s.setMem sp m).events = s.events :=
  by cases sp <;> rfl
@[simp] theorem State.setMem_outputs (s : State) (sp : Space) (m : Memory) : (s.setMem sp m).outputs = s.outputs :=
  by cases sp <;> rfl
@[simp] theorem State.setMem_draws (s : State) (sp : Space) (m : Memory) : (s.setMem sp m).draws = s.draws :=
  by cases sp <;> rfl
@[simp] theorem State.setMem_powerOn (s : State) (sp : Space) (m : Memory) : (s.setMem sp m).powerOn = s.powerOn :=
  by cases sp <;> rfl

/-! ### writeMem -/

@[simp] theorem State.writeMem_mem (s : State) (sp : Space) (o : Nat) (bs : List Byte) :
    (s.writeMem sp o bs).mem sp = (s.mem sp).writeRun o bs := by cases sp <;> rfl
theorem State.writeMem_mem_of_ne (s : State) {sp sp' : Space} (o : Nat) (bs : List Byte) (h : sp' ≠ sp) :
    (s.writeMem sp o bs).mem sp' = s.mem sp' := by cases sp <;> cases sp' <;> first | rfl | exact absurd rfl h
@[simp] theorem State.writeMem_scratch_ring (s : State) (o : Nat) (bs : List Byte) : (s.writeMem .scratch o bs).ring = s.ring := rfl
@[simp] theorem State.writeMem_scratch_pcm (s : State) (o : Nat) (bs : List Byte) : (s.writeMem .scratch o bs).pcm = s.pcm := rfl
@[simp] theorem State.writeMem_scratch (s : State) (o : Nat) (bs : List Byte) :
    (s.writeMem .scratch o bs).scratch = s.scratch.writeRun o bs := rfl
@[simp] theorem State.writeMem_pcm_ring (s : State) (o : Nat) (bs : List Byte) : (s.writeMem .pcm o bs).ring = s.ring := rfl
@[simp] theorem State.writeMem_pcm_scratch (s : State) (o : Nat) (bs : List Byte) : (s.writeMem .pcm o bs).scratch = s.scratch := rfl
@[simp] theorem State.writeMem_pcm (s : State) (o : Nat) (bs : List Byte) : (s.writeMem .pcm o bs).pcm = s.pcm.writeRun o bs := rfl
@[simp] theorem State.writeMem_ctrl (s : State) (sp : Space) (o : Nat) (bs : List Byte) : (s.writeMem sp o bs).ctrl = s.ctrl :=
  by cases sp <;> rfl
@[simp] theorem State.writeMem_status (s : State) (sp : Space) (o : Nat) (bs : List Byte) : (s.writeMem sp o bs).status = s.status :=
  by cases sp <;> rfl
@[simp] theorem State.writeMem_result (s : State) (sp : Space) (o : Nat) (bs : List Byte) : (s.writeMem sp o bs).result = s.result :=
  by cases sp <;> rfl
@[simp] theorem State.writeMem_cfg (s : State) (sp : Space) (o : Nat) (bs : List Byte) : (s.writeMem sp o bs).cfg = s.cfg :=
  by cases sp <;> rfl
@[simp] theorem State.writeMem_active (s : State) (sp : Space) (o : Nat) (bs : List Byte) : (s.writeMem sp o bs).active = s.active :=
  by cases sp <;> rfl
@[simp] theorem State.writeMem_consts (s : State) (sp : Space) (o : Nat) (bs : List Byte) : (s.writeMem sp o bs).consts = s.consts :=
  by cases sp <;> rfl
@[simp] theorem State.writeMem_spm (s : State) (sp : Space) (o : Nat) (bs : List Byte) : (s.writeMem sp o bs).spm = s.spm :=
  by cases sp <;> rfl
@[simp] theorem State.writeMem_slotBytes (s : State) (sp : Space) (o : Nat) (bs : List Byte) : (s.writeMem sp o bs).slotBytes = s.slotBytes :=
  by cases sp <;> rfl
@[simp] theorem State.writeMem_w (s : State) (sp : Space) (o : Nat) (bs : List Byte) : (s.writeMem sp o bs).w = s.w :=
  by cases sp <;> rfl
@[simp] theorem State.writeMem_r (s : State) (sp : Space) (o : Nat) (bs : List Byte) : (s.writeMem sp o bs).r = s.r :=
  by cases sp <;> rfl
@[simp] theorem State.writeMem_wc (s : State) (sp : Space) (o : Nat) (bs : List Byte) : (s.writeMem sp o bs).wc = s.wc :=
  by cases sp <;> rfl
@[simp] theorem State.writeMem_armed (s : State) (sp : Space) (o : Nat) (bs : List Byte) : (s.writeMem sp o bs).armed = s.armed :=
  by cases sp <;> rfl
@[simp] theorem State.writeMem_completions (s : State) (sp : Space) (o : Nat) (bs : List Byte) : (s.writeMem sp o bs).completions = s.completions :=
  by cases sp <;> rfl
@[simp] theorem State.writeMem_filter (s : State) (sp : Space) (o : Nat) (bs : List Byte) : (s.writeMem sp o bs).filter = s.filter :=
  by cases sp <;> rfl
@[simp] theorem State.writeMem_sequencer (s : State) (sp : Space) (o : Nat) (bs : List Byte) : (s.writeMem sp o bs).sequencer = s.sequencer :=
  by cases sp <;> rfl
@[simp] theorem State.writeMem_pins (s : State) (sp : Space) (o : Nat) (bs : List Byte) : (s.writeMem sp o bs).pins = s.pins :=
  by cases sp <;> rfl
@[simp] theorem State.writeMem_events (s : State) (sp : Space) (o : Nat) (bs : List Byte) : (s.writeMem sp o bs).events = s.events :=
  by cases sp <;> rfl
@[simp] theorem State.writeMem_outputs (s : State) (sp : Space) (o : Nat) (bs : List Byte) : (s.writeMem sp o bs).outputs = s.outputs :=
  by cases sp <;> rfl
@[simp] theorem State.writeMem_draws (s : State) (sp : Space) (o : Nat) (bs : List Byte) : (s.writeMem sp o bs).draws = s.draws :=
  by cases sp <;> rfl
@[simp] theorem State.writeMem_powerOn (s : State) (sp : Space) (o : Nat) (bs : List Byte) : (s.writeMem sp o bs).powerOn = s.powerOn :=
  by cases sp <;> rfl

/-! ### writeRing -/

@[simp] theorem State.writeRing_ring (s : State) (o : Nat) (b : Byte) : (s.writeRing o b).ring = s.ring.writeRun o [b] := by
  unfold State.writeRing; dsimp only; split <;> rfl
@[simp] theorem State.writeRing_busy (s : State) (o : Nat) (b : Byte) : (s.writeRing o b).busy = s.busy := by
  cases h : s.sequencer <;> simp [State.writeRing, State.busy, h, State.writeMem, State.setMem]
@[simp] theorem State.writeRing_ctrl (s : State) (o : Nat) (b : Byte) : (s.writeRing o b).ctrl = s.ctrl :=
  by unfold State.writeRing; dsimp only; split <;> rfl
@[simp] theorem State.writeRing_status (s : State) (o : Nat) (b : Byte) : (s.writeRing o b).status = s.status :=
  by unfold State.writeRing; dsimp only; split <;> rfl
@[simp] theorem State.writeRing_result (s : State) (o : Nat) (b : Byte) : (s.writeRing o b).result = s.result :=
  by unfold State.writeRing; dsimp only; split <;> rfl
@[simp] theorem State.writeRing_cfg (s : State) (o : Nat) (b : Byte) : (s.writeRing o b).cfg = s.cfg :=
  by unfold State.writeRing; dsimp only; split <;> rfl
@[simp] theorem State.writeRing_active (s : State) (o : Nat) (b : Byte) : (s.writeRing o b).active = s.active :=
  by unfold State.writeRing; dsimp only; split <;> rfl
@[simp] theorem State.writeRing_consts (s : State) (o : Nat) (b : Byte) : (s.writeRing o b).consts = s.consts :=
  by unfold State.writeRing; dsimp only; split <;> rfl
@[simp] theorem State.writeRing_spm (s : State) (o : Nat) (b : Byte) : (s.writeRing o b).spm = s.spm :=
  by unfold State.writeRing; dsimp only; split <;> rfl
@[simp] theorem State.writeRing_slotBytes (s : State) (o : Nat) (b : Byte) : (s.writeRing o b).slotBytes = s.slotBytes :=
  by unfold State.writeRing; dsimp only; split <;> rfl
@[simp] theorem State.writeRing_w (s : State) (o : Nat) (b : Byte) : (s.writeRing o b).w = s.w :=
  by unfold State.writeRing; dsimp only; split <;> rfl
@[simp] theorem State.writeRing_r (s : State) (o : Nat) (b : Byte) : (s.writeRing o b).r = s.r :=
  by unfold State.writeRing; dsimp only; split <;> rfl
@[simp] theorem State.writeRing_wc (s : State) (o : Nat) (b : Byte) : (s.writeRing o b).wc = s.wc :=
  by unfold State.writeRing; dsimp only; split <;> rfl
@[simp] theorem State.writeRing_armed (s : State) (o : Nat) (b : Byte) : (s.writeRing o b).armed = s.armed :=
  by unfold State.writeRing; dsimp only; split <;> rfl
@[simp] theorem State.writeRing_completions (s : State) (o : Nat) (b : Byte) : (s.writeRing o b).completions = s.completions :=
  by unfold State.writeRing; dsimp only; split <;> rfl
@[simp] theorem State.writeRing_filter (s : State) (o : Nat) (b : Byte) : (s.writeRing o b).filter = s.filter :=
  by unfold State.writeRing; dsimp only; split <;> rfl
@[simp] theorem State.writeRing_scratch (s : State) (o : Nat) (b : Byte) : (s.writeRing o b).scratch = s.scratch :=
  by unfold State.writeRing; dsimp only; split <;> rfl
@[simp] theorem State.writeRing_pcm (s : State) (o : Nat) (b : Byte) : (s.writeRing o b).pcm = s.pcm :=
  by unfold State.writeRing; dsimp only; split <;> rfl
@[simp] theorem State.writeRing_pins (s : State) (o : Nat) (b : Byte) : (s.writeRing o b).pins = s.pins :=
  by unfold State.writeRing; dsimp only; split <;> rfl
@[simp] theorem State.writeRing_events (s : State) (o : Nat) (b : Byte) : (s.writeRing o b).events = s.events :=
  by unfold State.writeRing; dsimp only; split <;> rfl
@[simp] theorem State.writeRing_outputs (s : State) (o : Nat) (b : Byte) : (s.writeRing o b).outputs = s.outputs :=
  by unfold State.writeRing; dsimp only; split <;> rfl
@[simp] theorem State.writeRing_draws (s : State) (o : Nat) (b : Byte) : (s.writeRing o b).draws = s.draws :=
  by unfold State.writeRing; dsimp only; split <;> rfl
@[simp] theorem State.writeRing_powerOn (s : State) (o : Nat) (b : Byte) : (s.writeRing o b).powerOn = s.powerOn :=
  by unfold State.writeRing; dsimp only; split <;> rfl

/-! ### collideCheck -/

@[simp] theorem State.collideCheck_inited (s : State) (n : BitVec 8) :
    (s.collideCheck n).status.inited = s.status.inited := by unfold State.collideCheck; split <;> (try split) <;> rfl
@[simp] theorem State.collideCheck_running (s : State) (n : BitVec 8) :
    (s.collideCheck n).status.running = s.status.running := by unfold State.collideCheck; split <;> (try split) <;> rfl
@[simp] theorem State.collideCheck_err (s : State) (n : BitVec 8) :
    (s.collideCheck n).status.err = s.status.err := by unfold State.collideCheck; split <;> (try split) <;> rfl
@[simp] theorem State.collideCheck_readyPend (s : State) (n : BitVec 8) :
    (s.collideCheck n).status.readyPend = s.status.readyPend := by unfold State.collideCheck; split <;> (try split) <;> rfl
@[simp] theorem State.collideCheck_ctrl (s : State) (n : BitVec 8) : (s.collideCheck n).ctrl = s.ctrl :=
  by unfold State.collideCheck; split <;> (try split) <;> rfl
@[simp] theorem State.collideCheck_result (s : State) (n : BitVec 8) : (s.collideCheck n).result = s.result :=
  by unfold State.collideCheck; split <;> (try split) <;> rfl
@[simp] theorem State.collideCheck_cfg (s : State) (n : BitVec 8) : (s.collideCheck n).cfg = s.cfg :=
  by unfold State.collideCheck; split <;> (try split) <;> rfl
@[simp] theorem State.collideCheck_active (s : State) (n : BitVec 8) : (s.collideCheck n).active = s.active :=
  by unfold State.collideCheck; split <;> (try split) <;> rfl
@[simp] theorem State.collideCheck_consts (s : State) (n : BitVec 8) : (s.collideCheck n).consts = s.consts :=
  by unfold State.collideCheck; split <;> (try split) <;> rfl
@[simp] theorem State.collideCheck_spm (s : State) (n : BitVec 8) : (s.collideCheck n).spm = s.spm :=
  by unfold State.collideCheck; split <;> (try split) <;> rfl
@[simp] theorem State.collideCheck_slotBytes (s : State) (n : BitVec 8) : (s.collideCheck n).slotBytes = s.slotBytes :=
  by unfold State.collideCheck; split <;> (try split) <;> rfl
@[simp] theorem State.collideCheck_w (s : State) (n : BitVec 8) : (s.collideCheck n).w = s.w :=
  by unfold State.collideCheck; split <;> (try split) <;> rfl
@[simp] theorem State.collideCheck_r (s : State) (n : BitVec 8) : (s.collideCheck n).r = s.r :=
  by unfold State.collideCheck; split <;> (try split) <;> rfl
@[simp] theorem State.collideCheck_wc (s : State) (n : BitVec 8) : (s.collideCheck n).wc = s.wc :=
  by unfold State.collideCheck; split <;> (try split) <;> rfl
@[simp] theorem State.collideCheck_armed (s : State) (n : BitVec 8) : (s.collideCheck n).armed = s.armed :=
  by unfold State.collideCheck; split <;> (try split) <;> rfl
@[simp] theorem State.collideCheck_completions (s : State) (n : BitVec 8) : (s.collideCheck n).completions = s.completions :=
  by unfold State.collideCheck; split <;> (try split) <;> rfl
@[simp] theorem State.collideCheck_filter (s : State) (n : BitVec 8) : (s.collideCheck n).filter = s.filter :=
  by unfold State.collideCheck; split <;> (try split) <;> rfl
@[simp] theorem State.collideCheck_sequencer (s : State) (n : BitVec 8) : (s.collideCheck n).sequencer = s.sequencer :=
  by unfold State.collideCheck; split <;> (try split) <;> rfl
@[simp] theorem State.collideCheck_ring (s : State) (n : BitVec 8) : (s.collideCheck n).ring = s.ring :=
  by unfold State.collideCheck; split <;> (try split) <;> rfl
@[simp] theorem State.collideCheck_scratch (s : State) (n : BitVec 8) : (s.collideCheck n).scratch = s.scratch :=
  by unfold State.collideCheck; split <;> (try split) <;> rfl
@[simp] theorem State.collideCheck_pcm (s : State) (n : BitVec 8) : (s.collideCheck n).pcm = s.pcm :=
  by unfold State.collideCheck; split <;> (try split) <;> rfl
@[simp] theorem State.collideCheck_pins (s : State) (n : BitVec 8) : (s.collideCheck n).pins = s.pins :=
  by unfold State.collideCheck; split <;> (try split) <;> rfl
@[simp] theorem State.collideCheck_events (s : State) (n : BitVec 8) : (s.collideCheck n).events = s.events :=
  by unfold State.collideCheck; split <;> (try split) <;> rfl
@[simp] theorem State.collideCheck_outputs (s : State) (n : BitVec 8) : (s.collideCheck n).outputs = s.outputs :=
  by unfold State.collideCheck; split <;> (try split) <;> rfl
@[simp] theorem State.collideCheck_draws (s : State) (n : BitVec 8) : (s.collideCheck n).draws = s.draws :=
  by unfold State.collideCheck; split <;> (try split) <;> rfl
@[simp] theorem State.collideCheck_powerOn (s : State) (n : BitVec 8) : (s.collideCheck n).powerOn = s.powerOn :=
  by unfold State.collideCheck; split <;> (try split) <;> rfl
@[simp] theorem State.collideCheck_mem (s : State) (n : BitVec 8) (sp : Space) : (s.collideCheck n).mem sp = s.mem sp := by
  cases sp <;> simp [State.mem]
@[simp] theorem State.collideCheck_memByte (s : State) (n : BitVec 8) (sp : Space) (off : Nat) :
    (s.collideCheck n).memByte sp off = s.memByte sp off := by simp [State.memByte]

/-! ### Responses and outcomes -/

@[simp] theorem State.respond_eq (s : State) (v : Word) : s.respond v = s.drive (.response v false) := rfl
@[simp] theorem State.busError_eq (s : State) : s.busError = s.drive (.response 0 true) := rfl
@[simp] theorem State.done_eq (s : State) : s.done = .next (s.finish .ok) := rfl
@[simp] theorem State.fail_eq (s : State) (e : ErrCode) : s.fail e = .next (s.finish e) := rfl

end Sys2Proof.Machine
end

