-- ==== Sys2Proof/Laws/Memory.lean ====
section
/-! SUPPORT. Storage: what a run of writes reads back as, the canonical form, and little-endian values. -/

namespace Sys2Proof.Machine

/-! ### Reading after writing -/

theorem Memory.read?_filter (m : Memory) (p : Nat → Bool) (a : Nat) :
    Memory.read? (m.filter fun cell => p cell.1) a = if p a then m.read? a else none := by
  unfold Memory.read?
  induction m with
  | nil => simp
  | cons cell rest ih =>
    obtain ⟨k, b⟩ := cell
    by_cases ha : a = k
    · subst ha
      by_cases hp : p a
      · simp [hp]
      · simp [hp, ih]
    · have hb : (a == k) = false := by simpa using ha
      by_cases hk : p k <;> simp [List.lookup_cons, hk, hb, ih]

theorem Memory.read?_run (bs : List Byte) (base a : Nat) :
    Memory.read? ((bs.zipIdx base).map fun p => (p.2, p.1)) a = if base ≤ a then bs[a - base]? else none := by
  unfold Memory.read?
  induction bs generalizing base with
  | nil => simp
  | cons b rest ih =>
    simp only [List.zipIdx_cons, List.map_cons, List.lookup_cons]
    by_cases ha : a = base
    · subst ha; simp
    · have hb : (a == base) = false := by simpa using ha
      rw [hb, ih]
      by_cases hlt : base ≤ a
      · have h1 : base + 1 ≤ a := by omega
        have h2 : a - base = (a - (base + 1)) + 1 := by omega
        simp [hlt, h1, h2]
      · have h1 : ¬ base + 1 ≤ a := by omega
        simp [hlt, h1]

theorem Memory.read?_append (m₁ m₂ : Memory) (a : Nat) :
    Memory.read? (m₁ ++ m₂) a = (m₁.read? a).or (m₂.read? a) := by
  unfold Memory.read?
  exact List.lookup_append

/-- What an address reads as after a run is written: inside the run its byte, outside what was there. -/
theorem Memory.read?_writeRun (m : Memory) (base : Nat) (bs : List Byte) (a : Nat) :
    (m.writeRun base bs).read? a =
      if base ≤ a ∧ a < base + bs.length then bs[a - base]? else m.read? a := by
  unfold Memory.writeRun
  rw [Memory.read?_append, Memory.read?_append, Memory.read?_run,
    Memory.read?_filter m (fun k => decide (k < base)),
    Memory.read?_filter m (fun k => decide (base + bs.length ≤ k))]
  by_cases h1 : base ≤ a
  · have h2 : ¬ a < base := by omega
    by_cases h3 : a < base + bs.length
    · have h4 : a - base < bs.length := by omega
      simp [h1, h2, h3, List.getElem?_eq_getElem h4]
    · have h4 : base + bs.length ≤ a := by omega
      have h5 : bs[a - base]? = none := List.getElem?_eq_none (by omega)
      simp [h1, h2, h3, h4, h5]
  · have h2 : a < base := by omega
    have h3 : ¬ base + bs.length ≤ a := by omega
    simp [h1, h2, h3]

theorem Memory.read?_writeRun_inside (m : Memory) {base : Nat} {bs : List Byte} {a : Nat} (h : base ≤ a)
    (h' : a - base < bs.length) : (m.writeRun base bs).read? a = some bs[a - base] := by
  rw [Memory.read?_writeRun, if_pos ⟨h, by omega⟩, List.getElem?_eq_getElem h']

theorem Memory.read?_writeRun_outside (m : Memory) {base : Nat} {bs : List Byte} {a : Nat}
    (h : a < base ∨ base + bs.length ≤ a) : (m.writeRun base bs).read? a = m.read? a := by
  rw [Memory.read?_writeRun, if_neg (by omega)]

/-! ### The canonical form -/

theorem Memory.risingFrom_mono {lo lo' : Nat} {m : Memory} (h : Memory.risingFrom lo m = true) (hl : lo' ≤ lo) :
    Memory.risingFrom lo' m = true := by
  cases m with
  | nil => rfl
  | cons cell rest =>
    simp only [Memory.risingFrom, Bool.and_eq_true, decide_eq_true_eq] at h ⊢
    exact ⟨by omega, h.2⟩

theorem Memory.risingFrom_le {lo : Nat} {m : Memory} (h : Memory.risingFrom lo m = true) :
    ∀ cell ∈ m, lo ≤ cell.1 := by
  induction m generalizing lo with
  | nil => simp
  | cons head rest ih =>
    simp only [Memory.risingFrom, Bool.and_eq_true, decide_eq_true_eq] at h
    intro cell hc
    rcases List.mem_cons.mp hc with rfl | hc
    · exact h.1
    · exact Nat.le_trans (by omega) (ih h.2 cell hc)

theorem Memory.risingFrom_filter {lo : Nat} {m : Memory} (p : Host.Cell → Bool)
    (h : Memory.risingFrom lo m = true) : Memory.risingFrom lo (m.filter p) = true := by
  induction m generalizing lo with
  | nil => rfl
  | cons head rest ih =>
    simp only [Memory.risingFrom, Bool.and_eq_true, decide_eq_true_eq] at h
    have hr := ih h.2
    by_cases hp : p head
    · rw [List.filter_cons_of_pos hp]
      simp only [Memory.risingFrom, Bool.and_eq_true, decide_eq_true_eq]
      exact ⟨h.1, hr⟩
    · rw [List.filter_cons_of_neg hp]
      exact Memory.risingFrom_mono hr (by omega)

theorem Memory.risingFrom_raise {lo hi : Nat} {m : Memory} (h : Memory.risingFrom lo m = true)
    (hm : ∀ cell ∈ m, hi ≤ cell.1) : Memory.risingFrom hi m = true := by
  cases m with
  | nil => rfl
  | cons cell rest =>
    simp only [Memory.risingFrom, Bool.and_eq_true, decide_eq_true_eq] at h ⊢
    exact ⟨hm cell (by simp), h.2⟩

theorem Memory.risingFrom_append {lo mid : Nat} {m₁ m₂ : Memory} (h₁ : Memory.risingFrom lo m₁ = true)
    (hm : ∀ cell ∈ m₁, cell.1 < mid) (h₂ : Memory.risingFrom mid m₂ = true) (hl : lo ≤ mid) :
    Memory.risingFrom lo (m₁ ++ m₂) = true := by
  induction m₁ generalizing lo with
  | nil => exact Memory.risingFrom_mono h₂ hl
  | cons head rest ih =>
    simp only [Memory.risingFrom, Bool.and_eq_true, decide_eq_true_eq] at h₁
    simp only [List.cons_append, Memory.risingFrom, Bool.and_eq_true, decide_eq_true_eq]
    have := hm head (by simp)
    exact ⟨h₁.1, ih h₁.2 (fun cell hc => hm cell (by simp [hc])) (by omega)⟩

theorem Memory.risingFrom_run (bs : List Byte) (base : Nat) :
    Memory.risingFrom base ((bs.zipIdx base).map fun p => (p.2, p.1)) = true := by
  induction bs generalizing base with
  | nil => rfl
  | cons b rest ih =>
    simp only [List.zipIdx_cons, List.map_cons, Memory.risingFrom, Bool.and_eq_true, decide_eq_true_eq]
    exact ⟨Nat.le_refl _, ih (base + 1)⟩

theorem Memory.run_bounds (bs : List Byte) (base : Nat) :
    ∀ cell ∈ (bs.zipIdx base).map (fun p => ((p.2, p.1) : Host.Cell)), base ≤ cell.1 ∧ cell.1 < base + bs.length := by
  intro cell hc
  obtain ⟨p, hp, rfl⟩ := List.mem_map.mp hc
  have h := List.mem_zipIdx hp
  exact ⟨h.1, h.2.1⟩

/-- A run of writes inside the space keeps the canonical form. -/
theorem Memory.wf_writeRun {size : Nat} {m : Memory} {base : Nat} {bs : List Byte} (h : m.wf size = true)
    (hb : base + bs.length ≤ size) : Memory.wf size (m.writeRun base bs) = true := by
  simp only [Memory.wf, Bool.and_eq_true, List.all_eq_true, decide_eq_true_eq] at h ⊢
  obtain ⟨hr, hs⟩ := h
  constructor
  · unfold Memory.writeRun
    refine Memory.risingFrom_append (mid := base + bs.length) ?_ ?_ ?_ (by omega)
    · refine Memory.risingFrom_append (mid := base) (Memory.risingFrom_filter _ hr) ?_
        (Memory.risingFrom_run bs base) (by omega)
      intro cell hc
      simpa using (List.mem_filter.mp hc).2
    · intro cell hc
      rcases List.mem_append.mp hc with hc | hc
      · have : cell.1 < base := by simpa using (List.mem_filter.mp hc).2
        omega
      · exact (Memory.run_bounds bs base cell hc).2
    · refine Memory.risingFrom_raise (Memory.risingFrom_filter _ hr) ?_
      intro cell hc
      simpa using (List.mem_filter.mp hc).2
  · intro cell hc
    unfold Memory.writeRun at hc
    rcases List.mem_append.mp hc with hc | hc
    · rcases List.mem_append.mp hc with hc | hc
      · exact hs cell (List.mem_filter.mp hc).1
      · have := (Memory.run_bounds bs base cell hc).2
        omega
    · exact hs cell (List.mem_filter.mp hc).1

theorem Memory.read?_none_of_lt {lo : Nat} {m : Memory} (h : Memory.risingFrom lo m = true) {a : Nat} (ha : a < lo) :
    m.read? a = none := by
  unfold Memory.read?
  rw [List.lookup_eq_none_iff]
  intro cell hc
  have := Memory.risingFrom_le h cell hc
  simp; omega

/-- Memories in canonical form that read alike are equal data. -/
theorem Memory.ext_read? {lo : Nat} {m₁ m₂ : Memory} (h₁ : Memory.risingFrom lo m₁ = true)
    (h₂ : Memory.risingFrom lo m₂ = true) (h : ∀ a, m₁.read? a = m₂.read? a) : m₁ = m₂ := by
  induction m₁ generalizing lo m₂ with
  | nil =>
    cases m₂ with
    | nil => rfl
    | cons cell rest => obtain ⟨k, b⟩ := cell; have := h k; simp [Memory.read?] at this
  | cons cell rest ih =>
    obtain ⟨k, b⟩ := cell
    cases m₂ with
    | nil => have := h k; simp [Memory.read?] at this
    | cons cell' rest' =>
      obtain ⟨k', b'⟩ := cell'
      simp only [Memory.risingFrom, Bool.and_eq_true, decide_eq_true_eq] at h₁ h₂
      have hk : k = k' := by
        rcases Nat.lt_trichotomy k k' with hlt | heq | hgt
        · have e := h k
          have n : Memory.read? ((k', b') :: rest') k = none :=
            Memory.read?_none_of_lt (lo := k') (by simp [Memory.risingFrom, h₂.2]) hlt
          rw [n] at e; simp [Memory.read?] at e
        · exact heq
        · have e := h k'
          have n : Memory.read? ((k, b) :: rest) k' = none :=
            Memory.read?_none_of_lt (lo := k) (by simp [Memory.risingFrom, h₁.2]) hgt
          rw [n] at e; simp [Memory.read?] at e
      subst hk
      have hb : b = b' := by have := h k; simpa [Memory.read?] using this
      subst hb
      congr 1
      refine ih h₁.2 h₂.2 fun a => ?_
      by_cases ha : a = k
      · subst ha
        rw [Memory.read?_none_of_lt h₁.2 (by omega), Memory.read?_none_of_lt h₂.2 (by omega)]
      · have hf : (a == k) = false := by simpa using ha
        have := h a
        simpa [Memory.read?, List.lookup_cons, hf] using this

/-! ### Bytes of a storage space -/

theorem State.memByte_writeMem_inside (s : State) (sp : Space) {base : Nat} {bs : List Byte} {o : Nat} (h : base ≤ o)
    (h' : o - base < bs.length) : (s.writeMem sp base bs).memByte sp o = bs[o - base] := by
  simp [State.memByte, Memory.read?_writeRun_inside _ h h']

theorem State.memByte_writeMem_outside (s : State) (sp : Space) {base : Nat} {bs : List Byte} {o : Nat}
    (h : o < base ∨ base + bs.length ≤ o) : (s.writeMem sp base bs).memByte sp o = s.memByte sp o := by
  simp [State.memByte, Memory.read?_writeRun_outside _ h]

theorem State.memByte_writeMem_of_ne (s : State) {sp sp' : Space} (base : Nat) (bs : List Byte) (o : Nat)
    (h : sp' ≠ sp) : (s.writeMem sp base bs).memByte sp' o = s.memByte sp' o := by
  simp [State.memByte, State.writeMem_mem_of_ne s base bs h]

theorem State.memByte_congr {s t : State} {sp : Space} (hm : t.mem sp = s.mem sp) (hp : t.powerOn = s.powerOn)
    (o : Nat) : t.memByte sp o = s.memByte sp o := by
  simp [State.memByte, hm, hp]

/-! ### Little-endian values -/

@[simp] theorem leBytes_length (n v : Nat) : (leBytes n v).length = n := by simp [leBytes]

@[simp] theorem leBytes_getElem (n v i : Nat) (h : i < (leBytes n v).length) :
    (leBytes n v)[i] = BitVec.ofNat 8 (v >>> (8 * i)) := by simp [leBytes]

theorem leBytes_succ (n v : Nat) : leBytes (n + 1) v = BitVec.ofNat 8 v :: leBytes n (v / 256) := by
  simp only [leBytes, List.range_succ_eq_map, List.map_cons, List.map_map]
  congr 1
  apply List.map_congr_left
  intro i _
  have h1 : 8 * (i + 1) = 8 + 8 * i := by omega
  have h2 : v / 256 = v >>> 8 := by simp [Nat.shiftRight_eq_div_pow]
  simp only [Function.comp_apply, Nat.succ_eq_add_one, h1, h2, Nat.shiftRight_add]

/-- A value's low bytes stand for the value modulo 256^n. -/
theorem ofLeBytes_leBytes (n v : Nat) : ofLeBytes (leBytes n v) = v % 256 ^ n := by
  induction n generalizing v with
  | zero => simp [leBytes, ofLeBytes, Nat.mod_one]
  | succ n ih =>
    rw [leBytes_succ, ofLeBytes, ih, BitVec.toNat_ofNat, show 2 ^ 8 = 256 from rfl, Nat.pow_succ', Nat.mod_mul]

@[simp] theorem sampleBytes_length (v : Sample) : (sampleBytes v).length = 2 := by simp [sampleBytes]

theorem sample_ofLeBytes (v : Sample) : BitVec.ofNat 16 (ofLeBytes (sampleBytes v)) = v := by
  have h := v.isLt
  rw [sampleBytes, ofLeBytes_leBytes, Nat.mod_eq_of_lt (by simpa using h), BitVec.ofNat_toNat, BitVec.setWidth_eq]

end Sys2Proof.Machine
end

