-- ==== Sys2Proof/Laws/Ops.lean ====
section
/-! SUPPORT. The shared operations: RING writes and the race record, the running command, outcomes. -/

namespace Sys2Proof.Machine

/-! ### One RING byte -/

theorem State.writeRing_memByte (s : State) (off : Nat) (b : Byte) (o : Nat) :
    (s.writeRing off b).memByte .ring o = if o = off then b else s.memByte .ring o := by
  have hm : (s.writeRing off b).memByte .ring o = (s.writeMem .ring off [b]).memByte .ring o := by
    simp [State.memByte, State.mem, State.writeMem, State.setMem]
  rw [hm]
  by_cases h : o = off
  · subst h
    rw [State.memByte_writeMem_inside s .ring (Nat.le_refl o) (by simp)]
    simp
  · rw [if_neg h, State.memByte_writeMem_outside s .ring (by simp; omega)]

theorem State.writeRing_memByte_of_ne (s : State) (off : Nat) (b : Byte) {sp : Space} (h : sp ≠ .ring) (o : Nat) :
    (s.writeRing off b).memByte sp o = s.memByte sp o := by
  apply State.memByte_congr
  · cases sp <;> first | exact absurd rfl h | simp [State.mem]
  · simp

theorem State.writeRing_idle {s : State} (h : s.sequencer = .idle) (off : Nat) (b : Byte) :
    (s.writeRing off b).sequencer = .idle := by
  have h' : (s.writeMem .ring off [b]).sequencer = .idle := by simp [h]
  unfold State.writeRing; dsimp only; rw [h']; exact h'

theorem State.writeRing_sequencer {s : State} {cmd : Word} {wk : Work} (h : s.sequencer = .busy cmd wk) (off : Nat)
    (b : Byte) :
    (s.writeRing off b).sequencer = .busy cmd { wk with ringWrites := (off, b) :: wk.ringWrites } := by
  have h' : (s.writeMem .ring off [b]).sequencer = .busy cmd wk := by simp [h]
  unfold State.writeRing; dsimp only; rw [h']

/-! ### A run of RING bytes -/

theorem writeRingRun_field {α : Type} (g : State → α)
    (hg : ∀ (s : State) (o : Nat) (b : Byte), g (s.writeRing o b) = g s) (s : State) (o : Nat) (bs : List Byte) :
    g (s.writeRingRun o bs) = g s := by
  induction bs generalizing s o with
  | nil => rfl
  | cons b rest ih => rw [State.writeRingRun, ih, hg]

@[simp] theorem State.writeRingRun_ctrl (s : State) (o : Nat) (bs : List Byte) : (s.writeRingRun o bs).ctrl = s.ctrl :=
  writeRingRun_field (fun t => t.ctrl) (fun _ _ _ => by simp) s o bs
@[simp] theorem State.writeRingRun_status (s : State) (o : Nat) (bs : List Byte) : (s.writeRingRun o bs).status = s.status :=
  writeRingRun_field (fun t => t.status) (fun _ _ _ => by simp) s o bs
@[simp] theorem State.writeRingRun_result (s : State) (o : Nat) (bs : List Byte) : (s.writeRingRun o bs).result = s.result :=
  writeRingRun_field (fun t => t.result) (fun _ _ _ => by simp) s o bs
@[simp] theorem State.writeRingRun_cfg (s : State) (o : Nat) (bs : List Byte) : (s.writeRingRun o bs).cfg = s.cfg :=
  writeRingRun_field (fun t => t.cfg) (fun _ _ _ => by simp) s o bs
@[simp] theorem State.writeRingRun_active (s : State) (o : Nat) (bs : List Byte) : (s.writeRingRun o bs).active = s.active :=
  writeRingRun_field (fun t => t.active) (fun _ _ _ => by simp) s o bs
@[simp] theorem State.writeRingRun_consts (s : State) (o : Nat) (bs : List Byte) : (s.writeRingRun o bs).consts = s.consts :=
  writeRingRun_field (fun t => t.consts) (fun _ _ _ => by simp) s o bs
@[simp] theorem State.writeRingRun_spm (s : State) (o : Nat) (bs : List Byte) : (s.writeRingRun o bs).spm = s.spm :=
  writeRingRun_field (fun t => t.spm) (fun _ _ _ => by simp) s o bs
@[simp] theorem State.writeRingRun_slotBytes (s : State) (o : Nat) (bs : List Byte) : (s.writeRingRun o bs).slotBytes = s.slotBytes :=
  writeRingRun_field (fun t => t.slotBytes) (fun _ _ _ => by simp) s o bs
@[simp] theorem State.writeRingRun_w (s : State) (o : Nat) (bs : List Byte) : (s.writeRingRun o bs).w = s.w :=
  writeRingRun_field (fun t => t.w) (fun _ _ _ => by simp) s o bs
@[simp] theorem State.writeRingRun_r (s : State) (o : Nat) (bs : List Byte) : (s.writeRingRun o bs).r = s.r :=
  writeRingRun_field (fun t => t.r) (fun _ _ _ => by simp) s o bs
@[simp] theorem State.writeRingRun_wc (s : State) (o : Nat) (bs : List Byte) : (s.writeRingRun o bs).wc = s.wc :=
  writeRingRun_field (fun t => t.wc) (fun _ _ _ => by simp) s o bs
@[simp] theorem State.writeRingRun_armed (s : State) (o : Nat) (bs : List Byte) : (s.writeRingRun o bs).armed = s.armed :=
  writeRingRun_field (fun t => t.armed) (fun _ _ _ => by simp) s o bs
@[simp] theorem State.writeRingRun_completions (s : State) (o : Nat) (bs : List Byte) : (s.writeRingRun o bs).completions = s.completions :=
  writeRingRun_field (fun t => t.completions) (fun _ _ _ => by simp) s o bs
@[simp] theorem State.writeRingRun_filter (s : State) (o : Nat) (bs : List Byte) : (s.writeRingRun o bs).filter = s.filter :=
  writeRingRun_field (fun t => t.filter) (fun _ _ _ => by simp) s o bs
@[simp] theorem State.writeRingRun_scratch (s : State) (o : Nat) (bs : List Byte) : (s.writeRingRun o bs).scratch = s.scratch :=
  writeRingRun_field (fun t => t.scratch) (fun _ _ _ => by simp) s o bs
@[simp] theorem State.writeRingRun_pcm (s : State) (o : Nat) (bs : List Byte) : (s.writeRingRun o bs).pcm = s.pcm :=
  writeRingRun_field (fun t => t.pcm) (fun _ _ _ => by simp) s o bs
@[simp] theorem State.writeRingRun_pins (s : State) (o : Nat) (bs : List Byte) : (s.writeRingRun o bs).pins = s.pins :=
  writeRingRun_field (fun t => t.pins) (fun _ _ _ => by simp) s o bs
@[simp] theorem State.writeRingRun_events (s : State) (o : Nat) (bs : List Byte) : (s.writeRingRun o bs).events = s.events :=
  writeRingRun_field (fun t => t.events) (fun _ _ _ => by simp) s o bs
@[simp] theorem State.writeRingRun_outputs (s : State) (o : Nat) (bs : List Byte) : (s.writeRingRun o bs).outputs = s.outputs :=
  writeRingRun_field (fun t => t.outputs) (fun _ _ _ => by simp) s o bs
@[simp] theorem State.writeRingRun_draws (s : State) (o : Nat) (bs : List Byte) : (s.writeRingRun o bs).draws = s.draws :=
  writeRingRun_field (fun t => t.draws) (fun _ _ _ => by simp) s o bs
@[simp] theorem State.writeRingRun_powerOn (s : State) (o : Nat) (bs : List Byte) : (s.writeRingRun o bs).powerOn = s.powerOn :=
  writeRingRun_field (fun t => t.powerOn) (fun _ _ _ => by simp) s o bs

@[simp] theorem State.writeRingRun_busy (s : State) (o : Nat) (bs : List Byte) : (s.writeRingRun o bs).busy = s.busy :=
  writeRingRun_field State.busy (fun _ _ _ => by simp) s o bs

theorem State.writeRingRun_memByte (s : State) (off : Nat) (bs : List Byte) (o : Nat) :
    (s.writeRingRun off bs).memByte .ring o = if off ≤ o then bs[o - off]?.getD (s.memByte .ring o)
      else s.memByte .ring o := by
  induction bs generalizing s off with
  | nil => simp [State.writeRingRun]
  | cons b rest ih =>
    rw [State.writeRingRun, ih, State.writeRing_memByte]
    rcases Nat.lt_trichotomy o off with h | h | h
    · have h1 : ¬ off + 1 ≤ o := by omega
      have h2 : ¬ off ≤ o := by omega
      have h3 : o ≠ off := by omega
      simp [h1, h2, h3]
    · subst h; simp
    · have h1 : off + 1 ≤ o := by omega
      have h2 : off ≤ o := by omega
      have h3 : o ≠ off := by omega
      have h4 : o - off = (o - (off + 1)) + 1 := by omega
      simp [h1, h2, h3, h4]

theorem State.writeRingRun_idle {s : State} (h : s.sequencer = .idle) (o : Nat) (bs : List Byte) :
    (s.writeRingRun o bs).sequencer = .idle := by
  induction bs generalizing s o with
  | nil => exact h
  | cons b rest ih => exact ih (State.writeRing_idle h o b) _

/-- While a command runs, a run of RING writes joins its race record, newest first, and changes no other working value. -/
theorem State.writeRingRun_sequencer {s : State} {cmd : Word} {wk : Work} (h : s.sequencer = .busy cmd wk) (o : Nat)
    (bs : List Byte) : (s.writeRingRun o bs).sequencer =
      .busy cmd { wk with ringWrites := ((bs.zipIdx o).map (fun p => (p.2, p.1))).reverse ++ wk.ringWrites } := by
  induction bs generalizing s o wk with
  | nil => exact h
  | cons b rest ih => rw [State.writeRingRun, ih (State.writeRing_sequencer h o b)]; simp

/-- RING stays in canonical form under a run of writes inside it. -/
theorem State.wf_writeRingRun {s : State} {size o : Nat} {bs : List Byte} (h : s.ring.wf size = true)
    (hb : o + bs.length ≤ size) : (s.writeRingRun o bs).ring.wf size = true := by
  induction bs generalizing s o with
  | nil => exact h
  | cons b rest ih =>
    simp only [List.length_cons] at hb
    refine ih ?_ (by omega)
    rw [State.writeRing_ring]
    exact Memory.wf_writeRun h (by simp; omega)

/-! ### The running command -/

theorem State.busy_iff (s : State) : s.busy = true ↔ ∃ cmd wk, s.sequencer = .busy cmd wk := by
  unfold State.busy
  cases s.sequencer <;> simp

theorem State.busy_false_iff (s : State) : s.busy = false ↔ s.sequencer = .idle := by
  unfold State.busy
  cases s.sequencer <;> simp

theorem State.work_of_busy {s : State} {cmd : Word} {wk : Work} (h : s.sequencer = .busy cmd wk) : s.work = wk := by
  simp [State.work, h]

theorem State.running?_of_busy {s : State} {cmd : Word} {wk : Work} {i : Instr} (h : s.sequencer = .busy cmd wk)
    (hd : decode cmd = .ok i) : s.running? = some i := by
  simp [State.running?, h, hd, Except.toOption]

@[simp] theorem State.finish_busy (s : State) (e : ErrCode) : (s.finish e).busy = false := rfl

/-- What a RING read of a command depends on (R61). -/
theorem State.ringByte_congr {s t : State} (hs : t.sequencer = s.sequencer) (hr : t.ring = s.ring)
    (hw : t.w = s.w) (hi : t.pins = s.pins) (hp : t.powerOn = s.powerOn) (hd : t.draws = s.draws) (o : Nat) :
    t.ringByte o = s.ringByte o := by
  have : t.work = s.work := by simp [State.work, State.freshWork, hs, hr, hw, hi]
  simp [State.ringByte, State.racingWrites, State.ringAtAcceptByte, this, hp, hd]

/-- The count of steps changes no write. -/
theorem State.writeRing_tick (s : State) (o : Nat) (b : Byte) : s.tick.writeRing o b = (s.writeRing o b).tick := by
  unfold State.writeRing State.writeMem State.setMem State.tick
  cases s.sequencer <;> rfl

theorem State.writeRingRun_tick (s : State) (o : Nat) (bs : List Byte) :
    s.tick.writeRingRun o bs = (s.writeRingRun o bs).tick := by
  induction bs generalizing s o with
  | nil => rfl
  | cons b bs ih => simp only [State.writeRingRun]; rw [State.writeRing_tick, ih]

/-! ### Channels -/

theorem State.setFilter_filterAt (s : State) {c : Nat} (f : FilterState) (c' : Nat) (h : c < 4) :
    (s.setFilter c f).filterAt c' = if c' = c then f else s.filterAt c' := by
  simp only [State.filterAt, State.setFilter_filter, Vector.getElem?_setIfInBounds]
  by_cases hc : c' = c
  · subst hc; simp [h]
  · simp [hc, Ne.symm hc]

end Sys2Proof.Machine
end

