-- ==== Sys2Proof/Laws/Bus.lean ====
section
/-! SUPPORT. Host accesses: what a read can leave, and everything a write can do. -/

namespace Sys2Proof.Machine

/-! ### Addresses -/

theorem width_bytes_pos (w : Width) : 0 < w.bytes := by cases w <;> decide

/-- A storage window is named by an address inside it (R49). -/
theorem target_mem {a : Nat} {sp : Space} {off : Nat} (h : target a = .mem sp off) :
    (sp = .pcm ∧ 0x01000 ≤ a ∧ a < 0x05000 ∧ off = a - 0x01000) ∨
    (sp = .scratch ∧ 0x40000 ≤ a ∧ a < 0x60000 ∧ off = a - 0x40000) ∨
    (sp = .ring ∧ 0x80000 ≤ a ∧ off = a - 0x80000) := by
  unfold target at h
  split at h
  · split at h <;> cases h
  split at h
  · cases h; exact .inl ⟨rfl, by omega, by omega, rfl⟩
  split at h
  · cases h
  split at h
  · cases h; exact .inr (.inl ⟨rfl, by omega, by omega, rfl⟩)
  split at h
  · cases h
  · cases h; exact .inr (.inr ⟨rfl, by omega, rfl⟩)

theorem target_reg {a : Nat} {r : Reg} (h : target a = .reg r) : a < 0x01000 ∧ regAt a = some r := by
  unfold target at h
  split at h
  · split at h
    · rename_i hr; cases h; exact ⟨by omega, hr⟩
    · cases h
  split at h
  · cases h
  split at h
  · cases h
  split at h
  · cases h
  split at h <;> cases h

theorem target_ring {a : Nat} (h : 0x80000 ≤ a) : target a = .mem .ring (a - 0x80000) := by
  unfold target
  rw [if_neg (by omega), if_neg (by omega), if_neg (by omega), if_neg (by omega), if_neg (by omega)]

/-- A pair found by its key is in the list. -/
theorem mem_of_lookup {α β : Type} [BEq α] [LawfulBEq α] {l : List (α × β)} {a : α} {b : β}
    (h : List.lookup a l = some b) : (a, b) ∈ l := by
  induction l with
  | nil => cases h
  | cons p rest ih =>
    obtain ⟨k, c⟩ := p
    rw [List.lookup_cons] at h
    cases hk : a == k with
    | true => rw [hk] at h; cases h; rw [eq_of_beq hk]; exact List.mem_cons_self
    | false => rw [hk] at h; exact List.mem_cons_of_mem _ (ih h)

/-- A register is one of R21's table or of the FSTATE window (R41). -/
theorem regAt_some {a : Nat} {r : Reg} (h : regAt a = some r) :
    (a, r) ∈ regMap ∨ ∃ c f hi, r = .fstate c f hi := by
  unfold regAt at h
  split at h
  · exact .inl (mem_of_lookup h)
  · split at h
    · rw [Option.map_eq_some_iff] at h
      obtain ⟨fh, _, e⟩ := h
      exact .inr ⟨_, _, _, e.symm⟩
    · cases h

/-- The register of a channel's set stands inside that set (R41). -/
theorem regAt_fstate {a : Nat} {c : Fin 4} {f : FilterField} {hi : Bool} (h : regAt a = some (.fstate c f hi)) :
    0x100 + 0x40 * c.val ≤ a ∧ a < 0x140 + 0x40 * c.val := by
  unfold regAt at h
  split at h
  · have := mem_of_lookup h; simp [regMap] at this
  · split at h
    · rw [Option.map_eq_some_iff] at h
      obtain ⟨fh, _, e⟩ := h
      simp only [Reg.fstate.injEq] at e
      obtain ⟨rfl, -, -⟩ := e
      simp only [Fin.val_ofNat]
      omega
    · cases h

/-- What the data of a read depends on: the register, or the bytes, of its address. -/
theorem State.readData_congr {s t : State} {w : Width} {x : Nat}
    (hr : ∀ r, target x = .reg r → s.hostRegWord x r = t.hostRegWord x r)
    (hb : ∀ sp off, target x = .mem sp off → ∀ j < w.bytes,
      s.hostByte (x + j) sp (off + j) = t.hostByte (x + j) sp (off + j)) : s.readData w x = t.readData w x := by
  unfold State.readData
  split
  · split
    · rename_i r h; rw [hr r h]
    · rename_i sp off h
      unfold State.hostBytes
      congr 3
      exact List.map_congr_left fun j hj => hb sp off h j (by simpa using hj)
    · rfl
  · rfl

/-! ### Writes -/

/-- Everything a host write can do: `bus_error`, or one of the five writes that are allowed, at its own address, and
its response. -/
theorem State.hostWrite_cases (s : State) (w : Width) (a : BitVec 20) (v : Word) :
    s.hostWrite w a v = s.busError ∨
    ∃ t, s.hostWrite w a v = t.respond 0 ∧
      ((w = .word ∧ a = 0x000 ∧ t = { s with ctrl := Ctrl.ofWord v }) ∨
       (w = .word ∧ a = cmdAddr ∧ t = s.issue v) ∨
       (w = .word ∧ a = statusAddr ∧ t = s.clearFlags v) ∨
       (s.busy = false ∧ ∃ c, t = { s with cfg := c }) ∨
       (0x80000 ≤ a.toNat ∧ a.toNat - 0x80000 + w.bytes ≤ Config.ringBytesMax ∧
         t = s.writeRingRun (a.toNat - 0x80000) (leBytes w.bytes v.toNat))) := by
  have ha := a.isLt
  have named : ∀ {r : Reg} (n : Nat), n < 2 ^ 20 → regAt a.toNat = some r → (∀ m, (m, r) ∈ regMap → m = n) →
      (∀ c f hi, r ≠ .fstate c f hi) → a = BitVec.ofNat 20 n := by
    intro r n hn h hm hf
    rcases regAt_some h with h | ⟨c, f, hi, e⟩
    · apply BitVec.eq_of_toNat_eq; rw [hm _ h, BitVec.toNat_ofNat, Nat.mod_eq_of_lt hn]
    · exact absurd e (hf c f hi)
  unfold State.hostWrite
  cases hd : s.writeData w a.toNat v with
  | none => exact .inl rfl
  | some t =>
    refine .inr ⟨t, rfl, ?_⟩
    unfold State.writeData at hd
    split at hd
    case isFalse => cases hd
    rename_i hal
    split at hd
    · rename_i r ht
      have hr := (target_reg ht).2
      split at hd
      case isFalse => cases hd
      rename_i hw
      unfold State.writeReg at hd
      split at hd <;> first | (cases hd; done) | skip
      · cases hd; exact .inl ⟨hw, named 0 (by decide) hr (by simp [regMap]) (by simp), rfl⟩
      · cases hd; exact .inr (.inl ⟨hw, named 4 (by decide) hr (by simp [regMap]) (by simp), rfl⟩)
      · cases hd; exact .inr (.inr (.inl ⟨hw, named 8 (by decide) hr (by simp [regMap]) (by simp), rfl⟩))
      all_goals
        split at hd
        · cases hd
        · rename_i hb
          cases hd
          exact .inr (.inr (.inr (.inl ⟨by simpa using hb, _, rfl⟩)))
    · rename_i off ht
      cases hd
      rcases target_mem ht with ⟨h, _⟩ | ⟨h, _⟩ | ⟨_, h1, h2⟩
      · cases h
      · cases h
      · have hm : a.toNat % w.bytes = 0 := by simpa [aligned] using hal
        refine .inr (.inr (.inr (.inr ⟨h1, ?_, congrArg (fun o => s.writeRingRun o _) h2⟩)))
        unfold Config.ringBytesMax
        cases w <;> simp only [Width.bytes] at hm ⊢ <;> omega
    · cases hd
    · cases hd
    · cases hd

/-- A CMD write is dropped while BUSY and accepted otherwise (R109). -/
theorem State.issue_cases (s : State) (x : Word) :
    (s.busy = true ∧ s.issue x = s.dropCommand) ∨ (s.busy = false ∧ s.issue x = s.accept x) := by
  unfold State.issue
  cases s.busy <;> simp

/-- s_sel depends on the session, A and R (R104, R106). -/
theorem State.slotReadBy_congr {s t : State} (hi : t.status.inited = s.status.inited) (ha : t.active = s.active)
    (hr : t.r = s.r) (w : BitVec 8) (x : Word) : t.slotReadBy w x = s.slotReadBy w x := by
  unfold State.slotReadBy
  cases decode x with
  | error e => rfl
  | ok i => cases i <;> simp [State.slotRead, hi, ha, hr]

/-! ### The count of steps -/

theorem State.issue_tick (s : State) (x : Word) : s.tick.issue x = (s.issue x).tick := by
  have hb : s.tick.busy = s.busy := rfl
  rcases s.issue_cases x with ⟨h, e⟩ | ⟨h, e⟩ <;> rw [e]
  · rw [State.issue, hb, h]; rfl
  · rw [State.issue, hb, h]
    have : s.tick.slotReadBy s.w x = s.slotReadBy s.w x := State.slotReadBy_congr rfl rfl rfl _ _
    show (State.accept _ _) = _
    unfold State.accept
    show ({ s.tick with sequencer := .busy x { s.freshWork with sSel := s.tick.slotReadBy s.w x } } : State) = _
    rw [this]; rfl

theorem State.writeData_tick (s : State) (w : Width) (a : Nat) (v : Word) :
    s.tick.writeData w a v = (s.writeData w a v).map State.tick := by
  unfold State.writeData
  have hb : s.tick.busy = s.busy := rfl
  split
  · split
    · split
      · rename_i r _ _; cases r <;> simp only [State.writeReg, hb, Option.map, State.issue_tick] <;> (try rfl) <;>
          cases s.busy <;> rfl
      · rfl
    · simp [State.writeRingRun_tick]
    all_goals rfl
  · rfl

/-- A host write, and the count of its step (log 10). -/
theorem State.hostWrite_tick (s : State) (w : Width) (a : BitVec 20) (v : Word) :
    s.tick.hostWrite w a v = (s.hostWrite w a v).tick := by
  unfold State.hostWrite
  rw [State.writeData_tick]
  cases s.writeData w a.toNat v <;> rfl

end Sys2Proof.Machine
end

