-- ==== Sys2Proof/Laws/Decode.lean ====
section
/-! SUPPORT. Words, their bytes and their fields. -/

namespace Sys2Proof

/-- A word is what its four bytes stand for. -/
theorem wordOfBytes_bytesOfWord (w : Word) :
    wordOfBytes (w.extractLsb' 0 8) (w.extractLsb' 8 8) (w.extractLsb' 16 8) (w.extractLsb' 24 8) = w := by
  apply BitVec.eq_of_getLsbD_eq
  intro i hi
  simp only [wordOfBytes, BitVec.getLsbD_append, BitVec.getLsbD_extractLsb']
  by_cases h1 : i < 8
  · simp [h1]
  · by_cases h2 : i < 16
    · have h3 : i - 8 < 8 := by omega
      simp [h1, h3]; congr 1; omega
    · by_cases h4 : i < 24
      · have h3 : ¬ i - 8 < 8 := by omega
        have h5 : i - 8 - 8 < 8 := by omega
        simp [h1, h3, h5]; congr 1; omega
      · have h3 : ¬ i - 8 < 8 := by omega
        have h5 : ¬ i - 8 - 8 < 8 := by omega
        have h6 : i - 8 - 8 - 8 < 8 := by omega
        simp [h1, h3, h5, h6]; congr 1; omega

/-- The bytes of a word, followed by anything, decode as the word does. -/
theorem decodeBytes_bytesOfWord (w : Word) (rest : List Byte) :
    decodeBytes (bytesOfWord w ++ rest) = (decode w).map (·, rest) := by
  simp only [bytesOfWord, List.cons_append, List.nil_append, decodeBytes, wordOfBytes_bytesOfWord]

theorem tableWord_32 (n : Nat) : tableWord 32 n = BitVec.ofNat 32 n := by
  apply BitVec.eq_of_toNat_eq; simp [tableWord]

/-- The number a word of format C stands for. -/
theorem formatC_toNat {opc ch arg : Nat} (ho : opc < 256) (hc : ch < 4) (ha : arg < 65536) :
    (formatC opc ch arg).toNat = opc + 256 * ch + 65536 * arg := by
  have e1 : (BitVec.ofNat 32 opc).toNat = opc := by simp; omega
  have e2 : (BitVec.ofNat 32 ch <<< 8).toNat = 2 ^ 8 * ch := by
    simp [BitVec.toNat_shiftLeft, Nat.shiftLeft_eq]; omega
  have e3 : (BitVec.ofNat 32 arg <<< 16).toNat = 2 ^ 16 * arg := by
    simp [BitVec.toNat_shiftLeft, Nat.shiftLeft_eq]; omega
  have h1 : opc ||| 2 ^ 8 * ch = 2 ^ 8 * ch + opc := by
    rw [Nat.or_comm, ← Nat.two_pow_add_eq_or_of_lt (i := 8) (by omega)]
  have h2 : (2 ^ 8 * ch + opc) ||| 2 ^ 16 * arg = 2 ^ 16 * arg + (2 ^ 8 * ch + opc) := by
    rw [Nat.or_comm, ← Nat.two_pow_add_eq_or_of_lt (i := 16) (by omega)]
  rw [formatC, BitVec.toNat_or, BitVec.toNat_or, e1, e2, e3, h1, h2]
  omega

theorem fieldOpc_eq (w : Word) : fieldOpc w = w.toNat % 256 := by
  simp [fieldOpc, BitVec.extractLsb'_toNat]

theorem fieldCh_eq (w : Word) : fieldCh w = w.toNat / 256 % 4 := by
  simp [fieldCh, BitVec.extractLsb'_toNat, Nat.shiftRight_eq_div_pow]

theorem fieldRsv_eq (w : Word) : fieldRsv w = w.toNat / 1024 % 64 := by
  simp [fieldRsv, BitVec.extractLsb'_toNat, Nat.shiftRight_eq_div_pow]

theorem fieldArg_eq (w : Word) : fieldArg w = w.toNat / 65536 := by
  have := w.isLt
  simp [fieldArg, BitVec.extractLsb'_toNat, Nat.shiftRight_eq_div_pow]; omega

theorem fieldOpc_lt (w : Word) : fieldOpc w < 256 := by rw [fieldOpc_eq]; omega

theorem fieldCh_lt (w : Word) : fieldCh w < 4 := by rw [fieldCh_eq]; omega

theorem fieldRsv_lt (w : Word) : fieldRsv w < 64 := by rw [fieldRsv_eq]; omega

theorem fieldArg_lt (w : Word) : fieldArg w < 65536 := by
  have := w.isLt
  rw [fieldArg_eq]; omega

/-- A word is its four fields. -/
theorem toNat_eq_fields (w : Word) :
    w.toNat = fieldOpc w + 256 * fieldCh w + 1024 * fieldRsv w + 65536 * fieldArg w := by
  rw [fieldOpc_eq, fieldCh_eq, fieldRsv_eq, fieldArg_eq]; omega

/-- Masking with a low mask is reducing modulo a power of two. -/
theorem toNat_and_lowMask (w : Word) (k : Nat) (hk : k ≤ 32) :
    (w &&& BitVec.ofNat 32 (2 ^ k - 1)).toNat = w.toNat % 2 ^ k := by
  have h : 2 ^ k - 1 < 2 ^ 32 := by
    have := Nat.pow_le_pow_right (show 0 < 2 by omega) hk
    omega
  rw [BitVec.toNat_and, BitVec.toNat_ofNat, Nat.mod_eq_of_lt h, Nat.and_two_pow_sub_one_eq_mod]

/-! ### Selecting rows, field by field -/

/-- A word is its four fields, as bits. -/
theorem word_eq_append (w : Word) :
    w = w.extractLsb' 16 16 ++ w.extractLsb' 10 6 ++ w.extractLsb' 8 2 ++ w.extractLsb' 0 8 := by
  apply BitVec.eq_of_getLsbD_eq
  intro i hi
  simp only [BitVec.getLsbD_append, BitVec.getLsbD_extractLsb']
  by_cases h1 : i < 8
  · simp [h1]
  · by_cases h2 : i < 10
    · have h3 : i - 8 < 2 := by omega
      simp [h1, h3]; congr 1; omega
    · by_cases h4 : i < 16
      · have h3 : ¬ i - 8 < 2 := by omega
        have h5 : i - 8 - 2 < 6 := by omega
        simp [h1, h3, h5]; congr 1; omega
      · have h3 : ¬ i - 8 < 2 := by omega
        have h5 : ¬ i - 8 - 2 < 6 := by omega
        have h6 : i - 8 - 2 - 6 < 16 := by omega
        simp [h1, h3, h5, h6]; congr 1; omega

theorem append_eq_append_iff {m n : Nat} {a b : BitVec m} {c d : BitVec n} : a ++ c = b ++ d ↔ a = b ∧ c = d := by
  constructor
  · intro h
    constructor
    · apply BitVec.eq_of_getLsbD_eq
      intro i hi
      have := congrArg (fun x => x.getLsbD (i + n)) h
      simpa [BitVec.getLsbD_append] using this
    · apply BitVec.eq_of_getLsbD_eq
      intro i hi
      have := congrArg (fun x => x.getLsbD i) h
      simpa [BitVec.getLsbD_append, hi] using this
  · rintro ⟨rfl, rfl⟩; rfl

/-- Masking and matching a word is masking and matching its fields. -/
theorem and_eq_fields (w : Word) (ma pa : BitVec 16) (mr pr : BitVec 6) (mc pc : BitVec 2) (mo po : BitVec 8) :
    w &&& (ma ++ mr ++ mc ++ mo) = (pa ++ pr ++ pc ++ po) ↔
      w.extractLsb' 16 16 &&& ma = pa ∧ w.extractLsb' 10 6 &&& mr = pr ∧ w.extractLsb' 8 2 &&& mc = pc ∧
        w.extractLsb' 0 8 &&& mo = po := by
  conv_lhs => rw [word_eq_append w, BitVec.and_append, BitVec.and_append, BitVec.and_append]
  rw [append_eq_append_iff, append_eq_append_iff, append_eq_append_iff]
  simp only [and_assoc]

theorem and_ones_16 (x : BitVec 16) : x &&& 0xFFFF#16 = x := by
  rw [show (0xFFFF#16) = BitVec.allOnes 16 from rfl, BitVec.and_allOnes]

theorem and_ones_8 (x : BitVec 8) : x &&& 0xFF#8 = x := by
  rw [show (0xFF#8) = BitVec.allOnes 8 from rfl, BitVec.and_allOnes]

theorem and_ones_6 (x : BitVec 6) : x &&& 0x3F#6 = x := by
  rw [show (0x3F#6) = BitVec.allOnes 6 from rfl, BitVec.and_allOnes]

theorem and_ones_2 (x : BitVec 2) : x &&& 3#2 = x := by
  rw [show (3#2) = BitVec.allOnes 2 from rfl, BitVec.and_allOnes]

/-- Rows that fix every field (NOP, INIT, START, STOP). -/
theorem mask_all_iff (w : Word) (n : BitVec 8) :
    w &&& 0xFFFFFFFF = 0#16 ++ 0#6 ++ 0#2 ++ n ↔
      fieldArg w = 0 ∧ fieldRsv w = 0 ∧ fieldCh w = 0 ∧ fieldOpc w = n.toNat := by
  rw [show (0xFFFFFFFF : Word) = 0xFFFF#16 ++ 0x3F#6 ++ 3#2 ++ 0xFF#8 from rfl, and_eq_fields, and_ones_16, and_ones_6,
    and_ones_2, and_ones_8]
  simp [fieldArg, fieldRsv, fieldCh, fieldOpc, ← BitVec.toNat_inj]

/-- Rows with an ARG operand (READ, SET_VOLUME, SET_GAIN, SET_MAXVOL, DEMUX). -/
theorem mask_arg_iff (w : Word) (n : BitVec 8) :
    w &&& 0x0000FFFF = 0#16 ++ 0#6 ++ 0#2 ++ n ↔ fieldRsv w = 0 ∧ fieldCh w = 0 ∧ fieldOpc w = n.toNat := by
  rw [show (0x0000FFFF : Word) = 0#16 ++ 0x3F#6 ++ 3#2 ++ 0xFF#8 from rfl, and_eq_fields, and_ones_6, and_ones_2,
    and_ones_8]
  simp [fieldRsv, fieldCh, fieldOpc, ← BitVec.toNat_inj]

/-- The row with a CH operand (FRESET). -/
theorem mask_ch_iff (w : Word) (n : BitVec 8) :
    w &&& 0xFFFFFCFF = 0#16 ++ 0#6 ++ 0#2 ++ n ↔ fieldArg w = 0 ∧ fieldRsv w = 0 ∧ fieldOpc w = n.toNat := by
  rw [show (0xFFFFFCFF : Word) = 0xFFFF#16 ++ 0x3F#6 ++ 0#2 ++ 0xFF#8 from rfl, and_eq_fields, and_ones_16, and_ones_6,
    and_ones_8]
  simp [fieldArg, fieldRsv, fieldOpc, ← BitVec.toNat_inj]

/-- The row with both operands (DECODE). -/
theorem mask_both_iff (w : Word) (n : BitVec 8) :
    w &&& 0x0000FCFF = 0#16 ++ 0#6 ++ 0#2 ++ n ↔ fieldRsv w = 0 ∧ fieldOpc w = n.toNat := by
  rw [show (0x0000FCFF : Word) = 0#16 ++ 0x3F#6 ++ 0#2 ++ 0xFF#8 from rfl, and_eq_fields, and_ones_6, and_ones_8]
  simp [fieldRsv, fieldOpc, ← BitVec.toNat_inj]

/-- A row selects a word exactly if the fields the row fixes are as the row says. -/
theorem selects_iff (w : Word) :
    (EncRow.selects ⟨.NOP, 0x00000000, 0xFFFFFFFF⟩ w = true ↔
      fieldArg w = 0 ∧ fieldRsv w = 0 ∧ fieldCh w = 0 ∧ fieldOpc w = 0x00) ∧
    (EncRow.selects ⟨.INIT, 0x00000001, 0xFFFFFFFF⟩ w = true ↔
      fieldArg w = 0 ∧ fieldRsv w = 0 ∧ fieldCh w = 0 ∧ fieldOpc w = 0x01) ∧
    (EncRow.selects ⟨.START, 0x00000002, 0xFFFFFFFF⟩ w = true ↔
      fieldArg w = 0 ∧ fieldRsv w = 0 ∧ fieldCh w = 0 ∧ fieldOpc w = 0x02) ∧
    (EncRow.selects ⟨.STOP, 0x00000003, 0xFFFFFFFF⟩ w = true ↔
      fieldArg w = 0 ∧ fieldRsv w = 0 ∧ fieldCh w = 0 ∧ fieldOpc w = 0x03) ∧
    (EncRow.selects ⟨.READ, 0x00000004, 0x0000FFFF⟩ w = true ↔ fieldRsv w = 0 ∧ fieldCh w = 0 ∧ fieldOpc w = 0x04) ∧
    (EncRow.selects ⟨.SET_VOLUME, 0x00000005, 0x0000FFFF⟩ w = true ↔
      fieldRsv w = 0 ∧ fieldCh w = 0 ∧ fieldOpc w = 0x05) ∧
    (EncRow.selects ⟨.SET_GAIN, 0x00000006, 0x0000FFFF⟩ w = true ↔
      fieldRsv w = 0 ∧ fieldCh w = 0 ∧ fieldOpc w = 0x06) ∧
    (EncRow.selects ⟨.SET_MAXVOL, 0x00000007, 0x0000FFFF⟩ w = true ↔
      fieldRsv w = 0 ∧ fieldCh w = 0 ∧ fieldOpc w = 0x07) ∧
    (EncRow.selects ⟨.FRESET, 0x00000010, 0xFFFFFCFF⟩ w = true ↔ fieldArg w = 0 ∧ fieldRsv w = 0 ∧ fieldOpc w = 0x10) ∧
    (EncRow.selects ⟨.DEMUX, 0x00000011, 0x0000FFFF⟩ w = true ↔ fieldRsv w = 0 ∧ fieldCh w = 0 ∧ fieldOpc w = 0x11) ∧
    (EncRow.selects ⟨.DECODE, 0x00000012, 0x0000FCFF⟩ w = true ↔ fieldRsv w = 0 ∧ fieldOpc w = 0x12) := by
  simp only [EncRow.selects, beq_iff_eq]
  exact ⟨mask_all_iff w 0x00, mask_all_iff w 0x01, mask_all_iff w 0x02, mask_all_iff w 0x03, mask_arg_iff w 0x04,
    mask_arg_iff w 0x05, mask_arg_iff w 0x06, mask_arg_iff w 0x07, mask_ch_iff w 0x10, mask_arg_iff w 0x11,
    mask_both_iff w 0x12⟩

/-- No word is selected by two rows: any two patterns differ under both masks (R69). -/
theorem encMap_disjoint :
    ∀ r₁ ∈ encMap, ∀ r₂ ∈ encMap, r₁.pattern &&& r₂.mask = r₂.pattern &&& r₁.mask → r₁ = r₂ := by decide

theorem selects_unique {r₁ r₂ : EncRow} {w : Word} (h₁ : r₁ ∈ encMap) (h₂ : r₂ ∈ encMap) (s₁ : r₁.selects w = true)
    (s₂ : r₂.selects w = true) : r₁ = r₂ := by
  refine encMap_disjoint r₁ h₁ r₂ h₂ ?_
  simp only [EncRow.selects, beq_iff_eq] at s₁ s₂
  rw [← s₁, ← s₂, BitVec.and_assoc, BitVec.and_assoc, BitVec.and_comm r₁.mask]

/-- The row that selects a word gives its command. -/
theorem decode_of_selects {row : EncRow} {w : Word} (h : row ∈ encMap) (hs : row.selects w = true) :
    decode w = .ok (operandsOf row.mnemonic w) := by
  unfold decode
  cases hf : encMap.find? (·.selects w) with
  | none => exact absurd hs (List.find?_eq_none.mp hf row h)
  | some row' =>
    rw [selects_unique (List.mem_of_find?_eq_some hf) h (List.find?_some (p := fun r => EncRow.selects r w) hf) hs]

/-- A legal word is selected by a row, which gives its command. -/
theorem selects_of_decode {w : Word} {i : Instr} (h : decode w = .ok i) :
    ∃ row ∈ encMap, row.selects w = true ∧ i = operandsOf row.mnemonic w := by
  unfold decode at h
  split at h
  · rename_i row hf
    cases h
    exact ⟨row, List.mem_of_find?_eq_some hf, List.find?_some (p := fun r => EncRow.selects r w) hf, rfl⟩
  · cases h

/-- An illegal word is selected by no row. -/
theorem decode_error_iff (w : Word) : (∃ e, decode w = .error e) ↔ ∀ row ∈ encMap, row.selects w = false := by
  unfold decode
  cases hf : encMap.find? (·.selects w) with
  | none => simpa using List.find?_eq_none.mp hf
  | some row =>
    have := List.find?_some (p := fun r => EncRow.selects r w) hf
    simp only [reduceCtorEq, exists_false, false_iff, not_forall]
    exact ⟨row, List.mem_of_find?_eq_some hf, by simpa using this⟩

/-- A command that a word decodes to is well-formed: its operands come from the fields (R68). -/
theorem operandsOf_wellFormed (m : Mnemonic) (w : Word) : (operandsOf m w).wellFormed = true := by
  have h1 := fieldArg_lt w
  have h2 := fieldCh_lt w
  cases m <;> simp [operandsOf, Instr.wellFormed, fitsArg, fitsChannel] <;> omega

theorem decode_wellFormed {w : Word} {i : Instr} (h : decode w = .ok i) : i.wellFormed = true := by
  unfold decode at h
  split at h
  · cases h; exact operandsOf_wellFormed _ _
  · cases h

end Sys2Proof
end

