-- ==== Sys2Proof/Laws/Session.lean ====
section
/-! SUPPORT. INIT's checks as arithmetic, and what a legal configuration gives (R113). -/

namespace Sys2Proof.Machine

/-- A configuration that INIT accepts, check by check. -/
theorem initCheck_eq_none (a : Configuration) :
    initCheck a = none ↔
      (a.channels = 1 ∨ a.channels = 2 ∨ a.channels = 4) ∧ 0 < a.spm ∧ 0 < a.samples ∧ a.samples % a.spm = 0 ∧
      a.samples ≤ 2048 ∧ 2 ≤ a.slots ∧ a.slots * a.slotSize ≤ 524288 ∧
      (a.guardSlots = 0 ∨ a.guardSlots < (Machine.norm a.slots a.offsetSlots).natAbs) := by
  unfold initCheck Config.sbsMax Config.ringBytesMax
  constructor
  · intro h
    split at h <;> [cases h; skip]
    split at h <;> [cases h; skip]
    split at h <;> [cases h; skip]
    split at h <;> [cases h; skip]
    split at h <;> [cases h; skip]
    split at h <;> [cases h; skip]
    split at h <;> [cases h; skip]
    rename_i h1 h2 h3 h4 h5 h6 h7
    exact ⟨by tauto, by omega, by omega, by omega, by omega, by omega, by omega, by omega⟩
  · rintro ⟨h1, h2, h3, h4, h5, h6, h7, h8⟩
    rw [if_neg (by tauto), if_neg (by omega), if_neg (by omega), if_neg (by omega), if_neg (by omega),
      if_neg (by omega), if_neg (by omega)]

theorem decim_cases (a : Configuration) : a.decim = 64 ∧ a.windowBytes = 8 ∨ a.decim = 128 ∧ a.windowBytes = 16 := by
  unfold Configuration.windowBytes Configuration.decim
  cases a.dsel <;> simp

theorem windowBytes_pos (a : Configuration) : 0 < a.windowBytes := by
  rcases decim_cases a with ⟨_, h⟩ | ⟨_, h⟩ <;> omega

theorem slotSize_eq (a : Configuration) : a.slotSize = a.samples * a.windowBytes * a.channels := rfl

/-- R91: "A.SLOT_BYTES is always a multiple of 4". -/
theorem slotSize_mod_four (a : Configuration) : a.slotSize % 4 = 0 := by
  rw [slotSize_eq]
  rcases decim_cases a with ⟨_, h⟩ | ⟨_, h⟩ <;> rw [h] <;> rw [Nat.mul_right_comm] <;> omega

/-- The streams of a legal configuration fit SCRATCH (R8, R51). -/
theorem slotSize_le_scratch {a : Configuration} (h : initCheck a = none) : a.slotSize ≤ 131072 := by
  obtain ⟨h1, -, -, -, h5, -, -, -⟩ := (initCheck_eq_none a).mp h
  have hw : a.windowBytes ≤ 16 := by rcases decim_cases a with ⟨_, h⟩ | ⟨_, h⟩ <;> omega
  have hc : a.channels ≤ 4 := by omega
  calc a.slotSize = a.samples * a.windowBytes * a.channels := rfl
    _ ≤ 2048 * 16 * 4 := Nat.mul_le_mul (Nat.mul_le_mul h5 hw) hc

/-- Every slot of a legal configuration lies inside RING (R50). -/
theorem slot_in_ring {a : Configuration} (h : initCheck a = none) {slot : Nat} (hs : slot < a.slots) :
    slot * a.slotSize + a.slotSize ≤ 524288 := by
  obtain ⟨-, -, -, -, -, -, h7, -⟩ := (initCheck_eq_none a).mp h
  calc slot * a.slotSize + a.slotSize = (slot + 1) * a.slotSize := by ring
    _ ≤ a.slots * a.slotSize := Nat.mul_le_mul_right _ hs
    _ ≤ 524288 := h7

/-- The samples of every channel of a READ fit PCM (R8, R52). -/
theorem pcm_fits {a : Configuration} (h : initCheck a = none) {n : Nat} (hn : n ≤ a.samples) :
    2 * (a.channels * n) ≤ 16384 := by
  obtain ⟨h1, -, -, -, h5, -, -, -⟩ := (initCheck_eq_none a).mp h
  have : a.channels * n ≤ 4 * 2048 := Nat.mul_le_mul (by omega) (by omega)
  omega

/-- spm fits its register (R36). -/
theorem spm_le (a : Configuration) : a.spm ≤ 65 := by
  have := a.fs.isLt
  unfold Configuration.spm Configuration.rateHz; omega

theorem slots_lt (a : Configuration) : a.slots < 256 := a.b.isLt

theorem spm_le_samples {a : Configuration} (h : initCheck a = none) : a.spm ≤ a.samples := by
  obtain ⟨-, h2, h3, h4, -⟩ := (initCheck_eq_none a).mp h
  exact Nat.le_of_dvd h3 (Nat.dvd_of_mod_eq_zero h4)

end Sys2Proof.Machine
end

