-- ==== Sys2Proof/Laws/Demux.lean ====
section
/-! SUPPORT. The demultiplexer: the streams of a slot, and what demuxSlot writes and leaves. -/

namespace Sys2Proof.Machine

/-! ### Writes of equal runs, one after another -/

/-- Runs of `len` bytes written at 0, len, 2·len, ...: each byte reads as its run says, every other as before. -/
theorem State.memByte_foldl_writeMem (s : State) (sp : Space) (len : Nat) (f : Nat → List Byte) (n o : Nat)
    (hf : ∀ c < n, (f c).length = len) :
    ((List.range n).foldl (fun t c => t.writeMem sp (c * len) (f c)) s).memByte sp o =
      if o < n * len then (f (o / len))[o % len]?.getD 0 else s.memByte sp o := by
  induction n with
  | zero => simp
  | succ n ih =>
    have hn := hf n (by omega)
    rw [List.range_succ, List.foldl_append]
    simp only [List.foldl_cons, List.foldl_nil]
    have e : (n + 1) * len = n * len + len := by ring
    by_cases h : n * len ≤ o ∧ o < n * len + len
    · rw [State.memByte_writeMem_inside _ sp h.1 (by omega), if_pos (by omega)]
      have h1 : o / len = n := by rw [Nat.div_eq_iff (by omega)]; constructor <;> omega
      have h2 : o % len = o - n * len := by rw [Nat.mod_eq_sub_div_mul, h1]
      rw [h1, h2, List.getElem?_eq_getElem (by omega)]; rfl
    · rw [State.memByte_writeMem_outside _ sp (by omega), ih (fun c hc => hf c (by omega))]
      by_cases h' : o < n * len
      · rw [if_pos h', if_pos (by omega)]
      · rw [if_neg h', if_neg (by omega)]

/-! ### Streams -/

theorem slotSize_div_four {a : Configuration} (h : a.channels = 2 ∨ a.channels = 4) :
    a.slotSize / 4 * (4 / a.channels) = a.streamBytes := by
  have hs : a.streamBytes = a.samples * a.windowBytes := rfl
  have hz : a.slotSize = a.streamBytes * a.channels := rfl
  rcases h with h | h <;> rw [hz, h]
  · rcases decim_cases a with ⟨_, hw⟩ | ⟨_, hw⟩ <;> rw [hs, hw] <;> omega
  · omega

@[simp] theorem flatMap_leBytes_length (n : Nat) (f : Nat → Nat) :
    ((List.range n).flatMap fun m => leBytes 2 (f m)).length = 2 * n := by
  induction n with
  | zero => rfl
  | succ n ih => simp [List.range_succ, ih]; omega

theorem flatMap_leBytes_getElem? (n : Nat) (f : Nat → Nat) (o : Nat) (h : o < 2 * n) :
    ((List.range n).flatMap fun m => leBytes 2 (f m))[o]? = some (BitVec.ofNat 8 (f (o / 2) >>> (8 * (o % 2)))) := by
  induction n with
  | zero => omega
  | succ n ih =>
    rw [List.range_succ, List.flatMap_append]
    by_cases h' : o < 2 * n
    · rw [List.getElem?_append_left (by rw [flatMap_leBytes_length]; exact h'), ih h']
    · rw [List.getElem?_append_right (by rw [flatMap_leBytes_length]; omega)]
      have e1 : o / 2 = n := by omega
      have e2 : o % 2 = o - 2 * n := by omega
      have e3 : o - 2 * n < 2 := by omega
      simp only [flatMap_leBytes_length, List.flatMap_cons, List.flatMap_nil, List.append_nil, e1, e2]
      rw [List.getElem?_eq_getElem (by simpa using e3), leBytes_getElem]

/-- Each of the N streams has STREAM_BYTES bytes (R94). -/
theorem State.streamOf_length (s : State) (slot c : Nat)
    (h : s.active.channels = 1 ∨ s.active.channels = 2 ∨ s.active.channels = 4) :
    (s.streamOf slot c).length = s.active.streamBytes := by
  have hz : s.active.slotSize = s.active.streamBytes * s.active.channels := rfl
  unfold State.streamOf
  rcases h with h | h | h
  · simp [h, hz]
  · have := slotSize_div_four (a := s.active) (.inl h)
    rw [h] at this
    simp [h]; omega
  · have := slotSize_div_four (a := s.active) (.inr h)
    rw [h] at this
    simp [h]; omega

/-- One byte of a stream, for each channel count (R94). -/
theorem State.streamOf_getElem? (s : State) (slot c o : Nat)
    (h : s.active.channels = 1 ∨ s.active.channels = 2 ∨ s.active.channels = 4) (ho : o < s.active.streamBytes) :
    (s.streamOf slot c)[o]? = some
      (if s.active.channels = 1 then s.ringByte (slot * s.active.slotSize + o)
       else if s.active.channels = 2 then BitVec.ofNat 8 (chan (s.slotWord slot (o / 2)) 2 c >>> (8 * (o % 2)))
       else BitVec.ofNat 8 (chan (s.slotWord slot o) 4 c)) := by
  have hz : s.active.slotSize = s.active.streamBytes * s.active.channels := rfl
  unfold State.streamOf
  rcases h with h | h | h
  · have : o < s.active.slotSize := by rw [hz, h]; omega
    simp [h, this]
  · have := slotSize_div_four (a := s.active) (.inl h)
    rw [h] at this
    have e := flatMap_leBytes_getElem? (s.active.slotSize / 4) (fun m => chan (s.slotWord slot m) 2 c) o (by omega)
    simp only [h]; simpa using e
  · have := slotSize_div_four (a := s.active) (.inr h)
    rw [h] at this
    have : o < s.active.slotSize / 4 := by omega
    simp [h, this]

/-! ### demuxSlot -/

/-- demuxSlot writes SCRATCH and nothing else (R97). -/
theorem State.demuxSlot_eq (s : State) (slot : Nat) :
    s.demuxSlot slot = { s with scratch := (s.demuxSlot slot).scratch } := by
  unfold State.demuxSlot
  generalize s.active.channels = n
  generalize s.active.streamBytes = len
  generalize s.streamOf slot = f
  induction n with
  | zero => rfl
  | succ n ih =>
    rw [List.range_succ, List.foldl_append]
    simp only [List.foldl_cons, List.foldl_nil]
    rw [ih]; rfl

@[simp] theorem State.demuxSlot_ctrl (s : State) (slot : Nat) : (s.demuxSlot slot).ctrl = s.ctrl :=
  by
  rw [State.demuxSlot_eq]
@[simp] theorem State.demuxSlot_status (s : State) (slot : Nat) : (s.demuxSlot slot).status = s.status :=
  by
  rw [State.demuxSlot_eq]
@[simp] theorem State.demuxSlot_result (s : State) (slot : Nat) : (s.demuxSlot slot).result = s.result :=
  by
  rw [State.demuxSlot_eq]
@[simp] theorem State.demuxSlot_cfg (s : State) (slot : Nat) : (s.demuxSlot slot).cfg = s.cfg :=
  by
  rw [State.demuxSlot_eq]
@[simp] theorem State.demuxSlot_active (s : State) (slot : Nat) : (s.demuxSlot slot).active = s.active :=
  by
  rw [State.demuxSlot_eq]
@[simp] theorem State.demuxSlot_consts (s : State) (slot : Nat) : (s.demuxSlot slot).consts = s.consts :=
  by
  rw [State.demuxSlot_eq]
@[simp] theorem State.demuxSlot_spm (s : State) (slot : Nat) : (s.demuxSlot slot).spm = s.spm :=
  by
  rw [State.demuxSlot_eq]
@[simp] theorem State.demuxSlot_slotBytes (s : State) (slot : Nat) : (s.demuxSlot slot).slotBytes = s.slotBytes :=
  by
  rw [State.demuxSlot_eq]
@[simp] theorem State.demuxSlot_w (s : State) (slot : Nat) : (s.demuxSlot slot).w = s.w :=
  by
  rw [State.demuxSlot_eq]
@[simp] theorem State.demuxSlot_r (s : State) (slot : Nat) : (s.demuxSlot slot).r = s.r :=
  by
  rw [State.demuxSlot_eq]
@[simp] theorem State.demuxSlot_wc (s : State) (slot : Nat) : (s.demuxSlot slot).wc = s.wc :=
  by
  rw [State.demuxSlot_eq]
@[simp] theorem State.demuxSlot_armed (s : State) (slot : Nat) : (s.demuxSlot slot).armed = s.armed :=
  by
  rw [State.demuxSlot_eq]
@[simp] theorem State.demuxSlot_completions (s : State) (slot : Nat) : (s.demuxSlot slot).completions = s.completions :=
  by
  rw [State.demuxSlot_eq]
@[simp] theorem State.demuxSlot_filter (s : State) (slot : Nat) : (s.demuxSlot slot).filter = s.filter :=
  by
  rw [State.demuxSlot_eq]
@[simp] theorem State.demuxSlot_sequencer (s : State) (slot : Nat) : (s.demuxSlot slot).sequencer = s.sequencer :=
  by
  rw [State.demuxSlot_eq]
@[simp] theorem State.demuxSlot_ring (s : State) (slot : Nat) : (s.demuxSlot slot).ring = s.ring :=
  by
  rw [State.demuxSlot_eq]
@[simp] theorem State.demuxSlot_pcm (s : State) (slot : Nat) : (s.demuxSlot slot).pcm = s.pcm :=
  by
  rw [State.demuxSlot_eq]
@[simp] theorem State.demuxSlot_pins (s : State) (slot : Nat) : (s.demuxSlot slot).pins = s.pins :=
  by
  rw [State.demuxSlot_eq]
@[simp] theorem State.demuxSlot_events (s : State) (slot : Nat) : (s.demuxSlot slot).events = s.events :=
  by
  rw [State.demuxSlot_eq]
@[simp] theorem State.demuxSlot_outputs (s : State) (slot : Nat) : (s.demuxSlot slot).outputs = s.outputs :=
  by
  rw [State.demuxSlot_eq]
@[simp] theorem State.demuxSlot_draws (s : State) (slot : Nat) : (s.demuxSlot slot).draws = s.draws :=
  by
  rw [State.demuxSlot_eq]
@[simp] theorem State.demuxSlot_powerOn (s : State) (slot : Nat) : (s.demuxSlot slot).powerOn = s.powerOn :=
  by
  rw [State.demuxSlot_eq]

theorem State.demuxSlot_memByte_of_ne (s : State) (slot : Nat) {sp : Space} (h : sp ≠ .scratch) (o : Nat) :
    (s.demuxSlot slot).memByte sp o = s.memByte sp o := by
  apply State.memByte_congr
  · cases sp <;> first | exact absurd rfl h | simp [State.mem]
  · simp

/-- Byte `o` of stream `c` stands at SCRATCH offset c·STREAM_BYTES + o (R51, R94). -/
theorem State.demuxSlot_inside (s : State) (slot : Nat)
    (h : s.active.channels = 1 ∨ s.active.channels = 2 ∨ s.active.channels = 4) {c o : Nat}
    (hc : c < s.active.channels) (ho : o < s.active.streamBytes) :
    (s.streamOf slot c)[o]? = some ((s.demuxSlot slot).memByte .scratch (c * s.active.streamBytes + o)) := by
  have hlt : c * s.active.streamBytes + o < s.active.channels * s.active.streamBytes :=
    calc c * s.active.streamBytes + o < c * s.active.streamBytes + s.active.streamBytes := by omega
      _ = (c + 1) * s.active.streamBytes := by ring
      _ ≤ _ := Nat.mul_le_mul_right _ hc
  unfold State.demuxSlot
  rw [State.memByte_foldl_writeMem s .scratch s.active.streamBytes (s.streamOf slot) s.active.channels _
    (fun c _ => s.streamOf_length slot c h), if_pos hlt, Nat.add_comm,
    Nat.add_mul_div_right _ _ (by omega), Nat.add_mul_mod_self_right, Nat.div_eq_of_lt ho, Nat.mod_eq_of_lt ho,
    Nat.zero_add, List.getElem?_eq_getElem (by rw [s.streamOf_length slot c h]; exact ho)]
  rfl

/-- SCRATCH bytes from SLOT_BYTES on are not written (R94). -/
theorem State.demuxSlot_outside (s : State) (slot : Nat)
    (h : s.active.channels = 1 ∨ s.active.channels = 2 ∨ s.active.channels = 4) {o : Nat}
    (ho : s.active.slotSize ≤ o) : (s.demuxSlot slot).memByte .scratch o = s.memByte .scratch o := by
  have hz : s.active.slotSize = s.active.channels * s.active.streamBytes := Nat.mul_comm _ _
  unfold State.demuxSlot
  rw [State.memByte_foldl_writeMem s .scratch s.active.streamBytes (s.streamOf slot) s.active.channels _
    (fun c _ => s.streamOf_length slot c h), if_neg (by omega)]

/-- demuxSlot keeps SCRATCH in canonical form. -/
theorem State.demuxSlot_wf (s : State) (slot : Nat) (h : initCheck s.active = none)
    (hw : s.scratch.wf Config.scratchBytes = true) : (s.demuxSlot slot).scratch.wf Config.scratchBytes = true := by
  have hc := ((initCheck_eq_none s.active).mp h).1
  have hz : s.active.slotSize = s.active.channels * s.active.streamBytes := Nat.mul_comm _ _
  have hle := slotSize_le_scratch h
  unfold State.demuxSlot
  have key : ∀ n ≤ s.active.channels,
      ((List.range n).foldl (fun t c => t.writeMem .scratch (c * s.active.streamBytes) (s.streamOf slot c)) s).scratch.wf
        Config.scratchBytes = true := by
    intro n
    induction n with
    | zero => intro _; exact hw
    | succ n ih =>
      intro hn
      rw [List.range_succ, List.foldl_append]
      simp only [List.foldl_cons, List.foldl_nil, State.writeMem_scratch]
      apply Memory.wf_writeRun (ih (by omega))
      rw [s.streamOf_length slot n hc]
      have h1 : (n + 1) * s.active.streamBytes ≤ s.active.channels * s.active.streamBytes := Nat.mul_le_mul_right _ hn
      have h2 : (n + 1) * s.active.streamBytes = n * s.active.streamBytes + s.active.streamBytes := by ring
      have h3 : Config.scratchBytes = 131072 := rfl
      omega
  exact key _ (Nat.le_refl _)

end Sys2Proof.Machine
end

