-- ==== Sys2Proof/Laws/Filter.lean ====
section
/-! SUPPORT. The decimation filter: runs of windows, blocks, and bounds on the taps. -/

namespace Sys2Proof.Machine

/-! ### Runs -/

@[simp] theorem filterRun_nil (k : FilterConsts) (st : Bool) (D : Nat) (f : FilterState) :
    filterRun k st D f [] = (f, []) := rfl

theorem filterRun_cons (k : FilterConsts) (st : Bool) (D : Nat) (f : FilterState) (win : List Byte)
    (wins : List (List Byte)) :
    filterRun k st D f (win :: wins) =
      ((filterRun k st D (filterStep k st D f win).1 wins).1,
        (filterStep k st D f win).2 :: (filterRun k st D (filterStep k st D f win).1 wins).2) := rfl

/-- A run over two lists of windows is the run over the first, then over the second from where that ended. -/
theorem filterRun_append (k : FilterConsts) (st : Bool) (D : Nat) (f : FilterState) (a b : List (List Byte)) :
    filterRun k st D f (a ++ b) =
      ((filterRun k st D (filterRun k st D f a).1 b).1,
        (filterRun k st D f a).2 ++ (filterRun k st D (filterRun k st D f a).1 b).2) := by
  induction a generalizing f with
  | nil => rfl
  | cons win wins ih => simp only [List.cons_append, filterRun_cons, ih]

@[simp] theorem filterRun_length (k : FilterConsts) (st : Bool) (D : Nat) (f : FilterState) (wins : List (List Byte)) :
    (filterRun k st D f wins).2.length = wins.length := by
  induction wins generalizing f with
  | nil => rfl
  | cons win wins ih => simp [filterRun_cons, ih]

/-- A run keeps what each of its steps keeps. -/
theorem filterRun_induct {k : FilterConsts} {st : Bool} {D : Nat} (P : FilterState → Prop) {wins : List (List Byte)}
    (hs : ∀ f, ∀ win ∈ wins, P f → P (filterStep k st D f win).1) {f : FilterState} (h : P f) :
    P (filterRun k st D f wins).1 := by
  induction wins generalizing f with
  | nil => exact h
  | cons win wins ih =>
    exact ih (fun f w hw => hs f w (List.mem_cons_of_mem _ hw)) (hs f win (by simp) h)

/-! ### Blocks -/

@[simp] theorem State.decodeBlock_ctrl (s : State) (c src dst : Nat) : (s.decodeBlock c src dst).ctrl = s.ctrl :=
  by simp [State.decodeBlock]
@[simp] theorem State.decodeBlock_status (s : State) (c src dst : Nat) : (s.decodeBlock c src dst).status = s.status :=
  by simp [State.decodeBlock]
@[simp] theorem State.decodeBlock_result (s : State) (c src dst : Nat) : (s.decodeBlock c src dst).result = s.result :=
  by simp [State.decodeBlock]
@[simp] theorem State.decodeBlock_cfg (s : State) (c src dst : Nat) : (s.decodeBlock c src dst).cfg = s.cfg :=
  by simp [State.decodeBlock]
@[simp] theorem State.decodeBlock_active (s : State) (c src dst : Nat) : (s.decodeBlock c src dst).active = s.active :=
  by simp [State.decodeBlock]
@[simp] theorem State.decodeBlock_consts (s : State) (c src dst : Nat) : (s.decodeBlock c src dst).consts = s.consts :=
  by simp [State.decodeBlock]
@[simp] theorem State.decodeBlock_spm (s : State) (c src dst : Nat) : (s.decodeBlock c src dst).spm = s.spm :=
  by simp [State.decodeBlock]
@[simp] theorem State.decodeBlock_slotBytes (s : State) (c src dst : Nat) : (s.decodeBlock c src dst).slotBytes = s.slotBytes :=
  by simp [State.decodeBlock]
@[simp] theorem State.decodeBlock_w (s : State) (c src dst : Nat) : (s.decodeBlock c src dst).w = s.w :=
  by simp [State.decodeBlock]
@[simp] theorem State.decodeBlock_r (s : State) (c src dst : Nat) : (s.decodeBlock c src dst).r = s.r :=
  by simp [State.decodeBlock]
@[simp] theorem State.decodeBlock_wc (s : State) (c src dst : Nat) : (s.decodeBlock c src dst).wc = s.wc :=
  by simp [State.decodeBlock]
@[simp] theorem State.decodeBlock_armed (s : State) (c src dst : Nat) : (s.decodeBlock c src dst).armed = s.armed :=
  by simp [State.decodeBlock]
@[simp] theorem State.decodeBlock_completions (s : State) (c src dst : Nat) : (s.decodeBlock c src dst).completions = s.completions :=
  by simp [State.decodeBlock]
@[simp] theorem State.decodeBlock_sequencer (s : State) (c src dst : Nat) : (s.decodeBlock c src dst).sequencer = s.sequencer :=
  by simp [State.decodeBlock]
@[simp] theorem State.decodeBlock_ring (s : State) (c src dst : Nat) : (s.decodeBlock c src dst).ring = s.ring :=
  by simp [State.decodeBlock]
@[simp] theorem State.decodeBlock_scratch (s : State) (c src dst : Nat) : (s.decodeBlock c src dst).scratch = s.scratch :=
  by simp [State.decodeBlock]
@[simp] theorem State.decodeBlock_pins (s : State) (c src dst : Nat) : (s.decodeBlock c src dst).pins = s.pins :=
  by simp [State.decodeBlock]
@[simp] theorem State.decodeBlock_events (s : State) (c src dst : Nat) : (s.decodeBlock c src dst).events = s.events :=
  by simp [State.decodeBlock]
@[simp] theorem State.decodeBlock_outputs (s : State) (c src dst : Nat) : (s.decodeBlock c src dst).outputs = s.outputs :=
  by simp [State.decodeBlock]
@[simp] theorem State.decodeBlock_draws (s : State) (c src dst : Nat) : (s.decodeBlock c src dst).draws = s.draws :=
  by simp [State.decodeBlock]
@[simp] theorem State.decodeBlock_powerOn (s : State) (c src dst : Nat) : (s.decodeBlock c src dst).powerOn = s.powerOn :=
  by simp [State.decodeBlock]

theorem State.decodeBlock_filter (s : State) (c src dst : Nat) :
    (s.decodeBlock c src dst).filter = s.filter.setIfInBounds c (s.blockOut c src).1 := by simp [State.decodeBlock]

theorem State.decodeBlock_pcm (s : State) (c src dst : Nat) :
    (s.decodeBlock c src dst).pcm = s.pcm.writeRun (2 * dst) ((s.blockOut c src).2.flatMap sampleBytes) := by
  simp [State.decodeBlock]

theorem State.decodeBlock_memByte_of_ne (s : State) (c src dst : Nat) {sp : Space} (h : sp ≠ .pcm) (o : Nat) :
    (s.decodeBlock c src dst).memByte sp o = s.memByte sp o := by
  apply State.memByte_congr
  · cases sp <;> first | exact absurd rfl h | simp [State.mem]
  · simp

@[simp] theorem State.blockWindows_length (s : State) (c src : Nat) : (s.blockWindows c src).length = s.active.spm := by
  simp [State.blockWindows]

@[simp] theorem State.blockOut_length (s : State) (c src : Nat) : (s.blockOut c src).2.length = s.active.spm := by
  simp [State.blockOut]

theorem State.mem_blockWindows {s : State} {c src : Nat} {win : List Byte} (h : win ∈ s.blockWindows c src) :
    win.length = s.active.windowBytes := by
  obtain ⟨i, _, rfl⟩ := List.mem_map.mp h
  simp [State.window]

@[simp] theorem flatMap_sampleBytes_length (vs : List Sample) : (vs.flatMap sampleBytes).length = 2 * vs.length := by
  induction vs with
  | nil => rfl
  | cons v rest ih => simp [ih]; omega

theorem flatMap_sampleBytes_getElem (vs : List Sample) (i j : Nat) (hj : j < 2) (hi : i < vs.length)
    (h : 2 * i + j < (vs.flatMap sampleBytes).length) :
    (vs.flatMap sampleBytes)[2 * i + j] = (sampleBytes vs[i])[j]'(by simpa using hj) := by
  induction vs generalizing i with
  | nil => simp at hi
  | cons v rest ih =>
    simp only [List.flatMap_cons]
    cases i with
    | zero => rw [List.getElem_append_left (by simpa using hj)]; simp
    | succ i =>
      have e : 2 * (i + 1) + j = (2 * i + j) + 2 := by omega
      have hr : 2 * i + j < (rest.flatMap sampleBytes).length := by
        simp at hi; simp; omega
      rw [List.getElem_append_right (by simp; omega)]
      simp only [sampleBytes_length, e, Nat.add_sub_cancel]
      rw [ih i (by simpa using hi) hr]
      simp

/-- PCM samples written as a run of sample bytes read back. -/
theorem State.pcmSample_writeMem (s : State) (dst : Nat) (vs : List Sample) (i : Nat) (h : i < vs.length) :
    (s.writeMem .pcm (2 * dst) (vs.flatMap sampleBytes)).pcmSample (dst + i) = vs[i] := by
  have hl := flatMap_sampleBytes_length vs
  have e0 : 2 * (dst + i) - 2 * dst = 2 * i + 0 := by omega
  have e1 : 2 * (dst + i) + 1 - 2 * dst = 2 * i + 1 := by omega
  unfold State.pcmSample
  rw [State.memByte_writeMem_inside s .pcm (by omega) (by omega),
    State.memByte_writeMem_inside s .pcm (by omega) (by omega)]
  simp only [e0, e1]
  rw [flatMap_sampleBytes_getElem vs i 0 (by omega) h, flatMap_sampleBytes_getElem vs i 1 (by omega) h]
  have : [(sampleBytes vs[i])[0]'(by simp), (sampleBytes vs[i])[1]'(by simp)] = sampleBytes vs[i] := by
    simp [sampleBytes, leBytes, List.range_succ]
  rw [this, sample_ofLeBytes]

theorem State.decodeBlock_pcmSample (s : State) (c src dst i : Nat) (h : i < s.active.spm) :
    (s.decodeBlock c src dst).pcmSample (dst + i) = (s.blockOut c src).2[i]'(by simpa using h) := by
  unfold State.decodeBlock
  exact State.pcmSample_writeMem _ dst _ i (by simpa using h)

theorem State.decodeBlock_pcm_outside (s : State) (c src dst : Nat) {o : Nat}
    (h : o < 2 * dst ∨ 2 * dst + 2 * s.active.spm ≤ o) :
    (s.decodeBlock c src dst).memByte .pcm o = s.memByte .pcm o := by
  unfold State.decodeBlock
  rw [State.memByte_writeMem_outside _ .pcm (by rw [flatMap_sampleBytes_length, State.blockOut_length]; exact h)]
  simp

theorem State.decodeBlock_filterAt (s : State) {c : Nat} (hc : c < 4) (src dst c' : Nat) :
    (s.decodeBlock c src dst).filterAt c' = if c' = c then (s.blockOut c src).1 else s.filterAt c' := by
  have : (s.decodeBlock c src dst).filterAt c' = (s.setFilter c (s.blockOut c src).1).filterAt c' := by
    simp [State.filterAt, State.decodeBlock]
  rw [this, State.setFilter_filterAt s _ c' hc]

/-! ### Taps -/

theorem bitOf_le (v : Byte) (i : Nat) : bitOf v i ≤ 1 := Bool.toNat_le _

theorem windowBits_cons (v : Byte) (win : List Byte) :
    windowBits (v :: win) = (List.range 8).map (fun b => bitOf v (7 - b)) ++ windowBits win := rfl

@[simp] theorem windowBits_length (win : List Byte) : (windowBits win).length = 8 * win.length := by
  induction win with
  | nil => rfl
  | cons v rest ih => simp [windowBits_cons, ih]; omega

theorem mem_windowBits {win : List Byte} {x : Nat} (h : x ∈ windowBits win) : x ≤ 1 := by
  induction win with
  | nil => simp [windowBits] at h
  | cons v rest ih =>
    rw [windowBits_cons, List.mem_append] at h
    rcases h with h | h
    · obtain ⟨b, _, rfl⟩ := List.mem_map.mp h
      exact bitOf_le _ _
    · exact ih h

/-- A dot product of bits and weights is at most the sum of the weights. -/
theorem dot_le_sum (bits : List Nat) (w : Nat → Nat) (n : Nat) (hb : ∀ x ∈ bits, x ≤ 1) :
    ((bits.zipIdx n).map (fun p => p.1 * w p.2)).sum ≤ ((List.range' n bits.length).map w).sum := by
  induction bits generalizing n with
  | nil => simp
  | cons b rest ih =>
    have h1 : b ≤ 1 := hb b (by simp)
    have h2 := ih (n + 1) (fun x hx => hb x (by simp [hx]))
    simp only [List.zipIdx_cons, List.map_cons, List.sum_cons, List.length_cons, List.range'_succ]
    have h3 : b * w n ≤ 1 * w n := Nat.mul_le_mul_right _ h1
    omega

/-- T[s] as R81's sum over bytes and bits. -/
theorem tapDirect_eq_sum (D s : Nat) (win : List Byte) :
    tapDirect D s win =
      ((List.range win.length).map fun j =>
        ((List.range 8).map fun b => ((win.getD j 0).getLsbD (7 - b)).toNat * coef D s (8 * j + b)).sum).sum := by
  have key : ∀ (win : List Byte) (n : Nat),
      (((windowBits win).zipIdx (8 * n)).map (fun p => p.1 * coef D s p.2)).sum =
        ((List.range win.length).map fun j => ((List.range 8).map fun b =>
          ((win.getD j 0).getLsbD (7 - b)).toNat * coef D s (8 * (n + j) + b)).sum).sum := by
    intro win
    induction win with
    | nil => intro n; rfl
    | cons v rest ih =>
      intro n
      rw [windowBits_cons, List.zipIdx_append, List.map_append, List.sum_append]
      rw [show 8 * n + ((List.range 8).map fun b => bitOf v (7 - b)).length = 8 * (n + 1) by simp; ring, ih]
      rw [List.length_cons, List.range_succ_eq_map (n := rest.length), List.map_cons, List.sum_cons, List.map_map]
      have head : ((((List.range 8).map fun b => bitOf v (7 - b)).zipIdx (8 * n)).map fun p => p.1 * coef D s p.2).sum =
          ((List.range 8).map fun b => ((v :: rest).getD 0 0 |>.getLsbD (7 - b)).toNat * coef D s (8 * (n + 0) + b)).sum := by
        simp [List.range_succ, bitOf]
      rw [head]
      congr 2
      refine List.map_congr_left fun j _ => ?_
      simp [show n + 1 + j = n + (j + 1) by ring]
  unfold tapDirect
  have h := key win 0
  simp only [Nat.mul_zero, Nat.zero_add] at h
  exact h

/-- 0 ≤ T[s] ≤ rowsum_s for a window of D bits (R81). -/
theorem tapDirect_le (D s : Nat) (win : List Byte) (h : 8 * win.length = D) : tapDirect D s win ≤ rowSum D s := by
  have := dot_le_sum (windowBits win) (coef D s) 0 (fun x hx => mem_windowBits hx)
  rw [windowBits_length, h] at this
  unfold tapDirect rowSum
  rw [List.range_eq_range']
  exact this

end Sys2Proof.Machine
end

