-- ==== Sys2Proof/Laws/Ring.lean ====
section
/-! SUPPORT. The capture ring: slot arithmetic, the producer completion, and the filtering of a READ. -/

namespace Sys2Proof.Machine

/-! ### Slot arithmetic -/

theorem slotMod_toNat {b : Nat} (hb : 0 < b) (hb' : b ≤ 256) (x : Int) : ((slotMod b x).toNat : Int) = x % b := by
  have h1 := Int.emod_nonneg x (show (b : Int) ≠ 0 by omega)
  have h2 := Int.emod_lt_of_pos x (show (0 : Int) < b by omega)
  unfold slotMod
  rw [BitVec.toNat_ofInt]
  have : x % b % ((2 ^ 8 : Nat) : Int) = x % b := Int.emod_eq_of_lt h1 (by norm_num; omega)
  rw [this]; omega

theorem slotMod_lt {b : Nat} (hb : 0 < b) (hb' : b ≤ 256) (x : Int) : (slotMod b x).toNat < b := by
  have h1 := slotMod_toNat hb hb' x
  have h2 := Int.emod_lt_of_pos x (show (0 : Int) < b by omega)
  omega

/-- For a number that is not negative, the slot is the remainder. -/
theorem slotMod_natCast (b x : Nat) : slotMod b x = BitVec.ofNat 8 (x % b) := by
  apply BitVec.eq_of_toNat_eq
  unfold slotMod
  rw [BitVec.toNat_ofInt, BitVec.toNat_ofNat]
  norm_cast

theorem ringNorm_congr {b : Nat} {x y : Int} (h : x % b = y % b) : Machine.norm b x = Machine.norm b y := by
  unfold Machine.norm; rw [h]

theorem ringNorm_of_emod_zero {b : Nat} {x : Int} (hb : 0 < b) (h : x % b = 0) : Machine.norm b x = 0 := by
  unfold Machine.norm; simp [h, hb]

theorem ringNorm_natAbs_le {b : Nat} (hb : 0 < b) (x : Int) : 2 * (Machine.norm b x).natAbs ≤ b := by
  have h1 := Int.emod_nonneg x (show (b : Int) ≠ 0 by omega)
  have h2 := Int.emod_lt_of_pos x (show (0 : Int) < b by omega)
  unfold Machine.norm; simp only []; split <;> omega

theorem ringNorm_of_emod_one {b : Nat} {x : Int} (hb : 0 < b) (h : x % b = 1 % b) :
    (Machine.norm b x).natAbs ≤ 1 := by
  have : b = 1 ∨ b = 2 ∨ 3 ≤ b := by omega
  unfold Machine.norm; rw [h]
  rcases this with rfl | rfl | h3
  · decide
  · decide
  · rw [Int.emod_eq_of_lt (by omega) (by omega)]; simp only []; split <;> omega

/-! ### Producer completions -/

/-- A completion, and the count of its step. -/
theorem State.onDone_tick (s : State) (p : Transport) : s.tick.onDone p = (s.onDone p).tick := by
  unfold State.onDone State.collideCheck
  show (if s.status.running = false ∨ s.active.producers ≤ p.val then _ else _) = _
  split
  · rfl
  · dsimp only [State.notify, State.arm, State.drive, State.tick]
    cases s.sequencer with
    | idle => rfl
    | busy c wk => dsimp only; split <;> rfl

/-- A port write does nothing where its transport is not there, and writes the byte otherwise (R9, R98). -/
theorem State.portWrite_cases (s : State) (p : Transport) (off : BitVec 19) (b : Byte) :
    (s.active.producers ≤ p.val ∧ s.portWrite p off b = s) ∨
    (p.val < s.active.producers ∧ s.portWrite p off b = s.writeRing off.toNat b) := by
  unfold State.portWrite
  by_cases h : s.active.producers ≤ p.val
  · exact .inl ⟨h, if_pos h⟩
  · exact .inr ⟨by omega, if_neg h⟩

/-- A completion that is not taken changes nothing (R100, R108). -/
theorem State.onDone_ignored {s : State} {p : Transport} (h : s.status.running = false ∨ s.active.producers ≤ p.val) :
    s.onDone p = s := if_pos h

/-- A completion that is taken, field by field of the named updates (R100). -/
theorem State.onDone_taken {s : State} {p : Transport} (h : s.status.running = true) (hp : p.val < s.active.producers) :
    s.onDone p =
      ((({ s with w := slotMod s.active.slots (s.w.toNat + 1) }).arm p
        (rearmSlot s.active (slotMod s.active.slots (s.w.toNat + 1))).toNat).notify).collideCheck
        (rearmSlot s.active (slotMod s.active.slots (s.w.toNat + 1))) := by
  unfold State.onDone
  rw [if_neg (by simp [h]; omega)]

@[simp] theorem State.onDone_ctrl (s : State) (p : Transport) : (s.onDone p).ctrl = s.ctrl :=
  by
  unfold State.onDone; split <;> simp
@[simp] theorem State.onDone_result (s : State) (p : Transport) : (s.onDone p).result = s.result :=
  by
  unfold State.onDone; split <;> simp
@[simp] theorem State.onDone_cfg (s : State) (p : Transport) : (s.onDone p).cfg = s.cfg :=
  by
  unfold State.onDone; split <;> simp
@[simp] theorem State.onDone_active (s : State) (p : Transport) : (s.onDone p).active = s.active :=
  by
  unfold State.onDone; split <;> simp
@[simp] theorem State.onDone_consts (s : State) (p : Transport) : (s.onDone p).consts = s.consts :=
  by
  unfold State.onDone; split <;> simp
@[simp] theorem State.onDone_spm (s : State) (p : Transport) : (s.onDone p).spm = s.spm :=
  by
  unfold State.onDone; split <;> simp
@[simp] theorem State.onDone_slotBytes (s : State) (p : Transport) : (s.onDone p).slotBytes = s.slotBytes :=
  by
  unfold State.onDone; split <;> simp
@[simp] theorem State.onDone_r (s : State) (p : Transport) : (s.onDone p).r = s.r :=
  by
  unfold State.onDone; split <;> simp
@[simp] theorem State.onDone_filter (s : State) (p : Transport) : (s.onDone p).filter = s.filter :=
  by
  unfold State.onDone; split <;> simp
@[simp] theorem State.onDone_sequencer (s : State) (p : Transport) : (s.onDone p).sequencer = s.sequencer :=
  by
  unfold State.onDone; split <;> simp
@[simp] theorem State.onDone_ring (s : State) (p : Transport) : (s.onDone p).ring = s.ring :=
  by
  unfold State.onDone; split <;> simp
@[simp] theorem State.onDone_scratch (s : State) (p : Transport) : (s.onDone p).scratch = s.scratch :=
  by
  unfold State.onDone; split <;> simp
@[simp] theorem State.onDone_pcm (s : State) (p : Transport) : (s.onDone p).pcm = s.pcm :=
  by
  unfold State.onDone; split <;> simp
@[simp] theorem State.onDone_pins (s : State) (p : Transport) : (s.onDone p).pins = s.pins :=
  by
  unfold State.onDone; split <;> simp
@[simp] theorem State.onDone_events (s : State) (p : Transport) : (s.onDone p).events = s.events :=
  by
  unfold State.onDone; split <;> simp
@[simp] theorem State.onDone_draws (s : State) (p : Transport) : (s.onDone p).draws = s.draws :=
  by
  unfold State.onDone; split <;> simp
@[simp] theorem State.onDone_powerOn (s : State) (p : Transport) : (s.onDone p).powerOn = s.powerOn :=
  by
  unfold State.onDone; split <;> simp

@[simp] theorem State.onDone_inited (s : State) (p : Transport) : (s.onDone p).status.inited = s.status.inited := by
  unfold State.onDone; split <;> simp
@[simp] theorem State.onDone_running (s : State) (p : Transport) : (s.onDone p).status.running = s.status.running := by
  unfold State.onDone; split <;> simp
@[simp] theorem State.onDone_err (s : State) (p : Transport) : (s.onDone p).status.err = s.status.err := by
  unfold State.onDone; split <;> simp

/-! ### The filtering of a READ -/

/-- The windows of block `k` are the windows k·spm, k·spm + 1, ... of the channel's stream (R80, R106). -/
theorem State.blockWindows_eq (s : State) (c k : Nat) :
    s.blockWindows c (k * s.active.spm * s.active.windowBytes) =
      (List.range s.active.spm).map fun i => s.window c 0 (k * s.active.spm + i) := by
  unfold State.blockWindows
  apply List.map_congr_left
  intro i _
  unfold State.window
  apply List.map_congr_left
  intro j _
  congr 1
  ring

theorem State.window_congr {s t : State} (ha : t.active = s.active) (hs : t.scratch = s.scratch)
    (hp : t.powerOn = s.powerOn) (c src i : Nat) : t.window c src i = s.window c src i := by
  unfold State.window
  rw [ha]
  apply List.map_congr_left
  intro j _
  exact State.memByte_congr (sp := .scratch) hs hp _

/-- decodeChannel, block by block. -/
def State.decodeBlocks (n : Nat) (s : State) (c q : Nat) : State :=
  (List.range q).foldl
    (fun t k => t.decodeBlock c (k * t.active.spm * t.active.windowBytes) (c * n + k * t.active.spm)) s

theorem State.decodeChannel_eq_blocks (n : Nat) (s : State) (c : Nat) :
    s.decodeChannel n c = s.decodeBlocks n c (n / s.active.spm) := rfl

theorem State.decodeBlocks_succ (n : Nat) (s : State) (c q : Nat) :
    s.decodeBlocks n c (q + 1) =
      (s.decodeBlocks n c q).decodeBlock c
        (q * (s.decodeBlocks n c q).active.spm * (s.decodeBlocks n c q).active.windowBytes)
        (c * n + q * (s.decodeBlocks n c q).active.spm) := by
  unfold State.decodeBlocks
  rw [List.range_succ, List.foldl_append]
  rfl

/-- The blocks of one channel write F and PCM and nothing else. -/
theorem State.decodeBlocks_eq (n : Nat) (s : State) (c q : Nat) :
    s.decodeBlocks n c q =
      { s with filter := (s.decodeBlocks n c q).filter, pcm := (s.decodeBlocks n c q).pcm } := by
  induction q with
  | zero => rfl
  | succ q ih =>
    rw [State.decodeBlocks_succ]
    generalize s.decodeBlocks n c q = u at ih ⊢
    rw [ih]; rfl

/-- What the first `q` blocks of channel `c` leave: F[c] and the samples of a run over the channel's first q·spm windows,
every other channel's F, and every PCM byte outside the samples (R87, R106). -/
theorem State.decodeBlocks_spec (n : Nat) (s : State) {c : Nat} (hc : c < 4) (q : Nat) :
    let t := s.decodeBlocks n c q
    let out := filterRun s.consts s.ctrl.strategy s.active.decim (s.filterAt c)
      ((List.range (q * s.active.spm)).map (s.window c 0))
    t.filterAt c = out.1 ∧ (∀ i < q * s.active.spm, out.2[i]? = some (t.pcmSample (c * n + i))) ∧
    (∀ c', c' ≠ c → t.filterAt c' = s.filterAt c') ∧
    ∀ o, o < 2 * (c * n) ∨ 2 * (c * n + q * s.active.spm) ≤ o → t.memByte .pcm o = s.memByte .pcm o := by
  induction q with
  | zero =>
    refine ⟨by simp [State.decodeBlocks], by simp, fun _ _ => rfl, fun _ _ => rfl⟩
  | succ q ih =>
    obtain ⟨h1, h2, h3, h4⟩ := ih
    have hu := State.decodeBlocks_eq n s c q
    rw [State.decodeBlocks_succ]
    generalize s.decodeBlocks n c q = u at h1 h2 h3 h4 hu ⊢
    have ea : u.active = s.active := by rw [hu]
    have ek : u.consts = s.consts := by rw [hu]
    have ec : u.ctrl = s.ctrl := by rw [hu]
    have es : u.scratch = s.scratch := by rw [hu]
    have ep : u.powerOn = s.powerOn := by rw [hu]
    have e : (q + 1) * s.active.spm = q * s.active.spm + s.active.spm := by ring
    have eo : u.blockOut c (q * u.active.spm * u.active.windowBytes) =
        filterRun s.consts s.ctrl.strategy s.active.decim (u.filterAt c)
          ((List.range s.active.spm).map fun i => s.window c 0 (q * s.active.spm + i)) := by
      unfold State.blockOut
      rw [State.blockWindows_eq, ea, ek, ec]
      congr 1
      apply List.map_congr_left
      intro i _
      exact State.window_congr ea es ep _ _ _
    have er : (List.range ((q + 1) * s.active.spm)).map (s.window c 0) =
        (List.range (q * s.active.spm)).map (s.window c 0) ++
          (List.range s.active.spm).map fun i => s.window c 0 (q * s.active.spm + i) := by
      rw [e, List.range_add, List.map_append, List.map_map]; rfl
    simp only []
    rw [er, filterRun_append, ← h1, ← eo]
    refine ⟨?_, ?_, ?_, ?_⟩
    · rw [State.decodeBlock_filterAt _ hc, if_pos rfl]
    · intro i hi
      have hl : (filterRun s.consts s.ctrl.strategy s.active.decim (s.filterAt c)
          ((List.range (q * s.active.spm)).map (s.window c 0))).2.length = q * s.active.spm := by simp
      by_cases hq : i < q * s.active.spm
      · rw [List.getElem?_append_left (by rw [hl]; exact hq), h2 i hq]
        congr 1
        unfold State.pcmSample
        rw [State.decodeBlock_pcm_outside _ _ _ _ (by rw [ea]; omega),
          State.decodeBlock_pcm_outside _ _ _ _ (by rw [ea]; omega)]
      · have hx : i - q * s.active.spm < u.active.spm := by rw [ea]; omega
        rw [List.getElem?_append_right (by rw [hl]; omega), hl,
          List.getElem?_eq_getElem (by rw [State.blockOut_length]; exact hx), ← State.decodeBlock_pcmSample u c _ _ _ hx]
        congr 2
        rw [ea]; omega
    · intro c' hc'
      rw [State.decodeBlock_filterAt _ hc, if_neg hc', h3 c' hc']
    · intro o ho
      rw [State.decodeBlock_pcm_outside _ _ _ _ (by rw [ea]; omega), h4 o (by omega)]


/-- A channel's filtering writes F and PCM and nothing else. -/
theorem State.decodeChannel_eq (n : Nat) (s : State) (c : Nat) :
    s.decodeChannel n c =
      { s with filter := (s.decodeChannel n c).filter, pcm := (s.decodeChannel n c).pcm } :=
  State.decodeBlocks_eq n s c _

/-- What the filtering of the first `m` channels leaves (R106). -/
theorem State.decodeChannels_spec (n : Nat) (s : State) (hn : n / s.active.spm * s.active.spm = n) (m : Nat)
    (hm : m ≤ 4) :
    let t := (List.range m).foldl (State.decodeChannel n) s
    let out (c : Nat) := filterRun s.consts s.ctrl.strategy s.active.decim (s.filterAt c)
      ((List.range n).map (s.window c 0))
    t = { s with filter := t.filter, pcm := t.pcm } ∧
    (∀ c < m, t.filterAt c = (out c).1 ∧ ∀ i < n, (out c).2[i]? = some (t.pcmSample (c * n + i))) ∧
    (∀ c, m ≤ c → t.filterAt c = s.filterAt c) ∧
    ∀ o, 2 * (m * n) ≤ o → t.memByte .pcm o = s.memByte .pcm o := by
  induction m with
  | zero => exact ⟨rfl, fun _ h => absurd h (by omega), fun _ _ => rfl, fun _ _ => rfl⟩
  | succ m ih =>
    obtain ⟨h1, h2, h3, h4⟩ := ih (by omega)
    rw [List.range_succ, List.foldl_append]
    simp only [List.foldl_cons, List.foldl_nil]
    generalize (List.range m).foldl (State.decodeChannel n) s = u at h1 h2 h3 h4 ⊢
    have ea : u.active = s.active := by rw [h1]
    have ek : u.consts = s.consts := by rw [h1]
    have ec : u.ctrl = s.ctrl := by rw [h1]
    have es : u.scratch = s.scratch := by rw [h1]
    have ep : u.powerOn = s.powerOn := by rw [h1]
    obtain ⟨g1, g2, g3, g4⟩ := State.decodeBlocks_spec n u (show m < 4 by omega) (n / u.active.spm)
    rw [← State.decodeChannel_eq_blocks] at g1 g2 g3 g4
    simp only [ea, hn, ek, ec] at g1 g2 g3 g4
    have ew : ∀ c, (List.range n).map (u.window c 0) = (List.range n).map (s.window c 0) := by
      intro c
      apply List.map_congr_left
      intro i _
      exact State.window_congr ea es ep _ _ _
    rw [ew, h3 m (by omega)] at g1 g2
    have e : (m + 1) * n = m * n + n := by ring
    refine ⟨?_, ?_, ?_, ?_⟩
    · rw [State.decodeChannel_eq n u m, h1]
    · intro c hc
      by_cases hcm : c = m
      · subst hcm; exact ⟨g1, g2⟩
      · have hlt : c < m := by omega
        have hb : (c + 1) * n ≤ m * n := Nat.mul_le_mul_right _ hlt
        have hb' : (c + 1) * n = c * n + n := by ring
        refine ⟨by rw [g3 c hcm, (h2 c hlt).1], fun i hi => ?_⟩
        rw [(h2 c hlt).2 i hi]
        congr 1
        unfold State.pcmSample
        rw [g4 _ (by omega), g4 _ (by omega)]
    · intro c hc
      rw [g3 c (by omega), h3 c (by omega)]
    · intro o ho
      rw [g4 o (by omega), h4 o (by omega)]

/-- decodeAll writes F and PCM and nothing else. -/
theorem State.decodeAll_eq (n : Nat) (s : State) :
    s.decodeAll n = { s with filter := (s.decodeAll n).filter, pcm := (s.decodeAll n).pcm } := by
  unfold State.decodeAll
  generalize s.active.channels = m
  induction m with
  | zero => rfl
  | succ m ih =>
    rw [List.range_succ, List.foldl_append]
    simp only [List.foldl_cons, List.foldl_nil]
    generalize (List.range m).foldl (State.decodeChannel n) s = u at ih ⊢
    rw [State.decodeChannel_eq n u m, ih]

@[simp] theorem State.decodeAll_ctrl (n : Nat) (s : State) : (s.decodeAll n).ctrl = s.ctrl := by
  rw [State.decodeAll_eq]
@[simp] theorem State.decodeAll_status (n : Nat) (s : State) : (s.decodeAll n).status = s.status := by
  rw [State.decodeAll_eq]
@[simp] theorem State.decodeAll_result (n : Nat) (s : State) : (s.decodeAll n).result = s.result := by
  rw [State.decodeAll_eq]
@[simp] theorem State.decodeAll_cfg (n : Nat) (s : State) : (s.decodeAll n).cfg = s.cfg := by
  rw [State.decodeAll_eq]
@[simp] theorem State.decodeAll_active (n : Nat) (s : State) : (s.decodeAll n).active = s.active := by
  rw [State.decodeAll_eq]
@[simp] theorem State.decodeAll_consts (n : Nat) (s : State) : (s.decodeAll n).consts = s.consts := by
  rw [State.decodeAll_eq]
@[simp] theorem State.decodeAll_spm (n : Nat) (s : State) : (s.decodeAll n).spm = s.spm := by
  rw [State.decodeAll_eq]
@[simp] theorem State.decodeAll_slotBytes (n : Nat) (s : State) : (s.decodeAll n).slotBytes = s.slotBytes := by
  rw [State.decodeAll_eq]
@[simp] theorem State.decodeAll_w (n : Nat) (s : State) : (s.decodeAll n).w = s.w := by
  rw [State.decodeAll_eq]
@[simp] theorem State.decodeAll_r (n : Nat) (s : State) : (s.decodeAll n).r = s.r := by
  rw [State.decodeAll_eq]
@[simp] theorem State.decodeAll_wc (n : Nat) (s : State) : (s.decodeAll n).wc = s.wc := by
  rw [State.decodeAll_eq]
@[simp] theorem State.decodeAll_armed (n : Nat) (s : State) : (s.decodeAll n).armed = s.armed := by
  rw [State.decodeAll_eq]
@[simp] theorem State.decodeAll_completions (n : Nat) (s : State) : (s.decodeAll n).completions = s.completions := by
  rw [State.decodeAll_eq]
@[simp] theorem State.decodeAll_sequencer (n : Nat) (s : State) : (s.decodeAll n).sequencer = s.sequencer := by
  rw [State.decodeAll_eq]
@[simp] theorem State.decodeAll_ring (n : Nat) (s : State) : (s.decodeAll n).ring = s.ring := by
  rw [State.decodeAll_eq]
@[simp] theorem State.decodeAll_scratch (n : Nat) (s : State) : (s.decodeAll n).scratch = s.scratch := by
  rw [State.decodeAll_eq]
@[simp] theorem State.decodeAll_pins (n : Nat) (s : State) : (s.decodeAll n).pins = s.pins := by
  rw [State.decodeAll_eq]
@[simp] theorem State.decodeAll_events (n : Nat) (s : State) : (s.decodeAll n).events = s.events := by
  rw [State.decodeAll_eq]
@[simp] theorem State.decodeAll_outputs (n : Nat) (s : State) : (s.decodeAll n).outputs = s.outputs := by
  rw [State.decodeAll_eq]
@[simp] theorem State.decodeAll_draws (n : Nat) (s : State) : (s.decodeAll n).draws = s.draws := by
  rw [State.decodeAll_eq]
@[simp] theorem State.decodeAll_powerOn (n : Nat) (s : State) : (s.decodeAll n).powerOn = s.powerOn := by
  rw [State.decodeAll_eq]

/-- READ's count is a whole number of blocks, and at most SBS (R106). -/
theorem readCount_blocks {a : Configuration} (h : initCheck a = none) (nreq : Nat) :
    readCount a nreq / a.spm * a.spm = readCount a nreq ∧ readCount a nreq ≤ a.samples := by
  obtain ⟨-, h2, -, h4, -⟩ := (initCheck_eq_none a).mp h
  refine ⟨?_, Nat.min_le_right _ _⟩
  apply Nat.div_mul_cancel
  unfold readCount
  rcases Nat.le_total (nreq / a.spm * a.spm) a.samples with hl | hl
  · rw [Nat.min_eq_left hl]; exact Nat.dvd_mul_left _ _
  · rw [Nat.min_eq_right hl]; exact Nat.dvd_of_mod_eq_zero h4

/-- A block of channel c < 4 keeps PCM in canonical form where it fits. -/
theorem State.decodeBlock_wf (s : State) (c src dst : Nat) (h : s.pcm.wf Config.pcmBytes = true)
    (hd : 2 * (dst + s.active.spm) ≤ Config.pcmBytes) : (s.decodeBlock c src dst).pcm.wf Config.pcmBytes = true := by
  rw [State.decodeBlock_pcm]
  apply Memory.wf_writeRun h
  rw [flatMap_sampleBytes_length, State.blockOut_length]
  omega

/-- The filtering of a READ keeps PCM in canonical form. -/
theorem State.decodeAll_wf (s : State) (nreq : Nat) (h : initCheck s.active = none)
    (hw : s.pcm.wf Config.pcmBytes = true) :
    (s.decodeAll (readCount s.active nreq)).pcm.wf Config.pcmBytes = true := by
  obtain ⟨hb, hn⟩ := readCount_blocks h nreq
  have hp := pcm_fits h hn
  generalize readCount s.active nreq = n at hb hn hp
  have hP : Config.pcmBytes = 16384 := rfl
  have block : ∀ (u : State) (c q : Nat), u.active = s.active → u.pcm.wf Config.pcmBytes = true →
      c < s.active.channels → q ≤ n / s.active.spm → (u.decodeBlocks n c q).pcm.wf Config.pcmBytes = true := by
    intro u c q ha hu hc
    induction q with
    | zero => exact fun _ => hu
    | succ q ih =>
      intro hq
      rw [State.decodeBlocks_succ]
      have ea : (u.decodeBlocks n c q).active = s.active := by rw [State.decodeBlocks_eq]; exact ha
      apply State.decodeBlock_wf _ _ _ _ (ih (by omega))
      rw [ea]
      have h1 : (q + 1) * s.active.spm ≤ n := by rw [← hb]; exact Nat.mul_le_mul_right _ hq
      have h2 : (c + 1) * n ≤ s.active.channels * n := Nat.mul_le_mul_right _ hc
      have h3 : (q + 1) * s.active.spm = q * s.active.spm + s.active.spm := by ring
      have h4 : (c + 1) * n = c * n + n := by ring
      omega
  unfold State.decodeAll
  have key : ∀ m ≤ s.active.channels,
      ((List.range m).foldl (State.decodeChannel n) s).active = s.active ∧
      ((List.range m).foldl (State.decodeChannel n) s).pcm.wf Config.pcmBytes = true := by
    intro m
    induction m with
    | zero => exact fun _ => ⟨rfl, hw⟩
    | succ m ih =>
      intro hm
      obtain ⟨h1, h2⟩ := ih (by omega)
      rw [List.range_succ, List.foldl_append]
      simp only [List.foldl_cons, List.foldl_nil]
      refine ⟨by rw [State.decodeChannel_eq]; exact h1, ?_⟩
      rw [State.decodeChannel_eq_blocks, h1]
      exact block _ m _ h1 h2 (by omega) (Nat.le_refl _)
  exact (key _ (Nat.le_refl _)).2

end Sys2Proof.Machine
end

