-- ==== Sys2Proof/Laws/Exec.lean ====
section
/-! SUPPORT. Everything a command can answer: for each, the checks that fail in their order, and the effect. -/

namespace Sys2Proof.Machine

/-- The codes of INIT's validation (R113, R121). -/
theorem initCheck_code {a : Configuration} {e : ErrCode} (h : initCheck a = some e) : e = .config ∨ e = .resource := by
  unfold initCheck at h
  split at h
  · cases h; exact .inl rfl
  split at h
  · cases h; exact .inl rfl
  split at h
  · cases h; exact .inl rfl
  split at h
  · cases h; exact .inr rfl
  split at h
  · cases h; exact .inl rfl
  split at h
  · cases h; exact .inr rfl
  split at h
  · cases h; exact .inl rfl
  · cases h

/-- INIT: refused while RUNNING, refused by validation, or a new session (R113). -/
theorem execInit_cases (s : State) :
    (s.status.running = true ∧ exec .init s = .next (s.finish .state)) ∨
    (s.status.running = false ∧ ∃ e, initCheck s.cfg = some e ∧
      exec .init s = .next (({ s with status := { s.status with inited := false } }).finish e)) ∨
    (s.status.running = false ∧ initCheck s.cfg = none ∧ exec .init s = .next (s.newSession.finish .ok)) := by
  cases hr : s.status.running with
  | true => exact .inl ⟨rfl, by show execInit s = _; simp [execInit, hr, State.fail]⟩
  | false =>
    cases hc : initCheck s.cfg with
    | none => exact .inr (.inr ⟨rfl, rfl, by show execInit s = _; simp [execInit, hr, hc, State.done]⟩)
    | some e => exact .inr (.inl ⟨rfl, e, rfl, by show execInit s = _; simp [execInit, hr, hc, State.fail]⟩)

/-- START's state past its checks, before its outcome (R114). -/
def State.started (s : State) : State :=
  let t := ({ s with w := 0, r := 0, wc := Vector.replicate 2 0 }).armFirst
  { t with status := { t.status with running := true } }

/-- START: one of its four failures, or the armed session (R114). -/
theorem execStart_cases (s : State) :
    (s.startOk = false ∧ ∃ e, e ≠ .ok ∧ exec .start s = .next (s.finish e)) ∨
    (s.startOk = true ∧ s.status.inited = true ∧ s.status.running = false ∧
      exec .start s = .next (s.started.finish .ok)) := by
  show (_ ∧ ∃ e, _ ∧ execStart s = _) ∨ _ ∧ _ ∧ _ ∧ execStart s = _
  unfold execStart State.startOk
  cases hi : s.status.inited with
  | false => exact .inl ⟨rfl, .notInit, by decide, rfl⟩
  | true =>
    cases hr : s.status.running with
    | true => exact .inl ⟨rfl, .state, by decide, rfl⟩
    | false =>
      cases hx : s.xportsAvailable with
      | false => exact .inl ⟨rfl, .resource, by decide, rfl⟩
      | true =>
        cases hn : s.work.pins.notifyOk with
        | false => exact .inl ⟨rfl, .hardware, by decide, rfl⟩
        | true => exact .inr ⟨rfl, rfl, rfl, rfl⟩

/-- STOP's state, before its outcome (R115). -/
def State.stopped (s : State) : State :=
  let t := s.disarmAll
  { t with armed := Vector.replicate 2 false, status := { t.status with running := false } }

/-- STOP: a no-op when stopped, or the disarmed session (R115). -/
theorem execStop_cases (s : State) :
    (s.status.running = false ∧ exec .stop s = .next (s.finish .ok)) ∨
    (s.status.running = true ∧ exec .stop s = .next (s.stopped.finish .ok)) := by
  show _ ∧ execStop s = _ ∨ _ ∧ execStop s = _
  unfold execStop
  cases hr : s.status.running with
  | true => exact .inr ⟨rfl, rfl⟩
  | false => exact .inl ⟨rfl, rfl⟩

/-- READ: NOT_INIT, nothing new, or a slot consumed (R106). -/
theorem execRead_cases (s : State) (nreq : Nat) :
    (s.status.inited = false ∧ exec (.read nreq) s = .next (s.finish .notInit)) ∨
    (s.status.inited = true ∧ select s.active s.r s.work.wSnap = none ∧
      exec (.read nreq) s = .next (({ s with result := ⟨0, false, false, s.r⟩ }).finish .ok)) ∨
    (s.status.inited = true ∧ ∃ sel, select s.active s.r s.work.wSnap = some sel ∧
      exec (.read nreq) s =
        .next (({ (s.demuxSlot sel.slot.toNat).decodeAll (readCount s.active nreq) with
          r := slotMod s.active.slots (sel.slot.toNat + 1)
          result := ⟨BitVec.ofNat 16 (readCount s.active nreq), true, sel.rebased, sel.slot⟩ }).finish .ok)) := by
  show _ ∧ execRead nreq s = _ ∨ _ ∧ _ ∧ execRead nreq s = _ ∨ _ ∧ ∃ sel, _ ∧ execRead nreq s = _
  unfold execRead
  cases hi : s.status.inited with
  | false => exact .inl ⟨rfl, rfl⟩
  | true =>
    cases hs : select s.active s.r s.work.wSnap with
    | none => exact .inr (.inl ⟨rfl, rfl, rfl⟩)
    | some sel => exact .inr (.inr ⟨rfl, sel, rfl, rfl⟩)

/-- SET_VOLUME, SET_GAIN, SET_MAXVOL: a failure, or new constants (R116-R118). -/
theorem execSetVolume_cases (s : State) (v : Nat) :
    (s.status.inited = false ∧ exec (.setVolume v) s = .next (s.finish .notInit)) ∨
    (s.status.inited = true ∧ exec (.setVolume v) s =
      .next (({ s with consts := { s.consts with volume := BitVec.ofNat 16 v } }).finish .ok)) := by
  show _ ∧ execSetVolume v s = _ ∨ _ ∧ execSetVolume v s = _
  unfold execSetVolume
  cases hi : s.status.inited with
  | false => exact .inl ⟨rfl, rfl⟩
  | true => exact .inr ⟨rfl, rfl⟩

theorem execSetGain_cases (s : State) (g : Nat) :
    (∃ e, e ≠ .ok ∧ exec (.setGain g) s = .next (s.finish e)) ∨
    (s.status.inited = true ∧ g ≠ 0 ∧ exec (.setGain g) s =
      .next (({ s with consts := { s.consts with
        gain := BitVec.ofNat 16 g
        divConst := BitVec.ofNat 32 (divConstOf s.consts.subConst.toNat s.consts.maxvol.toNat g) } }).finish .ok)) := by
  show (∃ e, _ ∧ execSetGain g s = _) ∨ _ ∧ _ ∧ execSetGain g s = _
  unfold execSetGain
  cases hi : s.status.inited with
  | false => exact .inl ⟨.notInit, by decide, rfl⟩
  | true =>
    by_cases hg : g = 0
    · exact .inl ⟨.config, by decide, by simp [hg, State.fail]⟩
    · exact .inr ⟨rfl, hg, by simp [hg, State.done]⟩

theorem execSetMaxvol_cases (s : State) (m : Nat) :
    (s.status.inited = false ∧ exec (.setMaxvol m) s = .next (s.finish .notInit)) ∨
    (s.status.inited = true ∧ exec (.setMaxvol m) s =
      .next (({ s with consts := { s.consts with
        maxvol := BitVec.ofNat 16 m
        divConst := BitVec.ofNat 32 (divConstOf s.consts.subConst.toNat m s.consts.gain.toNat) } }).finish .ok)) := by
  show _ ∧ execSetMaxvol m s = _ ∨ _ ∧ execSetMaxvol m s = _
  unfold execSetMaxvol
  cases hi : s.status.inited with
  | false => exact .inl ⟨rfl, rfl⟩
  | true => exact .inr ⟨rfl, rfl⟩

/-- FRESET: NOT_INIT, or one channel zeroed (R89). -/
theorem execFreset_cases (s : State) (c : Nat) :
    (s.status.inited = false ∧ exec (.freset c) s = .next (s.finish .notInit)) ∨
    (s.status.inited = true ∧ exec (.freset c) s = .next ((s.setFilter c .zero).finish .ok)) := by
  show _ ∧ execFreset c s = _ ∨ _ ∧ execFreset c s = _
  unfold execFreset
  cases hi : s.status.inited with
  | false => exact .inl ⟨rfl, rfl⟩
  | true => exact .inr ⟨rfl, rfl⟩

/-- DEMUX: a failure, or one slot demultiplexed (R97). -/
theorem execDemux_cases (s : State) (n : Nat) :
    (∃ e, e ≠ .ok ∧ exec (.demux n) s = .next (s.finish e)) ∨
    (s.status.inited = true ∧ n < s.active.slots ∧ exec (.demux n) s = .next ((s.demuxSlot n).finish .ok)) := by
  show (∃ e, _ ∧ execDemux n s = _) ∨ _ ∧ _ ∧ execDemux n s = _
  unfold execDemux demuxOperandOk
  cases hi : s.status.inited with
  | false => exact .inl ⟨.notInit, by decide, rfl⟩
  | true =>
    by_cases hn : n < s.active.slots
    · exact .inr ⟨rfl, hn, by simp [hn, State.done]⟩
    · exact .inl ⟨.arg, by decide, by simp [hn, State.fail]⟩

/-- DECODE: a failure, or one block filtered (R88). -/
theorem execDecode_cases (s : State) (c k : Nat) :
    (∃ e, e ≠ .ok ∧ exec (.decode c k) s = .next (s.finish e)) ∨
    (s.status.inited = true ∧ c < s.active.channels ∧ (k + 1) * s.active.spm ≤ s.active.samples ∧
      exec (.decode c k) s =
        .next ((s.decodeBlock c (k * s.active.spm * s.active.windowBytes) 0).finish .ok)) := by
  show (∃ e, _ ∧ execDecode c k s = _) ∨ _ ∧ _ ∧ _ ∧ execDecode c k s = _
  unfold execDecode decodeOperandsOk
  cases hi : s.status.inited with
  | false => exact .inl ⟨.notInit, by decide, rfl⟩
  | true =>
    by_cases hn : c < s.active.channels ∧ (k + 1) * s.active.spm ≤ s.active.samples
    · exact .inr ⟨rfl, hn.1, hn.2, by simp [hn.1, hn.2, State.done]⟩
    · refine .inl ⟨.arg, by decide, ?_⟩
      have : (decide (c < s.active.channels) && decide ((k + 1) * s.active.spm ≤ s.active.samples)) = false := by
        simp only [Bool.and_eq_false_iff, decide_eq_false_iff_not]; tauto
      simp [this, State.fail]

/-! ### What the session commands write, field by field of what they leave -/

theorem State.started_eq (s : State) :
    s.started = { s with
      w := 0, r := 0, wc := s.started.wc, armed := s.started.armed, outputs := s.started.outputs
      status := { s.status with running := true } } := by
  unfold State.started State.armFirst; dsimp only; split <;> rfl

theorem State.stopped_eq (s : State) :
    s.stopped = { s with
      armed := Vector.replicate 2 false, outputs := s.stopped.outputs
      status := { s.status with running := false } } := by
  unfold State.stopped State.disarmAll; dsimp only; split <;> rfl

/-- What START arms (R99, R114). -/
theorem State.started_armed (s : State) :
    s.started.armed[0] = true ∧ s.started.armed[1] = (s.active.nprod || s.armed[1]) ∧
    s.started.wc[0] = 0 ∧ s.started.wc[1] = if s.active.nprod then 1 else 0 := by
  unfold State.started State.armFirst
  dsimp only
  cases hn : s.active.nprod <;> simp [State.arm, State.drive]

end Sys2Proof.Machine
end

