-- ==== Sys2Proof/Laws/Step.lean ====
section
/-! SUPPORT. Everything a step can do: which event comes next, and what each event does. -/

namespace Sys2Proof.Machine

/-- A step rests, or takes the next event (log 1, log 2). -/
theorem step_cases (s : State) :
    (s.nextEvent = none ∧ step s = .next s) ∨
    ∃ e es, s.nextEvent = some (e, es) ∧ step s = takeEvent e { s with events := es } := by
  unfold step State.advance
  cases h : s.nextEvent with
  | none => exact .inl ⟨rfl, rfl⟩
  | some p => exact .inr ⟨p.1, p.2, rfl, rfl⟩

/-- Which event comes next. -/
theorem nextEvent_cases {s : State} {e : Event} {es : List Event} (h : s.nextEvent = some (e, es)) :
    s.events = e :: es ∨ (s.events = [] ∧ s.busy = true ∧ e = .complete ∧ es = []) := by
  unfold State.nextEvent at h
  cases he : s.events with
  | nil =>
    rw [he] at h
    cases hb : s.busy with
    | true => rw [hb] at h; cases h; exact .inr ⟨rfl, rfl, rfl, rfl⟩
    | false => rw [hb] at h; cases h
  | cons e' es' => rw [he] at h; cases h; exact .inl rfl

/-- A host read leaves a response and nothing else; so does a poll, with the events it puts back. -/
theorem State.hostRead_cases (s : State) (w : Width) (a : BitVec 20) :
    ∃ v error, s.hostRead w a = s.drive (.response v error) := by
  unfold State.hostRead
  cases s.readData w a.toNat with
  | none => exact ⟨_, _, rfl⟩
  | some v => exact ⟨_, _, rfl⟩

theorem State.hostPoll_cases (s : State) :
    ∃ v error es, s.hostPoll = { s.drive (.response v error) with events := es } := by
  obtain ⟨v, error, h⟩ := s.hostRead_cases .word statusAddr
  unfold State.hostPoll
  dsimp only
  rw [h]
  split
  · exact ⟨v, error, _, rfl⟩
  · exact ⟨v, error, _, rfl⟩

/-- The sequencer's completion step (R109). -/
theorem State.completeCommand_cases (s : State) :
    (s.sequencer = .idle ∧ s.completeCommand = .next s) ∨
    (∃ cmd wk i, s.sequencer = .busy cmd wk ∧ decode cmd = .ok i ∧ s.completeCommand = exec i s) ∨
    (∃ cmd wk e, s.sequencer = .busy cmd wk ∧ decode cmd = .error e ∧
      s.completeCommand = .next (s.finish .illegalCmd)) := by
  unfold State.completeCommand
  cases hs : s.sequencer with
  | idle => exact .inl ⟨rfl, rfl⟩
  | busy cmd wk =>
    cases hd : decode cmd with
    | ok i => exact .inr (.inl ⟨cmd, wk, i, rfl, hd, by simp [hd]⟩)
    | error e => exact .inr (.inr ⟨cmd, wk, e, rfl, hd, by simp [hd, State.fail]⟩)

/-- Every event, as an update of the state; only a completion can be a command's. -/
theorem takeEvent_cases (e : Event) (s : State) :
    (∃ v error, takeEvent e s = .next (s.drive (.response v error))) ∨
    (∃ w a v, takeEvent e s = .next (s.tick.hostWrite w a v)) ∨
    (∃ v error es, takeEvent e s = .next { s.drive (.response v error) with events := es }) ∨
    (∃ p off b, takeEvent e s = .next (s.tick.portWrite p off b)) ∨
    (∃ p, takeEvent e s = .next (s.tick.onDone p)) ∨
    (∃ v p, takeEvent e s = .next ((s.tick.hostWrite .word statusAddr v).onDone p)) ∨
    (∃ ps, takeEvent e s = .next { s.tick with pins := ps }) ∨
    (e = .complete ∧ takeEvent e s = s.tick.completeCommand) ∨
    (e = .reset ∧ takeEvent e s = .next s.tick.resetNow) := by
  cases e with
  | rd w a => obtain ⟨v, er, h⟩ := s.hostRead_cases w a; exact .inl ⟨v, er, congrArg _ h⟩
  | wr w a v => exact .inr (.inl ⟨w, a, v, rfl⟩)
  | wait => obtain ⟨v, er, es, h⟩ := s.hostPoll_cases; exact .inr (.inr (.inl ⟨v, er, es, congrArg _ h⟩))
  | portWrite p off b => exact .inr (.inr (.inr (.inl ⟨p, off, b, rfl⟩)))
  | done p => exact .inr (.inr (.inr (.inr (.inl ⟨p, rfl⟩))))
  | statusWriteWithDone v p => exact .inr (.inr (.inr (.inr (.inr (.inl ⟨v, p, rfl⟩)))))
  | pins ps => exact .inr (.inr (.inr (.inr (.inr (.inr (.inl ⟨ps, rfl⟩))))))
  | complete => exact .inr (.inr (.inr (.inr (.inr (.inr (.inr (.inl ⟨rfl, rfl⟩)))))))
  | reset => exact .inr (.inr (.inr (.inr (.inr (.inr (.inr (.inr ⟨rfl, rfl⟩)))))))

/-- The write of STATUS (R24): its flags and its response. -/
theorem State.hostWrite_status (s : State) (v : Word) :
    s.hostWrite .word statusAddr v = (s.clearFlags v).respond 0 := rfl

end Sys2Proof.Machine
end

