-- ==== Sys2Proof/Laws/Invariant.lean ====
section
/-! SUPPORT. What keeps the parts of the invariant: updates of other state, RING writes, completions of transports. -/

namespace Sys2Proof.Machine

/-- The invariant looks at these fields only. -/
theorem State.Inv.of_eq {s t : State} (h : s.Inv) (hm : t.memoryWf = true)
    (hr : t.status.running = s.status.running) (hi : t.status.inited = s.status.inited) (ha : t.active = s.active)
    (hc : t.consts = s.consts) (hs : t.spm = s.spm) (hb : t.slotBytes = s.slotBytes) (hcu : s.status.inited = true →
      t.cursorsInRange) (harm : t.armed = s.armed) (hsel : t.selectionOk) : t.Inv where
  memory := hm
  running_inited := by rw [hr, hi]; exact h.running_inited
  legal := by rw [hi, ha]; exact h.legal
  consts := by
    rw [hi]
    intro hh
    obtain ⟨h1, h2, h3, h4, h5, h6, h7, h8, h9⟩ := h.consts hh
    exact ⟨by rw [hs, ha]; exact h1, by rw [hb, ha]; exact h2, by rw [hc, ha]; exact h3, by rw [hc, ha]; exact h4,
      by rw [hc, ha]; exact h5, by rw [hc, ha]; exact h6, by rw [hc, ha]; exact h7, by rw [hc]; exact h8,
      by rw [hc]; exact h9⟩
  cursors := by rw [hi]; exact hcu
  armed_off := by rw [hr, harm]; exact h.armed_off
  armed_on := by rw [hr, harm, ha]; exact h.armed_on
  selection := hsel

theorem State.memoryWf_congr {s t : State} (h : s.memoryWf = true) (hr : t.ring = s.ring) (hs : t.scratch = s.scratch)
    (hp : t.pcm = s.pcm) : t.memoryWf = true := by
  unfold State.memoryWf at h ⊢; rw [hr, hs, hp]; exact h

theorem State.memoryWf_iff (s : State) :
    s.memoryWf = true ↔ s.ring.wf Config.ringBytesMax = true ∧ s.scratch.wf Config.scratchBytes = true ∧
      s.pcm.wf Config.pcmBytes = true := by
  unfold State.memoryWf; simp [and_assoc]

theorem State.cursors_congr {s t : State} (h : s.cursorsInRange) (ha : t.active = s.active) (hw : t.w = s.w)
    (hr : t.r = s.r) (hwc : t.wc = s.wc) : t.cursorsInRange := by
  unfold State.cursorsInRange at h ⊢; rw [ha, hw, hr, hwc]; exact h

theorem State.selectionOk_idle {t : State} (h : t.sequencer = .idle) : t.selectionOk := by
  unfold State.selectionOk; rw [h]; trivial

theorem State.selectionOk_congr {s t : State} (h : s.selectionOk) (hq : t.sequencer = s.sequencer)
    (hi : t.status.inited = s.status.inited) (ha : t.active = s.active) (hr : t.r = s.r) : t.selectionOk := by
  unfold State.selectionOk at h ⊢
  rw [hq]
  cases hs : s.sequencer with
  | idle => trivial
  | busy cmd wk => rw [hs] at h; dsimp only at h ⊢; rw [State.slotReadBy_congr hi ha hr]; exact h

/-- Storage after reset is in canonical form. -/
theorem State.reset_memoryWf : State.reset.memoryWf = true := rfl

/-- A run of bytes inside its space keeps storage in canonical form. -/
theorem State.memoryWf_writeMem {s : State} (h : s.memoryWf = true) {sp : Space} {off : Nat} {bs : List Byte}
    (hb : off + bs.length ≤ Config.spaceBytes sp) : (s.writeMem sp off bs).memoryWf = true := by
  rw [State.memoryWf_iff] at h ⊢
  obtain ⟨h1, h2, h3⟩ := h
  cases sp
  · exact ⟨Memory.wf_writeRun h1 hb, h2, h3⟩
  · exact ⟨h1, Memory.wf_writeRun h2 hb, h3⟩
  · exact ⟨h1, h2, Memory.wf_writeRun h3 hb⟩

/-! ### The whole invariant -/

/-- What the core drives outwards, the count of steps, the events to come and the inputs are no part of it. -/
theorem State.Inv.of_environment {s t : State} (h : s.Inv)
    (e : t = { s with outputs := t.outputs, draws := t.draws, events := t.events, pins := t.pins }) : t.Inv := by
  rw [e]
  exact h.of_eq (State.memoryWf_congr h.memory rfl rfl rfl) rfl rfl rfl rfl rfl rfl
    (fun hi => State.cursors_congr (h.cursors hi) rfl rfl rfl rfl) rfl
    (State.selectionOk_congr h.selection rfl rfl rfl rfl)

/-- A command's outcome: the invariant of what it wrote, with the sequencer IDLE. -/
theorem State.Inv.finish {s : State} (h : s.Inv) (e : ErrCode) : (s.finish e).Inv :=
  h.of_eq (State.memoryWf_congr h.memory rfl rfl rfl) rfl rfl rfl rfl rfl rfl
    (fun hi => State.cursors_congr (h.cursors hi) rfl rfl rfl rfl) rfl (State.selectionOk_idle rfl)

/-- A RING byte inside its space (R53, R98). -/
theorem State.Inv.writeRing {s : State} (h : s.Inv) {off : Nat} (ho : off < Config.ringBytesMax) (b : Byte) :
    (s.writeRing off b).Inv := by
  obtain ⟨h1, h2, h3⟩ := (State.memoryWf_iff s).mp h.memory
  refine h.of_eq ?_ (by simp) (by simp) (by simp) (by simp) (by simp) (by simp) ?_ (by simp) ?_
  · rw [State.memoryWf_iff]
    simp only [State.writeRing_ring, State.writeRing_scratch, State.writeRing_pcm]
    exact ⟨Memory.wf_writeRun h1 (by simp; omega), h2, h3⟩
  · intro hi; exact State.cursors_congr (h.cursors hi) (by simp) (by simp) (by simp) (by simp)
  · have hsel := h.selection
    cases hs : s.sequencer with
    | idle => exact State.selectionOk_idle (State.writeRing_idle hs off b)
    | busy cmd wk =>
      unfold State.selectionOk at hsel ⊢
      rw [hs] at hsel
      rw [State.writeRing_sequencer hs]
      dsimp only at hsel ⊢
      rw [State.slotReadBy_congr (s := s) (by simp) (by simp) (by simp)]
      exact hsel

theorem State.Inv.writeRingRun {s : State} (h : s.Inv) {off : Nat} {bs : List Byte}
    (ho : off + bs.length ≤ Config.ringBytesMax) : (s.writeRingRun off bs).Inv := by
  induction bs generalizing s off with
  | nil => exact h
  | cons b rest ih =>
    simp only [List.length_cons] at ho
    exact ih (h.writeRing (by omega) b) (by omega)

/-- A write through a transport's port (R98). -/
theorem State.Inv.portWrite {s : State} (h : s.Inv) (p : Transport) (off : BitVec 19) (b : Byte) :
    (s.portWrite p off b).Inv := by
  rcases s.portWrite_cases p off b with ⟨_, e⟩ | ⟨_, e⟩ <;> rw [e]
  · exact h
  · exact h.writeRing off.isLt b

/-- An accepted CMD write, whatever its word (R109). -/
theorem State.Inv.accept {s : State} (h : s.Inv) (x : Word) : (s.accept x).Inv :=
  h.of_eq (State.memoryWf_congr h.memory rfl rfl rfl) rfl rfl rfl rfl rfl rfl
    (fun hi => State.cursors_congr (h.cursors hi) rfl rfl rfl rfl) rfl
    (show s.slotReadBy s.w x = _ from (State.slotReadBy_congr rfl rfl rfl _ _).symm)

/-- CTRL, CFG_* and the flags a host can write are no part of it. -/
theorem State.Inv.of_registers {s : State} (h : s.Inv) (c : Ctrl) (f : Configuration) (ready collide dropped : Bool) :
    ({ s with
      ctrl := c, cfg := f
      status := { s.status with readyPend := ready, collide := collide, dropped := dropped } } : State).Inv :=
  h.of_eq (State.memoryWf_congr h.memory rfl rfl rfl) rfl rfl rfl rfl rfl rfl
    (fun hi => State.cursors_congr (h.cursors hi) rfl rfl rfl rfl) rfl
    (State.selectionOk_congr h.selection rfl rfl rfl rfl)

/-- A host write, of anything anywhere. -/
theorem State.Inv.hostWrite {s : State} (h : s.Inv) (w : Width) (a : BitVec 20) (v : Word) : (s.hostWrite w a v).Inv := by
  rcases s.hostWrite_cases w a v with e | ⟨t, e, ht⟩
  · rw [e]; exact h.of_environment rfl
  rw [e]
  refine State.Inv.of_environment (s := t) ?_ rfl
  rcases ht with ⟨_, _, rfl⟩ | ⟨_, _, rfl⟩ | ⟨_, _, rfl⟩ | ⟨_, c, rfl⟩ | ⟨_, hb, rfl⟩
  · exact h.of_registers _ _ _ _ _
  · rcases s.issue_cases v with ⟨_, e⟩ | ⟨_, e⟩ <;> rw [e]
    · exact h.of_registers _ _ _ _ _
    · exact h.accept v
  · exact h.of_registers _ _ _ _ _
  · exact h.of_registers _ _ _ _ _
  · exact h.writeRingRun (by rw [leBytes_length]; exact hb)

/-- A completion of a transport (R100). -/
theorem State.Inv.onDone {s : State} (h : s.Inv) (p : Transport) : (s.onDone p).Inv := by
  by_cases hd : s.status.running = false ∨ s.active.producers ≤ p.val
  · rw [State.onDone_ignored hd]; exact h
  have hr : s.status.running = true := by
    cases hh : s.status.running <;> simp_all
  have hp : p.val < s.active.producers := by omega
  have hi := h.running_inited hr
  obtain ⟨-, -, -, -, -, hB, -, -⟩ := (initCheck_eq_none _).mp (h.legal hi)
  have hB' := slots_lt s.active
  obtain ⟨c1, c2, c3, c4⟩ := h.cursors hi
  have hw := slotMod_lt (show 0 < s.active.slots by omega) (by omega) (s.w.toNat + 1)
  have hns : ∀ w, (rearmSlot s.active w).toNat < s.active.slots := fun w => by
    unfold rearmSlot; exact slotMod_lt (by omega) (by omega) _
  have harm : (s.onDone p).armed = s.armed := by
    rw [State.onDone_taken hr hp]
    simp only [State.collideCheck_armed, State.notify_armed, State.arm_armed]
    obtain ⟨a1, a2⟩ := h.armed_on hr
    ext i hi'
    by_cases hpi : p.val = i
    · subst hpi
      have hp2 := p.isLt
      have : p.val = 0 ∨ p.val = 1 := by omega
      rcases this with h0 | h1
      · simp [h0, a1]
      · have : s.active.nprod = true := by
          unfold Configuration.producers at hp
          cases hn : s.active.nprod with
          | true => rfl
          | false => rw [hn] at hp; simp at hp; omega
        simp [h1, a2, this]
    · simp [hpi]
  refine h.of_eq (State.memoryWf_congr h.memory (by simp) (by simp) (by simp)) (by simp) (by simp) (by simp) (by simp)
    (by simp) (by simp) ?_ harm (State.selectionOk_congr h.selection (by simp) (by simp) (by simp) (by simp))
  intro _
  have ewc : (s.onDone p).wc = s.wc.set p (rearmSlot s.active (slotMod s.active.slots (s.w.toNat + 1))) := by
    rw [State.onDone_taken hr hp]; simp
  have ew : (s.onDone p).w = slotMod s.active.slots (s.w.toNat + 1) := by
    rw [State.onDone_taken hr hp]; simp
  unfold State.cursorsInRange
  rw [State.onDone_active, ewc, ew, State.onDone_r]
  refine ⟨hw, c2, ?_, ?_⟩
  · rw [Vector.getElem_set]; split
    · exact hns _
    · exact c3
  · rw [Vector.getElem_set]; split
    · exact hns _
    · exact c4

end Sys2Proof.Machine
end

