-- ==== Sys2Proof/Laws/PerInstr.lean ====
section
/-! SUPPORT. Laws of every command, as syntax: one lemma for each constructor. -/

namespace Sys2Proof.Laws.EncodedFields

/-- OPC of a command (30_encoding.md R69). -/
def opc : Instr → Nat
  | .nop => 0x00
  | .init => 0x01
  | .start => 0x02
  | .stop => 0x03
  | .read _ => 0x04
  | .setVolume _ => 0x05
  | .setGain _ => 0x06
  | .setMaxvol _ => 0x07
  | .freset _ => 0x10
  | .demux _ => 0x11
  | .decode _ _ => 0x12

/-- CH of a command, 0 where it takes none. -/
def ch : Instr → Nat
  | .nop => 0
  | .init => 0
  | .start => 0
  | .stop => 0
  | .read _ => 0
  | .setVolume _ => 0
  | .setGain _ => 0
  | .setMaxvol _ => 0
  | .freset c => c
  | .demux _ => 0
  | .decode c _ => c

/-- ARG of a command, 0 where it takes none. -/
def arg : Instr → Nat
  | .nop => 0
  | .init => 0
  | .start => 0
  | .stop => 0
  | .read n => n
  | .setVolume v => v
  | .setGain g => g
  | .setMaxvol m => m
  | .freset _ => 0
  | .demux s => s
  | .decode _ k => k

/-- The fields of a well-formed command's word are its own, with RSV = 0 (R68). -/
def Statement (i : Instr) : Prop :=
  i.wellFormed = true →
    fieldOpc (encode i) = opc i ∧ fieldCh (encode i) = ch i ∧ fieldRsv (encode i) = 0 ∧ fieldArg (encode i) = arg i

theorem ofFormat {o c a : Nat} (ho : o < 256) (hc : c < 4) (ha : a < 65536) :
    fieldOpc (formatC o c a) = o ∧ fieldCh (formatC o c a) = c ∧ fieldRsv (formatC o c a) = 0 ∧
      fieldArg (formatC o c a) = a := by
  rw [fieldOpc_eq, fieldCh_eq, fieldRsv_eq, fieldArg_eq, formatC_toNat ho hc ha]
  omega

theorem nop : Statement .nop := fun _ => ofFormat (by decide) (by decide) (by decide)

theorem init : Statement .init := fun _ => ofFormat (by decide) (by decide) (by decide)

theorem start : Statement .start := fun _ => ofFormat (by decide) (by decide) (by decide)

theorem stop : Statement .stop := fun _ => ofFormat (by decide) (by decide) (by decide)

theorem read (n : Nat) : Statement (.read n) := fun h => by
  simp only [Instr.wellFormed, fitsArg, decide_eq_true_eq] at h
  exact ofFormat (by decide) (by decide) (by omega)

theorem setVolume (v : Nat) : Statement (.setVolume v) := fun h => by
  simp only [Instr.wellFormed, fitsArg, decide_eq_true_eq] at h
  exact ofFormat (by decide) (by decide) (by omega)

theorem setGain (g : Nat) : Statement (.setGain g) := fun h => by
  simp only [Instr.wellFormed, fitsArg, decide_eq_true_eq] at h
  exact ofFormat (by decide) (by decide) (by omega)

theorem setMaxvol (m : Nat) : Statement (.setMaxvol m) := fun h => by
  simp only [Instr.wellFormed, fitsArg, decide_eq_true_eq] at h
  exact ofFormat (by decide) (by decide) (by omega)

theorem freset (c : Nat) : Statement (.freset c) := fun h => by
  simp only [Instr.wellFormed, fitsChannel, decide_eq_true_eq] at h
  exact ofFormat (by decide) (by omega) (by decide)

theorem demux (s : Nat) : Statement (.demux s) := fun h => by
  simp only [Instr.wellFormed, fitsArg, decide_eq_true_eq] at h
  exact ofFormat (by decide) (by decide) (by omega)

theorem decode (c k : Nat) : Statement (.decode c k) := fun h => by
  simp only [Instr.wellFormed, fitsArg, fitsChannel, Bool.and_eq_true, decide_eq_true_eq] at h
  exact ofFormat (by decide) (by omega) (by omega)

end Sys2Proof.Laws.EncodedFields
end

