-- ==== Sys2Proof/Laws/Run.lean ====
section
/-! SUPPORT. The end of a run (R148): what holds there, and that an observation is one of an end. -/

namespace Sys2Proof.Machine

/-- R148's (a), (b) and (c). -/
theorem RunRecord.ended_iff (r : RunRecord) (s : State) :
    r.ended s = true ↔ s.hostDone = true ∧ r.waited = true ∧ s.sequencer = .idle ∧ r.wasReset = false := by
  unfold RunRecord.ended
  rw [← State.busy_false_iff]
  simp [and_assoc]

@[simp] theorem State.storage_length (s : State) (sp : Space) : (s.storage sp).length = Config.spaceBytes sp := by
  simp [State.storage]

/-- What is observed of a storage byte is what a read of it gives, written or not. -/
theorem State.storage_getElem? (s : State) (sp : Space) {off : Nat} (h : off < Config.spaceBytes sp) :
    (s.storage sp)[off]? = some (s.memByte sp off) := by
  simp [State.storage, h]

/-- A run in which a reset occurred has no end after it. -/
theorem RunRecord.after_wasReset {r : RunRecord} (h : r.wasReset = true) (s t : State) :
    (r.after s t).wasReset = true := by simp [RunRecord.after, h]

/-- An observation is that of a state in which the run ends. -/
theorem observeRun_end {k : Nat} {s : State} {r : RunRecord} {o : Observation} (h : observeRun k s r = some o) :
    ∃ t q, RunRecord.ended q t = true ∧ o = t.observe q := by
  induction k generalizing s r with
  | zero =>
    unfold observeRun at h
    split at h
    · rename_i he; cases h; exact ⟨s, r, he, rfl⟩
    · cases h
  | succ k ih =>
    unfold observeRun at h
    split at h
    · rename_i he; cases h; exact ⟨s, r, he, rfl⟩
    · split at h
      · exact ih h
      · cases h
      · cases h

end Sys2Proof.Machine
end

