-- ==== Sys2Proof/Tests/Slice0.lean ====
section
/-! SUPPORT. The model's own tests, on values taken from the spec (95_test_vectors.md, and the examples of the command
rules), and for every obligation with hypotheses a theorem whose state and operands meet them together. -/

namespace Sys2Proof.Tests

set_option Elab.async false

open Sys2Proof Sys2Proof.Machine

/-! ### Well-formed commands (R73) -/

theorem test_wellFormed_at_the_limits :
    [Instr.nop, .init, .start, .stop, .read 65535, .setVolume 65535, .setGain 65535, .setMaxvol 65535, .freset 3,
      .demux 65535, .decode 3 65535].all Instr.wellFormed = true := by decide

theorem test_illFormed_operands :
    [Instr.read 65536, .setVolume 65536, .setGain 65536, .setMaxvol 65536, .freset 4, .demux 65536, .decode 4 0,
      .decode 0 65536].any Instr.wellFormed = false := by decide

theorem test_assemble_rejects : assemble (.decode 4 0) = none ∧ assemble (.read 65536) = none := by decide

/-! ### Words (V-E, V-S4) -/

/-- One word for each row of R69, written from the encoding table. -/
theorem test_decode_words :
    decode 0x00000000 = .ok .nop ∧ decode 0x00000001 = .ok .init ∧ decode 0x00000002 = .ok .start ∧
    decode 0x00000003 = .ok .stop ∧ decode 0x00800004 = .ok (.read 128) ∧ decode 0x00040005 = .ok (.setVolume 4) ∧
    decode 0x00200006 = .ok (.setGain 32) ∧ decode 0x00800007 = .ok (.setMaxvol 128) ∧
    decode 0x00000310 = .ok (.freset 3) ∧ decode 0x00050011 = .ok (.demux 5) ∧
    decode 0x00070212 = .ok (.decode 2 7) := by decide

/-- The words of V-E. -/
theorem test_encode_words :
    [Instr.nop, .init, .start, .stop, .read 16, .read 128, .setVolume 4, .setGain 32, .setMaxvol 128, .freset 3,
      .demux 5, .decode 2 7].map encode =
    [0x00000000, 0x00000001, 0x00000002, 0x00000003, 0x00100004, 0x00800004, 0x00040005, 0x00200006, 0x00800007,
      0x00000310, 0x00050011, 0x00070212] := by decide

/-- The illegal words of V-S4. -/
theorem test_illegal_words :
    decode 0x00000401 = .error .reservedBits ∧ decode 0x00000008 = .error (.reservedOpcode 8) ∧
    decode 0x00010001 = .error .unusedArgument ∧ decode 0x00000104 = .error .unusedChannel ∧
    decode 0x0000FC12 = .error .reservedBits ∧ decode 0x00000013 = .error (.reservedOpcode 0x13) ∧
    decode 0x000000FF = .error (.reservedOpcode 0xFF) ∧ decode 0x00010010 = .error .unusedArgument := by decide

theorem test_decode_bytes :
    decodeBytes [0x12, 0x02, 0x07, 0x00, 0xEE] = .ok (.decode 2 7, [0xEE]) ∧
    decodeBytes [0x12, 0x02, 0x07] = .error .truncated := by decide

theorem test_table_word : decodeTableWord 16 0x00000310 = some (.freset 3) ∧ decodeTableWord 32 0x00000401 = none := by
  decide

/-! ### States for the tests -/

/-- Fs = 1000, SBS = 1, D = 64, B = 2: a slot is 8·N bytes. -/
def small (n : BitVec 3) : Configuration := ⟨1000, 1, n, false, false, 2, 0, 0⟩

/-- The example of R113. -/
def example16 : Configuration := ⟨16000, 16, 1, false, false, 2, 0, 0⟩

/-- The state after a successful INIT of a configuration, stopped. -/
def readyWith (a : Configuration) : State := { State.reset with cfg := a }.newSession

/-- A stopped session of `small n`, its slot 0 holding the bytes given. -/
def readyRing (n : BitVec 3) (bs : List Byte) : State := (readyWith (small n)).writeMem .ring 0 bs

/-- The same session capturing, its slot 0 filled and W = 1. -/
def filled (n : BitVec 3) (bs : List Byte) : State :=
  let s := readyRing n bs
  { s with w := 1, wc := #v[1, 0], armed := #v[true, false], status := { s.status with running := true } }

/-- The command answers a next state that `p` holds of. -/
def after (i : Instr) (s : State) (p : State → Bool) : Bool :=
  match exec i s with
  | .next t => p t
  | .fault _ => false
  | .refused _ => false

/-- A step answers a next state that `p` holds of. -/
def afterStep (s : State) (p : State → Bool) : Bool :=
  match step s with
  | .next t => p t
  | .fault _ => false
  | .refused _ => false

/-- The word accepted from CMD. -/
def running (s : State) (x : Word) : State := s.accept x

/-! ### Session commands -/

theorem test_nop_clears_code :
    after .nop { State.reset with status := { State.reset.status with err := .config } }
      (fun t => t.status.err = .ok && t.statusWord = 0) = true := by decide

/-- R113's example. -/
theorem test_init_example :
    after .init { State.reset with cfg := example16 } (fun t =>
      t.status.inited && t.status.err = .ok && t.spm = 16 && t.slotBytes = 128 && t.consts.subConst = 131072 &&
      t.consts.divConst = 16 && t.consts.lpAlfa = 194 && t.consts.hpAlfa = 254 && t.consts.volume = 64) = true := by
  decide +kernel

/-- V-S1: the failing rows, in the table's order. -/
theorem test_init_checks :
    [(⟨16000, 16, 3, false, false, 2, 0, 0⟩ : Configuration), ⟨16000, 16, 0, false, false, 2, 0, 0⟩,
      ⟨999, 16, 1, false, false, 2, 0, 0⟩, ⟨16000, 0, 1, false, false, 2, 0, 0⟩, ⟨16000, 20, 1, false, false, 2, 0, 0⟩,
      ⟨16000, 2064, 1, false, false, 2, 0, 0⟩, ⟨16000, 16, 1, false, false, 1, 0, 0⟩,
      ⟨16000, 2048, 4, true, false, 4, 0, 0⟩, ⟨16000, 2048, 4, true, false, 5, 0, 0⟩,
      ⟨16000, 16, 1, false, false, 8, 1, 1⟩, ⟨16000, 16, 1, false, false, 8, 1, 0xFE⟩,
      ⟨44100, 88, 2, false, false, 4, 0, 0⟩, ⟨44100, 100, 2, false, false, 4, 0, 0⟩].map initCheck =
    [some .config, some .config, some .config, some .config, some .config, some .resource, some .config, none,
      some .resource, some .config, none, none, some .config] := by decide

theorem test_start_two_transports :
    after .start (readyWith ⟨1000, 1, 1, false, true, 4, 0, 0⟩) (fun t =>
      t.status.running && t.wc = #v[0, 1] && t.xportWord = 3 &&
      t.outputs = [.arm 1 1 8 8, .arm 0 0 0 8]) = true := by decide +kernel

/-- V-S2: the transport, then the notification. -/
theorem test_start_inputs :
    after .start { readyWith (small 1) with pins := ⟨false, true, false⟩ } (fun t => t.status.err = .resource) = true ∧
    after .start { readyWith (small 1) with pins := ⟨true, false, false⟩ } (fun t => t.status.err = .hardware) = true :=
  by decide +kernel

/-- R110: START samples its inputs once, at acceptance. -/
theorem test_start_sampled :
    let s := running (readyWith (small 1)) 0x00000002
    after .start { s with pins := ⟨false, false, false⟩ } (fun t => t.status.running && t.status.err = .ok) = true := by
  decide +kernel

theorem test_stop :
    after .stop (filled 1 []) (fun t =>
      !t.status.running && t.xportWord = 0 && t.w = 1 && t.outputs = [.disarm 0]) = true := by decide +kernel

/-- V-S3. -/
theorem test_setVolume : after (.setVolume 4) (readyWith (small 1)) (fun t => t.consts.volume = 4) = true := by
  decide +kernel

theorem test_setGain :
    after (.setGain 32) (readyWith (small 1)) (fun t => t.consts.gain = 32 && t.consts.divConst = 8) = true ∧
    after (.setGain 0) (readyWith (small 1)) (fun t =>
      t.status.err = .config && t.consts.gain = 16 && t.consts.divConst = 16) = true := by decide +kernel

theorem test_setMaxvol :
    after (.setMaxvol 128) (readyWith (small 1)) (fun t => t.consts.divConst = 32) = true ∧
    after (.setMaxvol 0) (readyWith (small 1)) (fun t => t.consts.divConst = 1) = true := by decide +kernel

/-! ### The filter -/

/-- V-M. -/
theorem test_rounddiv :
    [(8, 16), (7, 16), (24, 16), (0, 16), (1, 3), (2, 3), (9, 2), (5, 1), (-8, 16), (-7, 16), (-24, 16), (-1, 3),
      (-2, 3), (-9, 2), (-5, 1)].map (fun p : Int × Int => rounddiv p.1 p.2) =
    [1, 0, 2, 0, 0, 1, 5, 5, -1, 0, -2, 0, -1, -5, -5] := by decide

theorem test_asr :
    [-1, -255, -256, -257, 255, 256, -22197568].map (fun v : Int => asr v 8) = [-1, -1, -1, -2, 0, 1, -86710] := by
  decide

/-- V-F0, the single-bit windows. -/
theorem test_taps :
    (List.range 3).map (fun s => tapDirect 64 s [0x40, 0, 0, 0, 0, 0, 0, 0]) = [1, 2142, 1953] ∧
    (List.range 3).map (fun s => tapTable 64 s [0, 0, 0, 0, 0x80, 0, 0, 0]) = [528, 3072, 496] ∧
    (List.range 3).map (fun s => tapDirect 64 s (List.replicate 8 0xAA)) = [21328, 87392, 22352] := by decide +kernel

/-- V-F1: the first two steps on all ones. -/
theorem test_filterRun :
    let k := initConsts example16
    let out := filterRun k false 64 .zero (List.replicate 2 (List.replicate 8 0xFF))
    (out.1.oldIn.toInt, out.1.oldOut.toInt, out.1.oldZ.toInt, out.2.map BitVec.toInt) =
      (87392, 87385, 50307, [-32700, 32700]) := by decide +kernel

/-- V-A and V-K. -/
theorem test_constants :
    [(500, 1000), (504, 1009), (505, 1010), (8011, 16022), (8011, 16023), (32767, 65535)].map
      (fun p : Nat × Nat => (lpAlfaOf p.1 p.2, hpAlfaOf 10 p.2)) =
      [(194, 240), (194, 240), (194, 241), (194, 254), (194, 255), (194, 255)] ∧
    [(131072, 64, 1), (131072, 65535, 1), (131072, 1, 65535), (1048576, 128, 16)].map
      (fun p : Nat × Nat × Nat => divConstOf p.1 p.2.1 p.2.2) = [256, 262140, 1, 256] := by decide

theorem test_freset :
    let s := { readyWith (small 1) with filter := Vector.replicate 4 ⟨1, 2, 3, 4, 5⟩ }
    after (.freset 3) s (fun t => t.filter = #v[⟨1, 2, 3, 4, 5⟩, ⟨1, 2, 3, 4, 5⟩, ⟨1, 2, 3, 4, 5⟩, ⟨0, 0, 0, 0, 0⟩])
      = true := by decide +kernel

/-- One window of all ones at Fs = 1000: Z = 43680 − 131072, HP_ALFA = 240, by R83 by hand. -/
theorem test_decode :
    after (.decode 0 0) ((readyWith (small 1)).writeMem .scratch 0 (List.replicate 8 0xFF)) (fun t =>
      t.pcmSample 0 = BitVec.ofInt 16 (-32700) && t.pcm = [(0, 0x44), (1, 0x80)] &&
      t.filter[0] = ⟨BitVec.ofInt 64 (-81930), BitVec.ofInt 64 (-87392), BitVec.ofInt 64 (-62088), 43680, 174784⟩)
      = true := by decide +kernel

/-- V-F10: the channel and the block must be there. -/
theorem test_decode_rejects :
    after (.decode 1 0) (readyWith (small 1)) (fun t => t.status.err = .arg) = true ∧
    after (.decode 0 1) (readyWith (small 1)) (fun t => t.status.err = .arg) = true := by decide +kernel

/-! ### The demultiplexer -/

/-- V-D1 and V-D3. -/
theorem test_chan :
    (chan 0x12345678 2 0, chan 0x12345678 2 1) = (0x46EC, 0x1416) ∧
    (List.range 4).map (chan 0xDEADBEEF 4) = [0x99, 0x6F, 0xD7, 0xFF] ∧
    (List.range 4).map (fun c => (chanMask4 0x12345678 c).toNat) = [0xAA, 0x66, 0x1E, 0x01] ∧
    interleave 2 (fun c => if c = 0 then 0xBEEF else 0x1234) = 0x475C5E75 := by decide +kernel

/-- V-D2: the byte order of the streams for two channels. -/
theorem test_demux :
    after (.demux 0) (readyRing 2 ([0x78, 0x56, 0x34, 0x12] ++ List.replicate 12 0)) (fun t =>
      t.memByte .scratch 0 = 0xEC && t.memByte .scratch 1 = 0x46 && t.memByte .scratch 8 = 0x16 &&
      t.memByte .scratch 9 = 0x14 && t.r = 0) = true := by decide +kernel

theorem test_demux_four :
    after (.demux 0) (readyRing 4 ([0x78, 0x56, 0x34, 0x12] ++ List.replicate 28 0)) (fun t =>
      [0, 8, 16, 24].map (t.memByte .scratch) = [0xAA, 0x66, 0x1E, 0x01]) = true := by decide +kernel

/-! ### The ring -/

/-- V-RNG1. -/
theorem test_norm :
    (List.range 8).map (fun x => norm 8 x) = [0, 1, 2, 3, -4, -3, -2, -1] ∧
    (List.range 5).map (fun x => norm 5 x) = [0, 1, 2, -2, -1] ∧ norm 2 1 = -1 ∧ norm 8 (-1) = -1 := by decide

/-- V-RNG2, GUARD = 1 and OFFSET = −2: (w, R) and the slot with its flag. -/
theorem test_select :
    [(3, 3), (3, 2), (3, 1), (3, 4), (0, 7), (7, 0)].map
      (fun p : BitVec 8 × BitVec 8 => select ⟨1000, 1, 1, false, false, 8, 1, 0xFE⟩ p.2 p.1) =
    [none, some ⟨1, true⟩, some ⟨1, false⟩, some ⟨1, true⟩, some ⟨6, true⟩, some ⟨5, true⟩] := by decide

/-- R106: one slot of all ones; PCM, F, R and RESULT. -/
theorem test_read :
    after (.read 1) (filled 1 (List.replicate 8 0xFF)) (fun t =>
      t.r = 1 && t.result.toWord = 0x00010001 && t.pcmSample 0 = BitVec.ofInt 16 (-32700) &&
      (t.filterAt 0).oldZ = BitVec.ofInt 64 (-62088) && t.memByte .scratch 7 = 0xFF) = true := by decide +kernel

/-- R107 (c), and V-RNG5: n = 0 still consumes the slot. -/
theorem test_read_counts :
    after (.read 1) (readyWith (small 1)) (fun t => t.result.toWord = 0 && t.r = 0) = true ∧
    after (.read 0) (filled 1 (List.replicate 8 0xFF)) (fun t => t.result.toWord = 0x00010000 && t.r = 1 && t.pcm = [])
      = true ∧
    [20, 15, 65535].map (readCount ⟨16000, 128, 1, false, false, 2, 0, 0⟩) = [16, 0, 128] := by decide +kernel

/-- V-RNG4: two transports, B = 4. -/
theorem test_done_two_transports :
    let s := { readyWith ⟨1000, 1, 1, false, true, 4, 0, 0⟩ with
      wc := #v[0, 1], status := ⟨true, true, false, false, false, .ok⟩ }
    let t := ((s.onDone 0).onDone 1).onDone 0
    (s.onDone 0).wc = #v[2, 1] ∧ t.w = 3 ∧ t.wc = #v[0, 3] ∧ t.completions = 3 ∧ t.status.readyPend = true ∧
      t.outputs.head? = some (.arm 0 0 0 8) := by decide +kernel

/-- V-RNG4, last row, at B = 2: the slot being read is re-armed. -/
theorem test_collide :
    let s := running { filled 1 [] with w := 0, r := 1 } 0x00010004
    s.status.collide = false ∧ (s.onDone 0).status.collide = true ∧ (s.onDone 1) = s := by decide +kernel

/-- U2: a byte written while a DEMUX runs is the old one or the new one. -/
theorem test_race :
    let s := (running (readyRing 1 (List.replicate 8 0x11)) 0x00000011).writeRing 3 0x22
    s.ringByte 2 = 0x11 ∧ s.ringAtAcceptByte 3 = 0x11 ∧ s.racingWrites 3 = [0x22] ∧ s.memByte .ring 3 = 0x22 := by
  decide +kernel

/-- R9, R98: transport 1 has no write port while NPROD = 1. -/
theorem test_port_write :
    ((filled 1 [0x11]).portWrite 1 0 0x22).memByte .ring 0 = 0x11 ∧
    ((filled 1 [0x11]).portWrite 0 0 0x22).memByte .ring 0 = 0x22 ∧
    ((readyWith ⟨1000, 1, 1, false, true, 2, 0, 0⟩).portWrite 1 0x7FFFF 0x22).memByte .ring 0x7FFFF = 0x22 := by
  decide +kernel

/-! ### Host accesses -/

/-- R53: one word written to RING, read back by bytes and halves. -/
theorem test_ring_window :
    let s := State.reset.hostWrite .word 0x80004 0x12345678
    s.readData .byte 0x80004 = some 0x78 ∧ s.readData .half 0x80006 = some 0x1234 ∧
      s.readData .word 0x80004 = some 0x12345678 ∧ s.readData .half 0x80005 = none := by decide +kernel

/-- R56: a reserved offset, a narrow register access, a read-only register, CFG while BUSY. -/
theorem test_bus_errors :
    State.reset.readData .word 0x064 = none ∧ State.reset.readData .half 0x008 = none ∧
    State.reset.writeData .word 0x00C 1 = none ∧ (running State.reset 0).writeData .word 0x010 1 = none ∧
    State.reset.readData .word 0x128 = none ∧ State.reset.writeData .word 0x40000 1 = none ∧
    State.reset.readData .word 0x05000 = none := by decide +kernel

/-- R62: while BUSY, what the command is not going to write reads as held: the cursors of a START that will fail, the
filter state of a READ of no sample. -/
theorem test_busy_reads :
    let start (p : Pins) := running { readyWith (small 1) with pins := p, w := 1 } 0x00000002
    let read (x : Word) := running (filled 1 []) x
    (start ⟨false, true, true⟩).readData .word 0x04C = some 1 ∧ (start ⟨true, true, false⟩).readData .word 0x060 = some 0 ∧
    (start ⟨true, true, true⟩).regUnspecified .wcur = true ∧
    (read 0x00000004).readData .word 0x100 = some 0 ∧ (read 0x00000004).regUnspecified .rcur = true ∧
    (read 0x00010004).regUnspecified (.fstate 0 .oldOut false) = true := by decide +kernel

/-- R29, U6: reserved bits are ignored. -/
theorem test_cfg_ring :
    let s := State.reset.hostWrite .word 0x01C 0xFFFE0108
    s.cfg.b = 8 ∧ s.cfg.guard = 1 ∧ s.cfg.offsetSlots = -2 ∧ s.readData .word 0x01C = some 0x00FE0108 := by
  decide +kernel

/-- R28: NCH in 2:0, DSEL in bit 4, NPROD in bit 8. -/
theorem test_cfg_fmt :
    (State.reset.hostWrite .word 0x018 0x00000012).cfg = ⟨0, 0, 2, true, false, 0, 0, 0⟩ ∧
    (State.reset.hostWrite .word 0x018 0x00000104).cfg = ⟨0, 0, 4, false, true, 0, 0, 0⟩ ∧
    (State.reset.hostWrite .word 0x018 0x00000104).readData .word 0x018 = some 0x00000104 := by decide +kernel

/-- V-S4: a word that meets BUSY is dropped. -/
theorem test_dropped :
    let s := running State.reset 0
    (s.hostWrite .word cmdAddr 1).status.dropped = true ∧ (s.hostWrite .word cmdAddr 1).sequencer = s.sequencer := by
  decide +kernel

/-! ### Steps -/

/-- P4's second command: after the `wait`, 0x00000401 has ended with ILLEGAL_CMD. -/
theorem test_illegal_wait :
    (match Host.Core.run Sys2Proof.core 3 { running State.reset 0x00000401 with events := [.wait] } with
    | .next t => t.statusWord = 0x00000100 && t.sequencer = .idle
    | .fault _ => false
    | .refused _ => false) = true := by decide +kernel

/-- D25, R109: a CMD write between an illegal word's acceptance and its completion meets BUSY. -/
theorem test_illegal_interval :
    afterStep { running State.reset 0x00000401 with events := [.wr .word cmdAddr 1] } (fun t =>
      t.statusWord = 0x00000024) = true := by decide +kernel

/-- R74: a `wait` polls, the command completes, the `wait` polls again. -/
theorem test_wait :
    (match Host.Core.run Sys2Proof.core 3 { running State.reset 0 with events := [.wait] } with
    | .next t => [.response 0 false, .response 4 false] == t.outputs && t.events.isEmpty
    | .fault _ => false
    | .refused _ => false) = true := by decide +kernel

/-- `withFetchWord`: the very next step runs the command of the word. -/
theorem test_fetch : afterStep (State.reset.withFetchWord 32 0x00100004) (fun t => t.status.err = .notInit) = true := by
  decide +kernel

/-- R135: reset while a command runs. -/
theorem test_reset :
    afterStep { running (filled 1 []) 0x00010004 with events := [.reset] } (fun t =>
      t.statusWord = 0 && t.sequencer = .idle && t.cfg = .zero && t.ring = [] &&
      t.outputs = [.disarm 1, .disarm 0]) = true := by decide +kernel

/-- R148: a run ends with the `wait` that reads BUSY = 0, whatever the transports do later; a run whose last operation is
no `wait`, one with a reset in it, and one out of steps have no end. -/
theorem test_run_end :
    let launch (es : List Event) : State := { State.reset with events := es }
    let nop : Event := .wr .word cmdAddr 0
    ((launch [nop, .wait, .done 0, .portWrite 0 0 1]).observeProgram 9).isSome = true ∧
    ((launch [nop, .wait, .rd .word 0x008]).observeProgram 9).isNone = true ∧
    ((launch [nop, .reset, .wait]).observeProgram 9).isNone = true ∧
    ((launch [nop, .wait]).observeProgram 3).isNone = true := by decide +kernel

/-- R148, R149: what the observation keeps of the way: a narrow register read, and a dropped command. -/
theorem test_run_faults :
    let launch (es : List Event) : State := { State.reset with events := es }
    let nop : Event := .wr .word cmdAddr 0
    (((launch [nop, .wait]).observeProgram 9).map Observation.safe) = some true ∧
    (((launch [.rd .half 0x008, nop, .wait]).observeProgram 9).map Observation.safe) = some false ∧
    (((launch [nop, nop, .wr .word statusAddr 0x38, .wait]).observeProgram 9).map Observation.safe) = some false := by
  decide +kernel

/-! ### Witnesses: states and operands that meet an obligation's hypotheses -/

/-- A running READ of the filled session: it reads slot 0. -/
def reading : State := running (filled 1 (List.replicate 8 0xFF)) 0x00010004

/-- A session with drift compensation: B = 8, GUARD = 1, OFFSET = −2. -/
def drift : Configuration := ⟨1000, 1, 1, false, false, 8, 1, 0xFE⟩

theorem witness_DecodeOfEncode : (Instr.decode 3 65535).wellFormed = true ∧ (Instr.read 0).wellFormed = true := by decide

theorem witness_EncodeOfDecode : decode 0xFFFF0312 = .ok (.decode 3 65535) := by decide

theorem witness_IllegalWords :
    (8 ≤ fieldOpc 0x0000000F ∧ fieldOpc 0x0000000F ≤ 15) ∧ 0x13 ≤ fieldOpc 0x00000013 ∧ fieldRsv 0x00000400 ≠ 0 ∧
    (fieldCh 0x00000111 ≠ 0 ∧ fieldOpc 0x00000111 ≠ 0x10 ∧ fieldOpc 0x00000111 ≠ 0x12) ∧
    (fieldArg 0x00010003 ≠ 0 ∧ fieldOpc 0x00010003 ≤ 3) ∧ (fieldArg 0x00010010 ≠ 0 ∧ fieldOpc 0x00010010 = 0x10) := by
  decide

/-- CmdWrite: both sequencer states, and the slot of a READ that finds one, of DEMUX at the last slot, past it, and of a
word that reads none. -/
theorem witness_CmdWrite :
    State.reset.sequencer = .idle ∧ reading.sequencer ≠ .idle ∧
    [0x00010004, 0x00010011, 0x00020011, 0x00000003, 0x00000401].map ((filled 1 []).slotReadBy 1) =
      [some 0, some 1, none, none, none] ∧ State.reset.slotReadBy 0 0x00010011 = none ∧
    ((filled 1 [0x11, 0x22]).hostWrite .word cmdAddr 0x00010004).ringAtAcceptByte 1 = 0x22 := by decide +kernel

theorem witness_StepRunsCommand :
    let wk : Work := ⟨0, none, ⟨true, true, true⟩, [], []⟩
    (running State.reset 0x00040005).sequencer = .busy 0x00040005 wk ∧ decode 0x00040005 = .ok (.setVolume 4) ∧
    ({ running State.reset 0x00040005 with events := [.complete, .wait] }).events = .complete :: [.wait] ∧
    (running State.reset 0x00040005).events = [] := by decide

theorem witness_FetchedWordRuns : decode (BitVec.ofNat 32 0x00040005) = .ok (.setVolume 4) := by decide

theorem witness_IllegalWordCompletes :
    (running State.reset 0x00000008).sequencer = .busy 0x00000008 ⟨0, none, ⟨true, true, true⟩, [], []⟩ ∧
    decode 0x00000008 = .error (.reservedOpcode 8) ∧ (running State.reset 0x00000008).events = [] ∧
    ({ running State.reset 0x00000008 with events := [.complete, .wait] }).events = .complete :: [.wait] := by decide

theorem witness_NoStepStops :
    State.reset.sequencer = .idle ∧ State.reset.events = [] ∧
    ({ reading with events := [.done 0, .wait] }).events = .done 0 :: [.wait] := by decide +kernel

/-- WaitEnds: a legal command, an illegal word, and an IDLE sequencer. -/
theorem witness_WaitEnds :
    let s (x : Word) := { running State.reset x with events := [.wait, .rd .word 0x00C] }
    (s 1).sequencer = .busy 0x00000001 ⟨0, none, ⟨true, true, true⟩, [], []⟩ ∧ (s 8).sequencer ≠ .idle ∧
    (s 1).events = .wait :: [.rd .word 0x00C] ∧ State.reset.sequencer = .idle := by decide

theorem witness_FailureChangesOnlyItsCode :
    ∃ t, exec .init (readyWith ⟨0, 0, 0, false, false, 0, 0, 0⟩) = .next t ∧ t.status.err ≠ .ok ∧
      t.status.inited = false := ⟨_, rfl, by decide +kernel, by decide +kernel⟩

/-- The largest legal ring, and the smallest guarded one. -/
theorem witness_InitCreatesSession :
    let big : Configuration := ⟨16000, 2048, 4, true, false, 4, 0, 0⟩
    let guarded : Configuration := ⟨1000, 1, 1, false, false, 4, 1, 2⟩
    State.reset.status.running = false ∧ big.nch.toNat = 4 ∧ 1000 ≤ big.fs.toNat ∧ 0 < big.sbs.toNat ∧
    big.sbs.toNat % (big.fs.toNat / 1000) = 0 ∧ big.sbs.toNat ≤ 2048 ∧ 2 ≤ big.b.toNat ∧
    big.b.toNat * (big.sbs.toNat * (128 / 8) * big.nch.toNat) = 524288 ∧ big.guard = 0 ∧
    initCheck big = none ∧ initCheck guarded = none ∧
    guarded.guard.toNat < (norm guarded.b.toNat guarded.offset.toInt).natAbs := by decide

/-- A configuration that fails each check and passes those before it. -/
theorem witness_InitRejects :
    (filled 1 []).status.running = true ∧ State.reset.status.running = false ∧
    [(⟨16000, 16, 3, false, false, 2, 0, 0⟩ : Configuration), ⟨999, 16, 1, false, false, 2, 0, 0⟩,
      ⟨16000, 0, 1, false, false, 2, 0, 0⟩, ⟨16000, 2064, 1, false, false, 2, 0, 0⟩,
      ⟨16000, 16, 1, false, false, 1, 0, 0⟩, ⟨16000, 2048, 4, true, false, 5, 0, 0⟩,
      ⟨16000, 16, 1, false, false, 8, 4, 4⟩].map (fun a =>
        [decide (a.nch.toNat = 1 ∨ a.nch.toNat = 2 ∨ a.nch.toNat = 4), decide (a.fs.toNat / 1000 ≠ 0),
          decide (a.sbs.toNat ≠ 0 ∧ a.sbs.toNat % (a.fs.toNat / 1000) = 0), decide (a.sbs.toNat ≤ 2048),
          decide (2 ≤ a.b.toNat), decide (a.b.toNat * a.slotSize ≤ 524288),
          decide (a.guard = 0 ∨ a.guard.toNat < (norm a.b.toNat a.offset.toInt).natAbs)]) =
    [[false, true, true, true, true, true, true], [true, false, false, true, true, true, true],
      [true, true, false, true, true, true, true], [true, true, true, false, true, true, true],
      [true, true, true, true, false, true, true], [true, true, true, true, true, false, true],
      [true, true, true, true, true, true, false]] := by decide +kernel

theorem witness_StartArms :
    let one := readyWith (small 1)
    let two := readyWith ⟨1000, 1, 1, false, true, 2, 0, 0⟩
    (one.status.inited = true ∧ one.status.running = false ∧ one.work.pins.notifyOk = true ∧ one.work.pins.xportAvail0 = true ∧
      one.active.nprod = false) ∧
    (two.status.inited = true ∧ two.status.running = false ∧ two.work.pins.notifyOk = true ∧ two.work.pins.xportAvail0 = true ∧
      two.active.nprod = true ∧ two.work.pins.xportAvail1 = true) := by decide +kernel

theorem witness_StartRejects :
    let s := readyWith (small 1)
    State.reset.status.inited = false ∧ (filled 1 []).status.inited = true ∧ (filled 1 []).status.running = true ∧
    s.status.inited = true ∧ s.status.running = false ∧
    ({ s with pins := ⟨false, true, true⟩ }).work.pins.xportAvail0 = false ∧
    ({ s with pins := ⟨true, false, false⟩ }).work.pins.xportAvail0 = true ∧ s.active.nprod = false ∧
    ({ s with pins := ⟨true, false, false⟩ }).work.pins.notifyOk = false ∧
    (running { s with pins := ⟨true, false, false⟩ } 0x00000002).sequencer =
      .busy 0x00000002 ⟨0, none, ⟨true, false, false⟩, [], []⟩ := by decide +kernel

theorem witness_StopDisarms :
    (readyWith (small 1)).status.running = false ∧ (filled 1 []).status.running = true := by decide +kernel

theorem witness_SetCommands :
    (readyWith (small 1)).status.inited = true ∧ 65535 ≤ 65535 ∧ (1 : Nat) ≠ 0 ∧ (0 : Nat) = 0 := by decide +kernel

theorem witness_NotInitialised :
    State.reset.status.inited = false ∧ Instr.decode 0 0 ≠ .nop ∧ Instr.decode 0 0 ≠ .init ∧
    Instr.decode 0 0 ≠ .stop := by decide

/-- A stopped session, and the same with a READ of a filled slot running, meet the invariant. -/
theorem witness_Inv_ready : (readyWith (small 1)).Inv :=
  ⟨by decide +kernel, by decide +kernel, by decide +kernel,
    fun _ => ⟨by decide +kernel, by decide +kernel, by decide +kernel, by decide +kernel, by decide +kernel,
      by decide +kernel, by decide +kernel, by decide +kernel, by decide +kernel⟩,
    fun _ => ⟨by decide +kernel, by decide +kernel, by decide +kernel, by decide +kernel⟩,
    by decide +kernel, by decide +kernel, trivial⟩

theorem witness_Inv_reading : reading.Inv :=
  ⟨by decide +kernel, by decide +kernel, by decide +kernel,
    fun _ => ⟨by decide +kernel, by decide +kernel, by decide +kernel, by decide +kernel, by decide +kernel,
      by decide +kernel, by decide +kernel, by decide +kernel, by decide +kernel⟩,
    fun _ => ⟨by decide +kernel, by decide +kernel, by decide +kernel, by decide +kernel⟩,
    by decide +kernel, by decide +kernel, by
      show (_ : Option (BitVec 8)) = _
      decide +kernel⟩

/-- SessionLifeCycle, StepKeepsInvariant: a session state with a step that changes the session. -/
theorem witness_SessionLifeCycle :
    let s := running (readyWith (small 1)) 0x00000002
    s.session = .ready ∧ s.running? = some .start ∧ afterStep s (fun t => t.session = .running) = true := by
  decide +kernel

theorem witness_StrategyHasNoEffect :
    ∃ t, exec (.decode 0 0) (readyWith (small 1)) = .next t ∧ t.status.err = .ok := ⟨_, rfl, by decide +kernel⟩

theorem witness_FilterStepExact :
    let k := initConsts example16
    (List.replicate 8 (0xFF : Byte)).length = 64 / 8 ∧ FilterState.zero.Bounded 64 ∧ k.subConst.toNat = 64 ^ 3 / 2 ∧
    k.lpAlfa.toNat ≤ 255 ∧ k.hpAlfa.toNat ≤ 255 :=
  ⟨by decide, ⟨by decide +kernel, by decide +kernel, by decide +kernel, by decide +kernel, by decide +kernel⟩,
    by decide +kernel, by decide +kernel, by decide +kernel⟩

theorem witness_ThreeWindows :
    let wins : List (List Byte) := List.replicate 3 (List.replicate 8 0xAA)
    (∀ win ∈ wins, win.length = 64 / 8) ∧ 0 < wins.length ∧ 2 < wins.length := by decide

theorem witness_RounddivNearest : (0 : Int) < 16 ∧ 2 * (rounddiv 8 16 * 16 - 8).natAbs = 16 := by decide

theorem witness_SamplesSaturate :
    ({ initConsts example16 with volume := 0 } : FilterConsts).volume = 0 := by decide

/-- K = 15 for HP_ALFA = 240 (R90). -/
theorem witness_HighPassResidual :
    let k := initConsts (small 1)
    k.hpAlfa.toNat = 240 ∧ 15 * (256 - k.hpAlfa.toNat) < 256 ∧
    ({ FilterState.zero with oldOut := BitVec.ofInt 64 (-15) } : FilterState).oldOut.toInt = -15 := by decide +kernel

theorem witness_FresetResult : 3 < 4 ∧ (readyWith (small 1)).status.inited = true := by decide +kernel

/-- The last channel and the last block that are there. -/
theorem witness_DecodeResult :
    let s := readyWith ⟨1000, 2, 4, false, false, 2, 0, 0⟩
    s.status.inited = true ∧ initCheck s.active = none ∧ 3 < s.active.channels ∧
    (1 + 1) * s.active.spm ≤ s.active.samples := by decide +kernel

theorem witness_OperandRejects :
    let s := readyWith ⟨1000, 2, 4, false, false, 2, 0, 0⟩
    s.status.inited = true ∧ s.active.channels ≤ 4 ∧ s.active.samples < (2 + 1) * s.active.spm ∧ s.active.slots ≤ 2 := by
  decide +kernel

theorem witness_InterleaveRoundTrip :
    (∀ c < 2, (fun c => if c = 0 then 0xBEEF else 0x1234) c < 2 ^ (32 / 2)) ∧ (∀ c < 4, 255 - c < 2 ^ (32 / 4)) := by
  decide

theorem witness_DemuxResult :
    [1, 2, 4].all (fun n =>
      let s := readyWith (small n)
      s.status.inited && initCheck s.active = none && 1 < s.active.slots && s.active.channels = n.toNat) = true := by
  decide +kernel

/-- RaceRule: no write since, a write since, an IDLE sequencer, and a transport that is and one that is not there. -/
theorem witness_RaceRule :
    reading.sequencer = .busy 0x00010004 ⟨1, some 0, ⟨true, true, true⟩, reading.ring, []⟩ ∧
    (∃ wk, (reading.writeRing 3 0).sequencer = .busy 0x00010004 wk ∧ ¬∀ cell ∈ wk.ringWrites, cell.1 ≠ 3) ∧
    (filled 1 []).sequencer = .idle ∧ (0 : Transport).val < reading.active.producers ∧
    reading.active.producers ≤ (1 : Transport).val :=
  ⟨by decide +kernel, ⟨⟨1, some 0, ⟨true, true, true⟩, reading.ring, [(3, 0)]⟩, by decide +kernel, by decide⟩,
    by decide +kernel, by decide +kernel, by decide +kernel⟩

theorem witness_NormProperties : 0 < 2 ∧ 8 % 2 = 0 ∧ 5 % 2 = 1 ∧ ((4 : Int) - 8 / 2) % 8 = 0 := by decide

/-- In the drift variant: a selection outside the guard window, and a rebase at its edge. -/
theorem witness_SelectionAvoidsWriter :
    initCheck drift = none ∧ (7 : BitVec 8).toNat < drift.slots ∧ select drift 7 7 = none ∧
    select drift 1 3 = some ⟨1, false⟩ ∧ select drift 2 3 = some ⟨1, true⟩ ∧ 0 < drift.guardSlots := by decide

theorem witness_CompletionEvent :
    (readyWith (small 1)).status.running = false ∧
    (filled 1 []).status.running = true ∧ (0 : Transport).val < 1 + (filled 1 []).active.nprod.toNat ∧
    1 + (filled 1 []).active.nprod.toNat ≤ (1 : Transport).val ∧ 2 ≤ (filled 1 []).active.slots ∧
    (1 : Transport).val < 1 + (⟨1000, 1, 1, false, true, 2, 0, 0⟩ : Configuration).nprod.toNat := by decide +kernel

theorem witness_WCountsCompletions :
    let s := { filled 1 [] with active := ⟨1000, 1, 1, false, true, 4, 0, 0⟩ }
    s.status.running = true ∧ 2 ≤ s.active.slots ∧ s.w.toNat < s.active.slots ∧
    ∀ p ∈ ([1, 1, 0] : List Transport), p.val < s.active.producers := by decide +kernel

theorem witness_ReadWithoutSlot :
    (readyWith (small 1)).status.inited = true ∧ (readyWith (small 1)).work.wSnap = (readyWith (small 1)).r := by
  decide +kernel

theorem witness_ReadConsumesSlot :
    reading.status.inited = true ∧ initCheck reading.active = none ∧
    select reading.active reading.r reading.work.wSnap = some ⟨0, false⟩ ∧ (0 : BitVec 8).toNat < reading.active.slots ∧
    after (.demux 0) reading (fun u => u.memByte .scratch 0 = 0xFF) = true := by decide +kernel

theorem witness_MisalignedAccess :
    (0x80001 : BitVec 20).toNat % Width.half.bytes ≠ 0 ∧ (0x00002 : BitVec 20).toNat % Width.word.bytes ≠ 0 := by decide

/-- Each cause of BusErrorCauses at the ends of its ranges, and the accesses next to them that succeed. -/
theorem witness_BusErrorCauses :
    [0x064, 0x0FC, 0x128, 0x13C, 0x1E8, 0x1FC, 0x200, 0xFFC, 0x05000, 0x3FFFC, 0x60000, 0x7FFFC].all (fun n =>
      (reading.readData .word n).isNone && (reading.writeData .word n 0).isNone) = true ∧
    [0x060, 0x100, 0x124, 0x140, 0x1E4, 0x01000, 0x04FFC, 0x40000, 0x5FFFC].all (fun n =>
      (reading.readData .word n).isSome && (reading.writeData .word n 0).isNone) = true ∧
    [0x010, 0x01C].all (fun n => (reading.writeData .word n 0).isNone && (State.reset.writeData .word n 0).isSome) = true ∧
    (reading.readData .half 0x008).isNone = true ∧ (reading.readData .byte 0xFFF).isNone = true ∧
    (reading.readData .half 0x80001).isNone = true ∧ (reading.writeData .half 0xFFFFE 0).isSome = true := by
  decide +kernel

/-- RingWindow: the ends of the window, an IDLE sequencer and one that runs a READ; the halfword of a running READ's slot
joins the race record, newest byte first. -/
theorem witness_RingWindow :
    0x80000 ≤ (0xFFFFC : BitVec 20).toNat ∧ (0xFFFFC : BitVec 20).toNat % Width.word.bytes = 0 ∧
    0x80000 ≤ (0xFFFFF : BitVec 20).toNat ∧ (0xFFFFF : BitVec 20).toNat % Width.byte.bytes = 0 ∧
    State.reset.sequencer = .idle ∧
    reading.sequencer = .busy 0x00010004 ⟨1, some 0, ⟨true, true, true⟩, reading.ring, []⟩ ∧
    (reading.hostWrite .half 0x80002 0xABCD1234).sequencer =
      .busy 0x00010004 ⟨1, some 0, ⟨true, true, true⟩, reading.ring, [(3, 0x12), (2, 0x34)]⟩ := by decide +kernel

/-- HostReadOnlyResponds: an IDLE sequencer, with the last byte of each window and the last PCM sample in their ranges. -/
theorem witness_HostReadOnlyResponds :
    (filled 1 []).sequencer = .idle ∧ 0x3FFF < 0x4000 ∧ 0x1FFFF < 0x20000 ∧ 0x7FFFC < 0x80000 ∧ 0x7FFFC % 4 = 0 ∧
    8191 < 8192 ∧ (filled 1 []).readData .word 0x04C = some 1 ∧ (filled 1 []).readData .word 0x060 = some 1 ∧
    ((filled 1 []).writeMem .pcm 0x3FFE [0x34, 0x12]).readData .half 0x04FFE = some 0x1234 ∧
    ((filled 1 []).writeMem .scratch 0x1FFFF [0x56]).readData .byte 0x5FFFF = some 0x56 := by decide +kernel

/-- ConfigReadsBack: an IDLE sequencer, and CTRL written while a command runs. -/
theorem witness_ConfigReadsBack :
    State.reset.sequencer = .idle ∧ reading.sequencer ≠ .idle ∧
    (let s := reading.onDone 0
     s.irq = false ∧ (s.hostWrite .word 0x000 0xFFFFFFFD).irq = true) := by decide +kernel

/-- R120's codes, in STATUS[11:8]. -/
theorem test_error_codes :
    [ErrCode.ok, .illegalCmd, .notInit, .state, .config, .resource, .hardware, .arg].map (fun e =>
        ({ State.reset with status := { State.reset.status with err := e } } : State).readData .word 0x008) =
      [0x000, 0x100, 0x300, 0x400, 0x500, 0x600, 0x700, 0x800].map some := by decide +kernel

theorem witness_StatusRegister : ∃ w, (filled 1 []).readData .word 0x008 = some w ∧ w.getLsbD 1 = true :=
  ⟨0x00000003, by decide +kernel, by decide⟩

theorem witness_Interrupt :
    (filled 1 []).status.running = true ∧ (0 : Transport).val < (filled 1 []).active.producers ∧
    (0x00000008 : Word).getLsbD 3 = true ∧ (0x00000030 : Word).getLsbD 3 = false := by decide +kernel

theorem witness_CommandsWriteOnlyTheirPlaces :
    reading.Inv ∧ reading.sequencer = .busy 0x00010004 ⟨1, some 0, ⟨true, true, true⟩, reading.ring, []⟩ ∧
    decode 0x00010004 = .ok (.read 1) ∧ (∃ t, exec (.read 1) reading = .next t) ∧
    reading.willWriteReg (.read 1) .volume = false ∧ reading.willWriteReg (.read 1) .rcur = true ∧
    reading.willWriteByte (.read 1) .pcm 2 = false ∧ reading.willWriteByte (.read 1) .pcm 1 = true :=
  ⟨witness_Inv_reading, by decide +kernel, by decide, ⟨_, rfl⟩, by decide +kernel, by decide +kernel, by decide +kernel,
    by decide +kernel⟩

/-- The footprint of the running READ of one sample, at its ends: the places beside it read as held, those in it do not
count as held; and while a NOP runs, or a START that will fail, every register does. -/
theorem witness_footprints :
    [0x010, 0x020, 0x04C, 0x054, 0x05C, 0x060, 0x140].map (reading.readData .word) =
      [some 1000, some 64, some 1, some 1, some 0, some 1, some 0] ∧
    [(Space.scratch, 8), (.pcm, 2), (.ring, 0)].all (fun p => !reading.byteUnspecified p.1 p.2) = true ∧
    [(Space.scratch, 7), (.pcm, 1)].all (fun p => reading.byteUnspecified p.1 p.2) = true ∧
    [Reg.result, .rcur, .fstate 0 .coef1 true].all reading.regUnspecified = true ∧
    (running (filled 1 []) 0x00000000).readData .word 0x050 = some 0 ∧
    (running (filled 1 []) 0x00000002).readData .word 0x04C = some 1 := by decide +kernel

theorem witness_StepKeepsInvariant : reading.Inv ∧ ∃ t, step reading = .next t := ⟨witness_Inv_reading, _, rfl⟩

theorem witness_StepKeepsFiltersBounded :
    reading.Inv ∧ reading.FiltersBounded ∧ ∃ t, step reading = .next t :=
  ⟨witness_Inv_reading,
    fun c => by
      have h : reading.filter[c] = FilterState.zero := by
        have : ∀ c : Fin 4, reading.filter[c] = FilterState.zero := by decide +kernel
        exact this c
      rw [h]
      exact ⟨by decide +kernel, by decide +kernel, by decide +kernel, by decide +kernel, by decide +kernel⟩,
    _, rfl⟩

/-- OnlyCommandsWrite: a port write, an accepted completion, an ignored one, and the CMD and STATUS writes, while a READ
runs; and the sequencer's turn at IDLE. -/
theorem witness_OnlyCommandsWrite :
    let s (e : Event) := { reading with events := [e, .wait] }
    (∀ e ∈ ([.portWrite 0 3 0, .done 0, .done 1, .wr .word cmdAddr 1, .wr .word statusAddr 0x38] : List Event),
      (s e).nextEvent = some (e, [.wait]) ∧ e ≠ .complete ∧ e ≠ .reset ∧ (∃ t, step (s e) = .next t)) ∧
    (let idle := { filled 1 [] with events := [.complete] }
     idle.nextEvent = some (.complete, []) ∧ idle.sequencer = .idle ∧ ∃ t, step idle = .next t) ∧
    reading.status.running = true ∧ (0 : Transport).val < reading.active.producers ∧
    ¬(1 : Transport).val < reading.active.producers ∧ 0 < reading.active.slots ∧
    afterStep (s (.wr .word cmdAddr 1)) (fun t => t.status.dropped) = true ∧
    afterStep { (reading.onDone 0) with events := [.wr .word statusAddr 0x38] } (fun t => !t.status.readyPend) = true :=
  ⟨by
      intro e he
      simp only [List.mem_cons, List.not_mem_nil, or_false] at he
      rcases he with rfl | rfl | rfl | rfl | rfl <;> exact ⟨rfl, by decide, by decide, _, rfl⟩,
    ⟨by decide +kernel, by decide +kernel, _, rfl⟩,
    by decide +kernel, by decide +kernel, by decide +kernel, by decide +kernel, by decide +kernel, by decide +kernel⟩

end Sys2Proof.Tests
end

section
/-! The invariant at reset and at every step: what every event keeps, and the values at reset. -/

namespace Sys2Proof.Machine

/-! ### Reset (R47) -/

/-- What reset leaves meets the invariant: no session, nothing armed, nothing written. -/
theorem State.reset_inv : State.reset.Inv where
  memory := State.reset_memoryWf
  running_inited := nofun
  legal := nofun
  consts := nofun
  cursors := nofun
  armed_off _ := rfl
  armed_on := nofun
  selection := State.selectionOk_idle rfl

theorem FilterState.zero_bounded (D : Nat) : FilterState.zero.Bounded D := by
  have h : (0 : BitVec 64).toInt = 0 := by decide
  constructor <;> simp only [FilterState.zero, h] <;> omega

/-- Settles O57: reset has no session, so every clause about a session is vacuous, and F is zero. -/
theorem invariantAtReset : Obligations.InvariantAtReset := by
  refine ⟨State.reset_inv, fun c => ?_⟩
  have h : State.reset.filter[c] = FilterState.zero := by simp [State.reset]
  rw [h]
  exact FilterState.zero_bounded _

/-- Settles O55: reset is one state, so each of its values is computed. -/
theorem resetValues : Obligations.ResetValues := by
  refine ⟨by decide +kernel, fun c => by simp [State.reset, FilterState.zero], rfl, rfl, rfl, rfl, rfl, rfl, rfl, rfl,
    rfl⟩

/-- The reset event reaches the reset state but for the environment's fields and the draw of storage (R135). -/
theorem State.resetNow_inv (s : State) : s.resetNow.Inv :=
  State.reset_inv.of_eq rfl rfl rfl rfl rfl rfl rfl nofun rfl (State.selectionOk_idle rfl)

/-! ### The session commands (R113-R118) -/

/-- SET_VOLUME, SET_GAIN and SET_MAXVOL may write any constants that still belong to A. -/
theorem State.Inv.setConsts {s : State} (h : s.Inv) {k : FilterConsts}
    (hk : s.status.inited = true → ({ s with consts := k } : State).ConstsOk) : ({ s with consts := k } : State).Inv :=
  { h with consts := hk, selection := State.selectionOk_congr h.selection rfl rfl rfl rfl }

/-- The constants are read off the fields the filter reads and A. -/
theorem State.ConstsOk.congr {s t : State} (h : s.ConstsOk) (ha : t.active = s.active) (hc : t.consts = s.consts)
    (hs : t.spm = s.spm) (hb : t.slotBytes = s.slotBytes) : t.ConstsOk := by
  obtain ⟨spm, bytes, lp, hp, lpA, hpA, sub, gain, div⟩ := h
  constructor <;> simpa only [ha, hc, hs, hb]

/-- SUB_CONST fits its register for both decimation factors (R78). -/
theorem subConstOf_decim_lt (a : Configuration) : subConstOf a.decim < 2 ^ 32 := by
  have h : subConstOf 64 < 2 ^ 32 ∧ subConstOf 128 < 2 ^ 32 := by decide +kernel
  rcases decim_cases a with ⟨e, _⟩ | ⟨e, _⟩ <;> rw [e]
  · exact h.1
  · exact h.2

/-- DIV_CONST as INIT computes it is what its registers give: SUB_CONST loses nothing in its register (R78). -/
theorem initConsts_divConst (a : Configuration) :
    (initConsts a).divConst = BitVec.ofNat 32
      (divConstOf (initConsts a).subConst.toNat (initConsts a).maxvol.toNat (initConsts a).gain.toNat) := by
  have h : (initConsts a).subConst.toNat = subConstOf a.decim := by
    rw [initConsts, BitVec.toNat_ofNat, Nat.mod_eq_of_lt (subConstOf_decim_lt a)]
  rw [h]
  rfl

theorem initConsts_gain_pos (a : Configuration) : 1 ≤ (initConsts a).gain.toNat := by
  show 1 ≤ (BitVec.ofNat 16 Config.gainDefault).toNat
  decide

/-- A new session's constants are those of its configuration (R113). -/
theorem State.newSession_constsOk (s : State) : s.newSession.ConstsOk :=
  ⟨rfl, rfl, rfl, rfl, rfl, rfl, rfl, initConsts_gain_pos s.cfg, initConsts_divConst s.cfg⟩

/-- INIT of a legal configuration while stopped: cursors 0 in a ring of at least two slots (R113). -/
theorem State.Inv.newSession {s : State} (h : s.Inv) (hr : s.status.running = false) (hc : initCheck s.cfg = none) :
    (s.newSession.finish .ok).Inv where
  memory := State.memoryWf_congr h.memory rfl rfl rfl
  running_inited _ := rfl
  legal _ := hc
  consts _ := s.newSession_constsOk.congr rfl rfl rfl rfl
  cursors _ := by
    obtain ⟨-, -, -, -, -, hB, -, -⟩ := (initCheck_eq_none s.cfg).mp hc
    have h0 : 0 < s.cfg.slots := by omega
    exact ⟨h0, h0, h0, h0⟩
  armed_off := h.armed_off
  armed_on hr' := absurd (hr.symm.trans hr') nofun
  selection := State.selectionOk_idle rfl

/-- INIT of an illegal configuration while stopped ends the session (R113). -/
theorem State.Inv.initFailed {s : State} (h : s.Inv) (hr : s.status.running = false) (e : ErrCode) :
    (({ s with status := { s.status with inited := false } } : State).finish e).Inv where
  memory := State.memoryWf_congr h.memory rfl rfl rfl
  running_inited hr' := absurd (hr.symm.trans hr') nofun
  legal := nofun
  consts := nofun
  cursors := nofun
  armed_off := h.armed_off
  armed_on hr' := absurd (hr.symm.trans hr') nofun
  selection := State.selectionOk_idle rfl

/-- START of a stopped session: the cursors are slots 0 and 1, and exactly A's transports are armed (R99, R114). -/
theorem State.Inv.started {s : State} (h : s.Inv) (hi : s.status.inited = true) (hr : s.status.running = false) :
    (s.started.finish .ok).Inv := by
  obtain ⟨armed0, armed1, wc0, wc1⟩ := s.started_armed
  have armedOff : s.armed[1] = false := by rw [h.armed_off hr]; rfl
  obtain ⟨-, -, -, -, -, hB, -, -⟩ := (initCheck_eq_none s.active).mp (h.legal hi)
  rw [State.started_eq]
  exact {
    memory := State.memoryWf_congr h.memory rfl rfl rfl
    running_inited := fun _ => hi
    legal := h.legal
    consts := fun _ => (h.consts hi).congr rfl rfl rfl rfl
    cursors := fun _ => by
      have h0 : (0 : BitVec 8).toNat < s.active.slots := by rw [show (0 : BitVec 8).toNat = 0 from rfl]; omega
      have h1 : (1 : BitVec 8).toNat < s.active.slots := by rw [show (1 : BitVec 8).toNat = 1 from rfl]; omega
      refine ⟨h0, h0, ?_, ?_⟩
      · show s.started.wc[0].toNat < s.active.slots
        rw [wc0]; exact h0
      · show s.started.wc[1].toNat < s.active.slots
        rw [wc1]; split
        · exact h1
        · exact h0
    armed_off := nofun
    armed_on := fun _ => ⟨armed0, by rw [armedOff, Bool.or_false] at armed1; exact armed1⟩
    selection := State.selectionOk_idle rfl }

/-- STOP of a running session disarms both transports (R115). -/
theorem State.Inv.stopped {s : State} (h : s.Inv) (hr : s.status.running = true) : (s.stopped.finish .ok).Inv := by
  have hi := h.running_inited hr
  rw [State.stopped_eq]
  exact {
    memory := State.memoryWf_congr h.memory rfl rfl rfl
    running_inited := nofun
    legal := h.legal
    consts := fun _ => (h.consts hi).congr rfl rfl rfl rfl
    cursors := fun _ => State.cursors_congr (h.cursors hi) rfl rfl rfl rfl
    armed_off := fun _ => rfl
    armed_on := nofun
    selection := State.selectionOk_idle rfl }

/-- SET_VOLUME: VOLUME belongs to no other constant (R116). -/
theorem State.Inv.setVolume {s : State} (h : s.Inv) (v : BitVec 16) :
    ({ s with consts := { s.consts with volume := v } } : State).Inv :=
  h.setConsts fun hi =>
    have k := h.consts hi
    ⟨k.spm, k.slotBytes, k.lpHz, k.hpHz, k.lpAlfa, k.hpAlfa, k.subConst, k.gain, k.divConst⟩

/-- SET_GAIN of an operand that fits GAIN and is not 0 keeps DIV_CONST's equation (R117). -/
theorem State.Inv.setGain {s : State} (h : s.Inv) {g : Nat} (hg : g ≠ 0) (hg' : g < 65536) :
    ({ s with consts := { s.consts with
      gain := BitVec.ofNat 16 g
      divConst := BitVec.ofNat 32 (divConstOf s.consts.subConst.toNat s.consts.maxvol.toNat g) } } : State).Inv :=
  h.setConsts fun hi =>
    have k := h.consts hi
    have e : (BitVec.ofNat 16 g).toNat = g := by rw [BitVec.toNat_ofNat, Nat.mod_eq_of_lt hg']
    ⟨k.spm, k.slotBytes, k.lpHz, k.hpHz, k.lpAlfa, k.hpAlfa, k.subConst,
      by show 1 ≤ (BitVec.ofNat 16 g).toNat; omega, by simp only [e]⟩

/-- SET_MAXVOL of an operand that fits MAXVOL keeps DIV_CONST's equation (R118). -/
theorem State.Inv.setMaxvol {s : State} (h : s.Inv) {m : Nat} (hm : m < 65536) :
    ({ s with consts := { s.consts with
      maxvol := BitVec.ofNat 16 m
      divConst := BitVec.ofNat 32 (divConstOf s.consts.subConst.toNat m s.consts.gain.toNat) } } : State).Inv :=
  h.setConsts fun hi =>
    have k := h.consts hi
    have e : (BitVec.ofNat 16 m).toNat = m := by rw [BitVec.toNat_ofNat, Nat.mod_eq_of_lt hm]
    ⟨k.spm, k.slotBytes, k.lpHz, k.hpHz, k.lpAlfa, k.hpAlfa, k.subConst, k.gain, by simp only [e]⟩

/-! ### The commands on the data path (R88, R89, R97, R106) -/

/-- FRESET: the filter state file is no part of the invariant (R89). -/
theorem State.Inv.setFilter {s : State} (h : s.Inv) (c : Nat) (f : FilterState) : (s.setFilter c f).Inv :=
  h.of_eq (State.memoryWf_congr h.memory rfl rfl rfl) rfl rfl rfl rfl rfl rfl
    (fun hi => State.cursors_congr (h.cursors hi) rfl rfl rfl rfl) rfl
    (State.selectionOk_congr h.selection rfl rfl rfl rfl)

/-- DEMUX: the streams of a legal configuration stay inside SCRATCH (R94, R97). -/
theorem State.Inv.demuxSlot {s : State} (h : s.Inv) (hi : s.status.inited = true) (slot : Nat) :
    (s.demuxSlot slot).Inv := by
  obtain ⟨ring, scratch, pcm⟩ := (State.memoryWf_iff s).mp h.memory
  refine h.of_eq ((State.memoryWf_iff _).mpr ⟨?_, s.demuxSlot_wf slot (h.legal hi) scratch, ?_⟩) (by simp) (by simp)
    (by simp) (by simp) (by simp) (by simp)
    (fun hi => State.cursors_congr (h.cursors hi) (by simp) (by simp) (by simp) (by simp)) (by simp)
    (State.selectionOk_congr h.selection (by simp) (by simp) (by simp) (by simp))
  · rw [State.demuxSlot_ring]; exact ring
  · rw [State.demuxSlot_pcm]; exact pcm

/-- DECODE of a block inside the stream stays inside PCM (R87, R88). -/
theorem State.Inv.decodeBlock {s : State} (h : s.Inv) (c src : Nat) (hp : 2 * s.active.spm ≤ Config.pcmBytes) :
    (s.decodeBlock c src 0).Inv := by
  obtain ⟨ring, scratch, pcm⟩ := (State.memoryWf_iff s).mp h.memory
  refine h.of_eq ((State.memoryWf_iff _).mpr ⟨?_, ?_, s.decodeBlock_wf c src 0 pcm (by omega)⟩) (by simp) (by simp)
    (by simp) (by simp) (by simp) (by simp)
    (fun hi => State.cursors_congr (h.cursors hi) (by simp) (by simp) (by simp) (by simp)) (by simp)
    (State.selectionOk_congr h.selection (by simp) (by simp) (by simp) (by simp))
  · rw [State.decodeBlock_ring]; exact ring
  · rw [State.decodeBlock_scratch]; exact scratch

/-- The filtering of a READ stays inside PCM (R106). -/
theorem State.Inv.decodeAll {s : State} (h : s.Inv) (hi : s.status.inited = true) (nreq : Nat) :
    (s.decodeAll (readCount s.active nreq)).Inv := by
  obtain ⟨ring, scratch, pcm⟩ := (State.memoryWf_iff s).mp h.memory
  refine h.of_eq ((State.memoryWf_iff _).mpr ⟨?_, ?_, s.decodeAll_wf nreq (h.legal hi) pcm⟩) (by simp) (by simp)
    (by simp) (by simp) (by simp) (by simp)
    (fun hi => State.cursors_congr (h.cursors hi) (by simp) (by simp) (by simp) (by simp)) (by simp)
    (State.selectionOk_congr h.selection (by simp) (by simp) (by simp) (by simp))
  · rw [State.decodeAll_ring]; exact ring
  · rw [State.decodeAll_scratch]; exact scratch

/-- The end of a READ that consumed a slot: R moves on inside the ring (R106). -/
theorem State.Inv.consumed {s : State} (h : s.Inv) {a : Configuration} (ha : s.active = a) (x : Int)
    (res : ReadResult) : (({ s with r := slotMod a.slots x, result := res } : State).finish .ok).Inv := by
  subst ha
  refine h.of_eq (State.memoryWf_congr h.memory rfl rfl rfl) rfl rfl rfl rfl rfl rfl (fun hi => ?_) rfl
    (State.selectionOk_idle rfl)
  obtain ⟨w, -, wc0, wc1⟩ := h.cursors hi
  exact ⟨w, slotMod_lt (Nat.zero_lt_of_lt w) (Nat.le_of_lt (slots_lt _)) x, wc0, wc1⟩

/-- The end of a READ that found no slot: only RESULT is written (R106). -/
theorem State.Inv.setResult {s : State} (h : s.Inv) (res : ReadResult) : ({ s with result := res } : State).Inv :=
  h.of_eq (State.memoryWf_congr h.memory rfl rfl rfl) rfl rfl rfl rfl rfl rfl
    (fun hi => State.cursors_congr (h.cursors hi) rfl rfl rfl rfl) rfl
    (State.selectionOk_congr h.selection rfl rfl rfl rfl)

/-- READ, in each of its three outcomes (R106). -/
theorem State.Inv.execRead {s t : State} (h : s.Inv) {nreq : Nat} (ht : exec (.read nreq) s = .next t) : t.Inv := by
  rcases execRead_cases s nreq with ⟨_, e⟩ | ⟨_, _, e⟩ | ⟨hi, sel, _, e⟩ <;> cases e.symm.trans ht
  · exact h.finish _
  · exact (h.setResult _).finish _
  · have hd := h.demuxSlot hi sel.slot.toNat
    have hf := hd.decodeAll (by rw [State.demuxSlot_status]; exact hi) nreq
    rw [State.demuxSlot_active] at hf
    exact hf.consumed (by simp) _ _

/-- Every command whose operands fit their fields keeps the invariant, whichever of its outcomes it has. -/
theorem State.Inv.exec {s t : State} (h : s.Inv) {i : Instr} (hw : i.wellFormed = true) (ht : exec i s = .next t) :
    t.Inv := by
  cases i with
  | nop => cases ht; exact h.finish _
  | init =>
    rcases execInit_cases s with ⟨_, e⟩ | ⟨hr, c, _, e⟩ | ⟨hr, hc, e⟩ <;> cases e.symm.trans ht
    · exact h.finish _
    · exact h.initFailed hr c
    · exact h.newSession hr hc
  | start =>
    rcases execStart_cases s with ⟨_, c, _, e⟩ | ⟨_, hi, hr, e⟩ <;> cases e.symm.trans ht
    · exact h.finish _
    · exact h.started hi hr
  | stop =>
    rcases execStop_cases s with ⟨_, e⟩ | ⟨hr, e⟩ <;> cases e.symm.trans ht
    · exact h.finish _
    · exact h.stopped hr
  | read n => exact h.execRead ht
  | setVolume v =>
    rcases execSetVolume_cases s v with ⟨_, e⟩ | ⟨_, e⟩ <;> cases e.symm.trans ht
    · exact h.finish _
    · exact (h.setVolume _).finish _
  | setGain g =>
    have hg' : g ≤ 65535 := of_decide_eq_true hw
    rcases execSetGain_cases s g with ⟨c, _, e⟩ | ⟨_, hg, e⟩ <;> cases e.symm.trans ht
    · exact h.finish _
    · exact (h.setGain hg (by omega)).finish _
  | setMaxvol m =>
    have hm : m ≤ 65535 := of_decide_eq_true hw
    rcases execSetMaxvol_cases s m with ⟨_, e⟩ | ⟨_, e⟩ <;> cases e.symm.trans ht
    · exact h.finish _
    · exact (h.setMaxvol (by omega)).finish _
  | freset c =>
    rcases execFreset_cases s c with ⟨_, e⟩ | ⟨_, e⟩ <;> cases e.symm.trans ht
    · exact h.finish _
    · exact (h.setFilter c _).finish _
  | demux n =>
    rcases execDemux_cases s n with ⟨c, _, e⟩ | ⟨hi, _, e⟩ <;> cases e.symm.trans ht
    · exact h.finish _
    · exact (h.demuxSlot hi n).finish _
  | decode c k =>
    rcases execDecode_cases s c k with ⟨e', _, e⟩ | ⟨hi, _, _, e⟩ <;> cases e.symm.trans ht
    · exact h.finish _
    · have hp : 2 * s.active.spm ≤ Config.pcmBytes := by
        have := spm_le s.active
        unfold Config.pcmBytes
        omega
      exact (h.decodeBlock c _ hp).finish _

/-- The sequencer's completion step (R109): the operands of a decoded word fit their fields. -/
theorem State.Inv.completeCommand {s t : State} (h : s.Inv) (ht : s.completeCommand = .next t) : t.Inv := by
  rcases s.completeCommand_cases with ⟨_, e⟩ | ⟨_, _, i, _, hd, e⟩ | ⟨_, _, _, _, _, e⟩
  · cases e.symm.trans ht; exact h
  · exact h.exec (decode_wellFormed hd) (e.symm.trans ht)
  · cases e.symm.trans ht; exact h.finish _

/-- Every event of every agent keeps the invariant. -/
theorem State.Inv.takeEvent {s t : State} (h : s.Inv) {e : Event} (ht : takeEvent e s = .next t) : t.Inv := by
  have hk : s.tick.Inv := h.of_environment rfl
  rcases takeEvent_cases e s with ⟨v, er, he⟩ | ⟨w, a, v, he⟩ | ⟨v, er, es, he⟩ | ⟨p, off, b, he⟩ | ⟨p, he⟩ |
    ⟨v, p, he⟩ | ⟨ps, he⟩ | ⟨-, he⟩ | ⟨-, he⟩
  · cases he.symm.trans ht; exact h.of_environment rfl
  · cases he.symm.trans ht; exact hk.hostWrite w a v
  · cases he.symm.trans ht; exact h.of_environment rfl
  · cases he.symm.trans ht; exact hk.portWrite p off b
  · cases he.symm.trans ht; exact hk.onDone p
  · cases he.symm.trans ht; exact (hk.hostWrite .word statusAddr v).onDone p
  · cases he.symm.trans ht; exact hk.of_environment rfl
  · exact hk.completeCommand (he.symm.trans ht)
  · cases he.symm.trans ht; exact State.resetNow_inv _

/-- Settles O58: a step rests, or takes one agent's event from a state that differs in its schedule only. -/
theorem stepKeepsInvariant : Obligations.StepKeepsInvariant := by
  intro s t h ht
  rcases step_cases s with ⟨_, e⟩ | ⟨ev, es, _, e⟩
  · cases e.symm.trans ht; exact h
  · have hs : ({ s with events := es } : State).Inv := h.of_environment rfl
    exact hs.takeEvent (e.symm.trans ht)

end Sys2Proof.Machine
end

section
/-! CTRL, STATUS and CFG_*: how their words read back after a host write, at IDLE and while a command runs. -/

namespace Sys2Proof.Machine

/-! ### Registers that read as held (R22, R24, R62) -/

/-- CTRL, CFG_* and STATUS are none of the places a running command makes unspecified, so they read as held while BUSY
(R62, log 7). -/
theorem State.regUnspecified_hostWritable (s : State) {r : Reg}
    (hr : r ∈ [Reg.ctrl, .status, .cfgFs, .cfgSbs, .cfgFmt, .cfgRing]) : s.regUnspecified r = false := by
  unfold State.regUnspecified
  cases s.running? with
  | none => rfl
  | some i =>
    simp only [List.mem_cons, List.not_mem_nil, or_false] at hr
    rcases hr with rfl | rfl | rfl | rfl | rfl | rfl <;> cases i <;>
      simp [State.willWriteReg, initRegs, startRegs, Reg.inFilter]

/-- A 32-bit read of a register that is not unspecified returns the word it holds (R21). -/
theorem State.readData_reg {s : State} {a : Nat} {r : Reg} (hal : aligned .word a = true) (ht : target a = .reg r)
    (hr : r ∈ [Reg.ctrl, .status, .cfgFs, .cfgSbs, .cfgFmt, .cfgRing]) : s.readData .word a = some (s.regWord r) := by
  rw [State.readData, if_pos hal, ht]
  simp [State.hostRegWord, s.regUnspecified_hostWritable hr]

theorem State.readData_ctrl (s : State) : s.readData .word 0x000 = some s.ctrl.toWord :=
  State.readData_reg (r := .ctrl) rfl rfl (by decide)

theorem State.readData_status (s : State) : s.readData .word 0x008 = some s.statusWord :=
  State.readData_reg (r := .status) rfl rfl (by decide)

theorem State.readData_cfgFs (s : State) : s.readData .word 0x010 = some s.cfg.fsWord :=
  State.readData_reg (r := .cfgFs) rfl rfl (by decide)

theorem State.readData_cfgSbs (s : State) : s.readData .word 0x014 = some s.cfg.sbsWord :=
  State.readData_reg (r := .cfgSbs) rfl rfl (by decide)

theorem State.readData_cfgFmt (s : State) : s.readData .word 0x018 = some s.cfg.fmtWord :=
  State.readData_reg (r := .cfgFmt) rfl rfl (by decide)

theorem State.readData_cfgRing (s : State) : s.readData .word 0x01C = some s.cfg.ringWord :=
  State.readData_reg (r := .cfgRing) rfl rfl (by decide)

/-! ### Register words against their masks (R22, R26-R29) -/

theorem Ctrl.toWord_ofWord (v : Word) : (Ctrl.ofWord v).toWord = v &&& 0x00000003 := by
  apply BitVec.eq_of_getLsbD_eq
  intro i hi
  simp only [Ctrl.toWord, Ctrl.ofWord, BitVec.getLsbD_append]
  interval_cases i <;> simp

theorem Configuration.fsWord_setFsWord (a : Configuration) (v : Word) : (a.setFsWord v).fsWord = v &&& 0x0000FFFF := by
  apply BitVec.eq_of_getLsbD_eq
  intro i hi
  interval_cases i <;> simp [Configuration.fsWord, Configuration.setFsWord]

theorem Configuration.sbsWord_setSbsWord (a : Configuration) (v : Word) :
    (a.setSbsWord v).sbsWord = v &&& 0x0000FFFF :=
  a.fsWord_setFsWord v

theorem Configuration.fmtWord_setFmtWord (a : Configuration) (v : Word) :
    (a.setFmtWord v).fmtWord = v &&& 0x00000117 := by
  apply BitVec.eq_of_getLsbD_eq
  intro i hi
  simp only [Configuration.fmtWord, Configuration.setFmtWord, BitVec.getLsbD_append, BitVec.getLsbD_extractLsb']
  interval_cases i <;> simp

theorem Configuration.ringWord_setRingWord (a : Configuration) (v : Word) :
    (a.setRingWord v).ringWord = v &&& 0x00FFFFFF := by
  apply BitVec.eq_of_getLsbD_eq
  intro i hi
  simp only [Configuration.ringWord, Configuration.setRingWord, BitVec.getLsbD_append, BitVec.getLsbD_extractLsb']
  interval_cases i <;> simp

/-! ### STATUS (R24) -/

/-- The flags of STATUS at their bits. -/
theorem State.statusWord_flags (s : State) :
    s.statusWord.getLsbD 0 = s.status.inited ∧ s.statusWord.getLsbD 1 = s.status.running ∧
    s.statusWord.getLsbD 2 = s.busy ∧ s.statusWord.getLsbD 3 = s.status.readyPend ∧
    s.statusWord.getLsbD 4 = s.status.collide ∧ s.statusWord.getLsbD 5 = s.status.dropped := by
  simp only [State.statusWord, BitVec.getLsbD_append]
  simp

/-- ERR in STATUS[11:8], and the reserved bits around it. -/
theorem State.statusWord_err (s : State) :
    s.statusWord.extractLsb' 6 2 = 0 ∧ s.statusWord.extractLsb' 8 4 = s.status.err.code ∧
    s.statusWord.extractLsb' 12 20 = 0 := by
  refine ⟨?_, ?_, ?_⟩ <;> apply BitVec.eq_of_getLsbD_eq <;> intro i hi <;>
    simp only [State.statusWord, BitVec.getLsbD_append, BitVec.getLsbD_extractLsb'] <;> interval_cases i <;> simp

/-- Settles O51: STATUS reads as held, its bits one by one; a write is the clearing of its flags. -/
theorem statusRegister : Obligations.StatusRegister := by
  intro s v
  refine ⟨fun w hw => ?_, ⟨_, s.readData_status⟩, s.hostWrite_status v⟩
  cases s.readData_status.symm.trans hw
  obtain ⟨h0, h1, h2, h3, h4, h5⟩ := s.statusWord_flags
  obtain ⟨reserved, err, top⟩ := s.statusWord_err
  refine ⟨h0, h1, h2, h3, h4, h5, reserved, err.trans ?_, top⟩
  cases s.status.err <;> rfl

/-! ### Writes of CTRL and CFG_* (R22, R26-R29) -/

/-- A 32-bit write of a register that takes it: what the register makes of it, and a response (R21, R54). -/
theorem State.hostWrite_reg {s t : State} {a : BitVec 20} {r : Reg} {v : Word} (hal : aligned .word a.toNat = true)
    (ht : target a.toNat = .reg r) (hw : s.writeReg r v = some t) : s.hostWrite .word a v = t.respond 0 := by
  have hd : s.writeData .word a.toNat v = some t := by
    rw [State.writeData, if_pos hal, ht]
    exact hw
  rw [State.hostWrite, hd]

/-- At an IDLE sequencer a write of a CFG register leaves that register's fields and a response (R26-R29, R56). -/
theorem State.hostWrite_cfg {s : State} (h : s.sequencer = .idle) (v : Word) :
    s.hostWrite .word 0x010 v = { s with cfg := s.cfg.setFsWord v, outputs := .response 0 false :: s.outputs } ∧
    s.hostWrite .word 0x014 v = { s with cfg := s.cfg.setSbsWord v, outputs := .response 0 false :: s.outputs } ∧
    s.hostWrite .word 0x018 v = { s with cfg := s.cfg.setFmtWord v, outputs := .response 0 false :: s.outputs } ∧
    s.hostWrite .word 0x01C v = { s with cfg := s.cfg.setRingWord v, outputs := .response 0 false :: s.outputs } := by
  have hb : ¬s.busy = true := by rw [s.busy_false_iff.mpr h]; decide
  exact ⟨State.hostWrite_reg (r := .cfgFs) rfl rfl (if_neg hb),
    State.hostWrite_reg (r := .cfgSbs) rfl rfl (if_neg hb),
    State.hostWrite_reg (r := .cfgFmt) rfl rfl (if_neg hb),
    State.hostWrite_reg (r := .cfgRing) rfl rfl (if_neg hb)⟩

/-- A CFG register whose word did not change reads the same (R26-R29). -/
theorem State.readData_cfg_congr {s t : State} {n : Nat} (fs : 0x010 ≠ n → t.cfg.fsWord = s.cfg.fsWord)
    (sbs : 0x014 ≠ n → t.cfg.sbsWord = s.cfg.sbsWord) (fmt : 0x018 ≠ n → t.cfg.fmtWord = s.cfg.fmtWord)
    (ring : 0x01C ≠ n → t.cfg.ringWord = s.cfg.ringWord) :
    ∀ q ∈ ([0x010, 0x014, 0x018, 0x01C] : List Nat), q ≠ n → t.readData .word q = s.readData .word q := by
  intro q hq hn
  simp only [List.mem_cons, List.not_mem_nil, or_false] at hq
  rcases hq with rfl | rfl | rfl | rfl
  · rw [State.readData_cfgFs, State.readData_cfgFs, fs hn]
  · rw [State.readData_cfgSbs, State.readData_cfgSbs, sbs hn]
  · rw [State.readData_cfgFmt, State.readData_cfgFmt, fmt hn]
  · rw [State.readData_cfgRing, State.readData_cfgRing, ring hn]

/-- Settles O50: CTRL and CFG_* read as held, so each read is the word of the fields the write left. -/
theorem configReadsBack : Obligations.ConfigReadsBack := by
  intro s v
  refine ⟨⟨?_, rfl, rfl⟩, fun h => ?_⟩
  · exact (State.readData_ctrl _).trans (congrArg some (Ctrl.toWord_ofWord v))
  · obtain ⟨fs, sbs, fmt, ring⟩ := State.hostWrite_cfg h v
    intro p hp
    simp only [List.mem_cons, List.not_mem_nil, or_false] at hp
    rcases hp with rfl | rfl | rfl | rfl <;> dsimp only
    · rw [fs]
      exact ⟨(State.readData_cfgFs _).trans (congrArg some (s.cfg.fsWord_setFsWord v)), rfl,
        State.readData_cfg_congr (absurd rfl) (fun _ => rfl) (fun _ => rfl) (fun _ => rfl)⟩
    · rw [sbs]
      exact ⟨(State.readData_cfgSbs _).trans (congrArg some (s.cfg.sbsWord_setSbsWord v)), rfl,
        State.readData_cfg_congr (fun _ => rfl) (absurd rfl) (fun _ => rfl) (fun _ => rfl)⟩
    · rw [fmt]
      exact ⟨(State.readData_cfgFmt _).trans (congrArg some (s.cfg.fmtWord_setFmtWord v)), rfl,
        State.readData_cfg_congr (fun _ => rfl) (fun _ => rfl) (absurd rfl) (fun _ => rfl)⟩
    · rw [ring]
      exact ⟨(State.readData_cfgRing _).trans (congrArg some (s.cfg.ringWord_setRingWord v)), rfl,
        State.readData_cfg_congr (fun _ => rfl) (fun _ => rfl) (fun _ => rfl) (absurd rfl)⟩

end Sys2Proof.Machine
end

section
/-! The steps that are no command's completion: the effects they can have, and what each effect leaves unchanged. -/

namespace Sys2Proof.Machine

/-! ### Which steps write what (R18, R19, R37, R38, R46, R59, R110) -/

/-- The transport whose completion the event delivers, alone or with a STATUS write (R100, R126). -/
def Event.completion? : Event → Option Transport
  | .done p => some p
  | .statusWriteWithDone _ p => some p
  | .rd _ _ => none
  | .wr _ _ _ => none
  | .wait => none
  | .portWrite _ _ _ => none
  | .pins _ => none
  | .complete => none
  | .reset => none

theorem Event.completion?_eq_some_iff (e : Event) (p : Transport) :
    e.completion? = some p ↔ e = .done p ∨ ∃ v, e = .statusWriteWithDone v p := by
  cases e <;> simp [Event.completion?]

/-- What a step that is neither a command's completion nor reset makes of the core, the model's environment fields
(outputs, draws, events, inputs) aside. -/
inductive OrdinaryEffect (e : Event) (s : State) : State → Prop
  /-- Host reads, polls, inputs, writes that fail, ports that are not there. -/
  | none (he : e.completion? = .none) : OrdinaryEffect e s s
  | ctrl (v : Word) (he : e = .wr .word 0x000 v) : OrdinaryEffect e s { s with ctrl := Ctrl.ofWord v }
  | drop (x : Word) (he : e = .wr .word cmdAddr x) (hb : s.busy = true) : OrdinaryEffect e s s.dropCommand
  | accept (x : Word) (he : e = .wr .word cmdAddr x) (hi : s.sequencer = .idle) : OrdinaryEffect e s (s.accept x)
  | clear (v : Word) (he : e = .wr .word statusAddr v) : OrdinaryEffect e s (s.clearFlags v)
  | config (w : Width) (a : BitVec 20) (v : Word) (c : Configuration) (he : e = .wr w a v) (hi : s.sequencer = .idle) :
      OrdinaryEffect e s { s with cfg := c }
  | window (w : Width) (a : BitVec 20) (v : Word) (off : Nat) (bs : List Byte) (he : e = .wr w a v)
      (ha : 0x80000 ≤ a.toNat) : OrdinaryEffect e s (s.writeRingRun off bs)
  | port (p : Transport) (off : BitVec 19) (b : Byte) (he : e = .portWrite p off b) :
      OrdinaryEffect e s (s.writeRing off.toNat b)
  | done (p : Transport) (he : e = .done p) : OrdinaryEffect e s (s.onDone p)
  | clearWithDone (v : Word) (p : Transport) (he : e = .statusWriteWithDone v p) :
      OrdinaryEffect e s (((s.clearFlags v).respond 0).onDone p)

/-- `t` is `u` but for what the model records of the environment. -/
def State.UpToEnvironment (u t : State) : Prop :=
  t = { u with outputs := t.outputs, draws := t.draws, events := t.events, pins := t.pins }

/-- A host write is one of the effects (R109, R24, R26-R29, R59). -/
theorem OrdinaryEffect.of_hostWrite (s : State) (w : Width) (a : BitVec 20) (v : Word) :
    ∃ u, OrdinaryEffect (.wr w a v) s u ∧ u.UpToEnvironment (s.hostWrite w a v).tick := by
  rcases s.hostWrite_cases w a v with e | ⟨t, e, ht⟩ <;> rw [e]
  · exact ⟨s, .none rfl, rfl⟩
  refine ⟨t, ?_, rfl⟩
  rcases ht with ⟨rfl, rfl, rfl⟩ | ⟨rfl, rfl, rfl⟩ | ⟨rfl, rfl, rfl⟩ | ⟨hb, c, rfl⟩ | ⟨ha, -, rfl⟩
  · exact .ctrl v rfl
  · rcases s.issue_cases v with ⟨hb, e⟩ | ⟨hb, e⟩ <;> rw [e]
    · exact .drop v rfl hb
    · exact .accept v rfl (s.busy_false_iff.mp hb)
  · exact .clear v rfl
  · exact .config w a v c rfl (s.busy_false_iff.mp hb)
  · exact .window w a v _ _ rfl ha

/-- Every event but reset and a running command's completion has one of the effects. -/
theorem OrdinaryEffect.of_takeEvent {e : Event} {s t : State} (hc : e = .complete → s.sequencer = .idle)
    (hr : e ≠ .reset) (ht : takeEvent e s = .next t) : ∃ u, OrdinaryEffect e s u ∧ u.UpToEnvironment t := by
  cases e with
  | rd w a =>
    obtain ⟨v, er, h⟩ := s.hostRead_cases w a
    cases ht
    exact ⟨s, .none rfl, by rw [h]; rfl⟩
  | wr w a v =>
    cases ht
    rw [State.hostWrite_tick]
    exact of_hostWrite s w a v
  | wait =>
    obtain ⟨v, er, es, h⟩ := s.hostPoll_cases
    cases ht
    exact ⟨s, .none rfl, by rw [h]; rfl⟩
  | portWrite p off b =>
    cases ht
    rcases s.tick.portWrite_cases p off b with ⟨_, h⟩ | ⟨_, h⟩ <;> rw [h]
    · exact ⟨s, .none rfl, rfl⟩
    · exact ⟨_, .port p off b rfl, by rw [State.writeRing_tick]; rfl⟩
  | done p =>
    cases ht
    exact ⟨_, .done p rfl, by rw [State.onDone_tick]; rfl⟩
  | statusWriteWithDone v p =>
    cases ht
    refine ⟨_, .clearWithDone v p rfl, ?_⟩
    rw [State.hostWrite_tick, State.hostWrite_status, State.onDone_tick]
    rfl
  | pins ps =>
    cases ht
    exact ⟨s, .none rfl, rfl⟩
  | complete =>
    rcases s.tick.completeCommand_cases with ⟨_, h⟩ | ⟨_, _, _, hb, _⟩ | ⟨_, _, _, hb, _⟩
    · cases h.symm.trans ht
      exact ⟨s, .none rfl, rfl⟩
    · cases (hc rfl).symm.trans hb
    · cases (hc rfl).symm.trans hb
  | reset => exact absurd rfl hr

/-! What the effects leave unchanged, and which of them changes what. -/

section
variable {e : Event} {s u : State}

/-- Everything a command's completion owns stays (R18, R19, R46). -/
theorem OrdinaryEffect.commandParts (h : OrdinaryEffect e s u) :
    u.filter = s.filter ∧ u.scratch = s.scratch ∧ u.pcm = s.pcm ∧ u.active = s.active ∧ u.consts = s.consts ∧
    u.spm = s.spm ∧ u.slotBytes = s.slotBytes ∧ u.r = s.r ∧ u.result = s.result ∧
    u.status.inited = s.status.inited ∧ u.status.running = s.status.running ∧ u.status.err = s.status.err := by
  cases h <;> simp

/-- While BUSY, CFG_*, the command and its working values stay, but for the race record (R59, R110). -/
theorem OrdinaryEffect.busyParts (h : OrdinaryEffect e s u) {cmd : Word} {wk : Work} (hb : s.sequencer = .busy cmd wk) :
    u.cfg = s.cfg ∧ ∃ ws, u.sequencer = .busy cmd { wk with ringWrites := ws ++ wk.ringWrites } := by
  cases h with
  | none he => exact ⟨rfl, [], hb⟩
  | ctrl v he => exact ⟨rfl, [], hb⟩
  | drop x he hb' => exact ⟨rfl, [], hb⟩
  | accept x he hi => cases hi.symm.trans hb
  | clear v he => exact ⟨rfl, [], hb⟩
  | config w a v c he hi => cases hi.symm.trans hb
  | window w a v off bs he ha => exact ⟨by simp, _, State.writeRingRun_sequencer hb off bs⟩
  | port p off b he => exact ⟨by simp, [_], State.writeRing_sequencer hb _ b⟩
  | done p he => exact ⟨by simp, [], by simpa using hb⟩
  | clearWithDone v p he => exact ⟨by simp, [], by simpa using hb⟩

/-- Only a CMD write makes an IDLE sequencer BUSY (R109). -/
theorem OrdinaryEffect.idle (h : OrdinaryEffect e s u) (hi : s.sequencer = .idle) :
    u.sequencer = .idle ∨ ∃ x, e = .wr .word cmdAddr x := by
  cases h with
  | accept x he _ => exact .inr ⟨x, he⟩
  | window w a v off bs he ha => exact .inl (State.writeRingRun_idle hi off bs)
  | port p off b he => exact .inl (State.writeRing_idle hi _ b)
  | _ => exact .inl (by simpa using hi)

/-- An accepted producer completion moves W and COMPLETIONS on by one (R37, R38, R100). -/
theorem State.onDone_accepted {s : State} {p : Transport} (hr : s.status.running = true)
    (hp : p.val < s.active.producers) :
    (s.onDone p).completions = s.completions + 1 ∧
    (0 < s.active.slots → (s.onDone p).w.toNat = (s.w.toNat + 1) % s.active.slots) := by
  rw [State.onDone_taken hr hp]
  refine ⟨by simp, fun hB => ?_⟩
  simp only [State.collideCheck_w, State.notify_w, State.arm_w]
  exact_mod_cast slotMod_toNat hB (Nat.le_of_lt (slots_lt _)) (s.w.toNat + 1)

theorem OrdinaryEffect.accepted (h : OrdinaryEffect e s u) {p : Transport} (he : e.completion? = some p)
    (hr : s.status.running = true) (hp : p.val < s.active.producers) :
    u.completions = s.completions + 1 ∧
    (0 < s.active.slots → u.w.toNat = (s.w.toNat + 1) % s.active.slots) := by
  cases h with
  | none he' => cases he'.symm.trans he
  | done q he' => subst he'; cases he; exact State.onDone_accepted hr hp
  | clearWithDone v q he' => subst he'; cases he; exact State.onDone_accepted (s := (s.clearFlags v).respond 0) hr hp
  | _ => subst_vars; cases he

/-- Without an accepted completion the cursors of the producers, the arm state and COMPLETIONS stay, and no completion
flag is set (R37-R39, R100, R102). -/
theorem OrdinaryEffect.notAccepted (h : OrdinaryEffect e s u)
    (hn : ∀ p, e.completion? = some p → s.status.running = false ∨ s.active.producers ≤ p.val) :
    u.w = s.w ∧ u.wc = s.wc ∧ u.armed = s.armed ∧ u.completions = s.completions ∧
    (u.status.readyPend = true → s.status.readyPend = true) ∧ (u.status.collide = true → s.status.collide = true) := by
  cases h with
  | done p he =>
    subst he
    rw [State.onDone_ignored (hn p rfl)]
    simp
  | clearWithDone v p he =>
    subst he
    rw [State.onDone_ignored (s := (s.clearFlags v).respond 0) (hn p rfl)]
    simp +contextual
  | _ => simp +contextual

/-- The collision check can only set COLLIDE (R102). -/
theorem State.collideCheck_cases (s : State) (n : BitVec 8) :
    s.collideCheck n = s ∨ s.collideCheck n = { s with status := { s.status with collide := true } } := by
  unfold State.collideCheck
  split
  · exact .inl rfl
  · split
    · exact .inr rfl
    · exact .inl rfl

/-- A completion sets READY_PEND and COLLIDE or leaves them, and DROPPED it leaves (R100, R102). -/
theorem State.onDone_flags (s : State) (p : Transport) :
    (s.status.readyPend = true → (s.onDone p).status.readyPend = true) ∧
    (s.status.collide = true → (s.onDone p).status.collide = true) ∧
    (s.onDone p).status.dropped = s.status.dropped := by
  by_cases h : s.status.running = false ∨ s.active.producers ≤ p.val
  · rw [State.onDone_ignored h]
    exact ⟨id, id, rfl⟩
  · rw [State.onDone_taken (by simpa using fun hr => h (.inl hr)) (by omega)]
    rcases State.collideCheck_cases _ _ with e | e <;> rw [e] <;> simp

/-- Only a CMD write at BUSY sets DROPPED (R109). -/
theorem OrdinaryEffect.setsDropped (h : OrdinaryEffect e s u) (h0 : s.status.dropped = false)
    (h1 : u.status.dropped = true) : s.busy = true ∧ ∃ x, e = .wr .word cmdAddr x := by
  cases h with
  | drop x he hb => exact ⟨hb, x, he⟩
  | done p he => rw [(s.onDone_flags p).2.2, h0] at h1; cases h1
  | clearWithDone v p he =>
    rw [(State.onDone_flags _ p).2.2] at h1
    simp [h0] at h1
  | _ => simp [h0] at h1

/-- A flag of STATUS that a completion and a dropped command only set is cleared only by writing 1 to its bit (R24). -/
theorem OrdinaryEffect.clearsFlag (h : OrdinaryEffect e s u) {flag : Status → Bool} {bit : Nat}
    (onClear : ∀ (t : State) (v : Word), flag (t.clearFlags v).status = (flag t.status && !v.getLsbD bit))
    (onDone : ∀ (t : State) (p : Transport), flag t.status = true → flag (t.onDone p).status = true)
    (onDrop : ∀ t : State, flag t.status = true → flag t.dropCommand.status = true)
    (h1 : flag s.status = true) (h0 : flag u.status = false) :
    ∃ v : Word, v.getLsbD bit = true ∧ (e = .wr .word statusAddr v ∨ ∃ p, e = .statusWriteWithDone v p) := by
  cases h with
  | clear v he => exact ⟨v, by simpa [onClear, h1] using h0, .inl he⟩
  | clearWithDone v p he =>
    refine ⟨v, ?_, .inr ⟨p, he⟩⟩
    by_contra hv
    have kept := onDone ((s.clearFlags v).respond 0) p (by simp [onClear, h1, hv])
    rw [kept] at h0
    cases h0
  | done p he => rw [onDone s p h1] at h0; cases h0
  | drop x he hb => rw [onDrop s h1] at h0; cases h0
  | _ => simp [h1] at h0

/-- CTRL changes only by its own write (R22). -/
theorem OrdinaryEffect.ctrl_eq (h : OrdinaryEffect e s u) : u.ctrl = s.ctrl ∨ ∃ v, e = .wr .word 0x000 v := by
  cases h with
  | ctrl v he => exact .inr ⟨v, he⟩
  | _ => exact .inl (by simp)

/-- RING changes only by a write port or the host's window (R59). -/
theorem OrdinaryEffect.ring_eq (h : OrdinaryEffect e s u) :
    u.ring = s.ring ∨ (∃ p off b, e = .portWrite p off b) ∨ ∃ w a v, e = .wr w a v ∧ 0x80000 ≤ a.toNat := by
  cases h with
  | window w a v off bs he ha => exact .inr (.inr ⟨w, a, v, he, ha⟩)
  | port p off b he => exact .inr (.inl ⟨p, off, b, he⟩)
  | _ => exact .inl (by simp)

end

/-- Settles O60: a step takes an event from a state that differs in its schedule only, and each clause is a lemma about
the event's effect. -/
theorem onlyCommandsWrite : Obligations.OnlyCommandsWrite := by
  intro s t e es hn hc hr hst
  have htake : takeEvent e { s with events := es } = .next t := by
    rw [← hst, step, State.advance, hn]
  obtain ⟨u, h, ht⟩ := OrdinaryEffect.of_takeEvent (s := { s with events := es }) hc hr htake
  rw [show t = _ from ht]
  refine ⟨h.commandParts, fun _ _ hb => h.busyParts hb, h.idle, ?_, ?_, h.setsDropped, ?_, ?_, ?_, h.ctrl_eq, h.ring_eq⟩
  · rintro ⟨hrun, p, hp, he⟩
    exact h.accepted ((e.completion?_eq_some_iff p).mpr he) hrun hp
  · intro hna
    refine h.notAccepted fun p he => ?_
    by_contra hcon
    rw [not_or, not_le] at hcon
    exact hna ⟨by simpa using hcon.1, p, hcon.2, (e.completion?_eq_some_iff p).mp he⟩
  · exact h.clearsFlag (flag := Status.readyPend) (fun _ _ => rfl) (fun t p => (t.onDone_flags p).1) (fun _ => id)
  · exact h.clearsFlag (flag := Status.collide) (fun _ _ => rfl) (fun t p => (t.onDone_flags p).2.1) (fun _ => id)
  · exact h.clearsFlag (flag := Status.dropped) (fun _ _ => rfl)
      (fun t p hd => (t.onDone_flags p).2.2.trans hd) (fun _ _ => rfl)

end Sys2Proof.Machine
end

section
/-! Host accesses to the MMIO window: where each register stands, and which accesses make `bus_error` (R49-R56). -/

namespace Sys2Proof.Machine

/-! ### Where a register stands (R21, R41) -/

/-- The offset of a register of a channel's set inside that set (R41). -/
def FilterField.offset (f : FilterField) (hi : Bool) : Nat :=
  (match f with
    | .oldOut => 0x00
    | .oldIn => 0x08
    | .oldZ => 0x10
    | .coef0 => 0x18
    | .coef1 => 0x20) + if hi then 4 else 0

/-- The one address of a register (R21, R41): `regAt_eq_some_iff`. -/
def Reg.addr : Reg → Nat
  | .ctrl => 0x000 | .cmd => 0x004 | .status => 0x008 | .result => 0x00C
  | .cfgFs => 0x010 | .cfgSbs => 0x014 | .cfgFmt => 0x018 | .cfgRing => 0x01C
  | .volume => 0x020 | .gain => 0x024 | .maxvol => 0x028 | .lpHz => 0x02C
  | .hpHz => 0x030 | .lpAlfa => 0x034 | .hpAlfa => 0x038 | .subConst => 0x03C
  | .divConst => 0x040 | .spm => 0x044 | .slotBytes => 0x048 | .wcur => 0x04C
  | .rcur => 0x050 | .wc0 => 0x054 | .wc1 => 0x058 | .completions => 0x05C | .xport => 0x060
  | .fstate c f hi => 0x100 + 0x40 * c.val + f.offset hi

theorem FilterField.offset_bound (f : FilterField) (hi : Bool) : f.offset hi ≤ 0x24 ∧ f.offset hi % 4 = 0 := by
  cases f <;> cases hi <;> decide

/-- A register of a channel's set stands inside that set (R41). -/
theorem Reg.addr_fstate (c : Fin 4) (f : FilterField) (hi : Bool) :
    0x100 + 0x40 * c.val ≤ (Reg.fstate c f hi).addr ∧ (Reg.fstate c f hi).addr < 0x140 + 0x40 * c.val := by
  have := f.offset_bound hi
  simp only [Reg.addr]
  omega

theorem Reg.addr_lt (r : Reg) : r.addr < 0x200 := by
  cases r with
  | fstate c f hi => have := Reg.addr_fstate c f hi; omega
  | _ => decide

theorem regAt_addr (r : Reg) : regAt r.addr = some r := by
  cases r with
  | fstate c f hi => revert c; cases f <;> cases hi <;> decide
  | _ => rfl

/-- The two maps of R21 and R41, read as one: a register is found at its own address and nowhere else. -/
theorem regAt_eq_some_iff {a : Nat} {r : Reg} : regAt a = some r ↔ a = r.addr := by
  refine ⟨fun h => ?_, fun h => h ▸ regAt_addr r⟩
  have hregs : ∀ p ∈ regMap, p.1 = p.2.addr := by decide
  have hfields : ∀ p ∈ filterMap, p.1 = p.2.1.offset p.2.2 := by decide
  unfold regAt at h
  split at h
  · exact hregs (a, r) (mem_of_lookup h)
  split at h
  · obtain ⟨fh, hl, rfl⟩ := Option.map_eq_some_iff.mp h
    have hoff := hfields _ (mem_of_lookup hl)
    simp only [Reg.addr, Fin.val_ofNat] at hoff ⊢
    omega
  · cases h

theorem target_eq_reg_iff {a : Nat} {r : Reg} : target a = .reg r ↔ a = r.addr := by
  refine ⟨fun h => regAt_eq_some_iff.mp (target_reg h).2, fun h => ?_⟩
  have := r.addr_lt
  rw [h, target, if_pos (by omega), regAt_addr]

/-- The word offsets below 0x1000 that name no register (R49). -/
theorem regAt_eq_none_iff {a : Nat} (h4 : a % 4 = 0) (ha : a < 0x1000) :
    regAt a = none ↔
      (0x200 ≤ a ∧ a < 0x1000) ∨ (0x064 ≤ a ∧ a < 0x100) ∨ (0x100 ≤ a ∧ a < 0x200 ∧ 0x28 ≤ a % 0x40) := by
  have hregs : ∀ k < 64, List.lookup (4 * k) regMap = none ↔ 25 ≤ k := by decide
  have hfields : ∀ k < 16, List.lookup (4 * k) filterMap = none ↔ 10 ≤ k := by decide
  unfold regAt
  split
  · have := hregs (a / 4) (by omega)
    rw [show 4 * (a / 4) = a by omega] at this
    rw [this]
    omega
  split
  · have := hfields (a % 0x40 / 4) (by omega)
    rw [show 4 * (a % 0x40 / 4) = a % 0x40 by omega] at this
    rw [Option.map_eq_none_iff, show (a - 0x100) % 0x40 = a % 0x40 by omega, this]
    omega
  · simp only [true_iff]
    omega

/-! ### Which accesses make `bus_error` (R55, R56) -/

theorem aligned_eq_true_iff {w : Width} {a : Nat} : aligned w a = true ↔ a % w.bytes = 0 := by
  simp [aligned]

/-- A read that has no data leaves the response of `bus_error` and nothing else. -/
theorem State.hostRead_of_none {s : State} {w : Width} {a : BitVec 20} (h : s.readData w a.toNat = none) :
    s.hostRead w a = { s with outputs := .response 0 true :: s.outputs } := by
  rw [State.hostRead, h]
  rfl

theorem State.hostWrite_of_none {s : State} {w : Width} {a : BitVec 20} {v : Word}
    (h : s.writeData w a.toNat v = none) :
    s.hostWrite w a v = { s with outputs := .response 0 true :: s.outputs } := by
  rw [State.hostWrite, h]
  rfl

theorem State.readData_misaligned (s : State) {w : Width} {a : Nat} (h : a % w.bytes ≠ 0) : s.readData w a = none :=
  if_neg fun hal => h (aligned_eq_true_iff.mp hal)

theorem State.writeData_misaligned (s : State) {w : Width} {a : Nat} (v : Word) (h : a % w.bytes ≠ 0) :
    s.writeData w a v = none :=
  if_neg fun hal => h (aligned_eq_true_iff.mp hal)

/-- Settles O47: neither access gets past its alignment. -/
theorem misalignedAccess : Obligations.MisalignedAccess := by
  intro s w a v h
  exact ⟨State.hostRead_of_none (s.readData_misaligned h), State.hostWrite_of_none (s.writeData_misaligned v h)⟩

/-- An aligned read, by what its address names: it fails at a reserved place, and at a register if it is narrow. -/
theorem State.readData_eq_none_iff (s : State) {w : Width} {a : Nat} (hal : a % w.bytes = 0) :
    s.readData w a = none ↔
      match target a with
      | .reg _ => w ≠ .word
      | .mem _ _ => False
      | .reserved => True := by
  rw [State.readData, if_pos (aligned_eq_true_iff.mpr hal)]
  cases target a <;> simp

/-- A register refuses a write where it is read-only, and a CFG register while a command runs (R22-R29, R56). -/
theorem State.writeReg_eq_none_iff (s : State) (r : Reg) (v : Word) :
    s.writeReg r v = none ↔
      r.addr = 0x00C ∨ 0x020 ≤ r.addr ∨
      (s.busy = true ∧ (r.addr = 0x010 ∨ r.addr = 0x014 ∨ r.addr = 0x018 ∨ r.addr = 0x01C)) := by
  cases r with
  | fstate c f hi => have := Reg.addr_fstate c f hi; simp only [State.writeReg, true_iff]; omega
  | _ => simp [State.writeReg, Reg.addr]

/-- An aligned write, by what its address names: RING takes every one, a register a 32-bit one it does not refuse, and
the other places none. -/
theorem State.writeData_eq_none_iff (s : State) {w : Width} {a : Nat} (v : Word) (hal : a % w.bytes = 0) :
    s.writeData w a v = none ↔
      match target a with
      | .reg r => w ≠ .word ∨ s.writeReg r v = none
      | .mem sp _ => sp ≠ .ring
      | .reserved => True := by
  rw [State.writeData, if_pos (aligned_eq_true_iff.mpr hal)]
  cases target a with
  | reg r => by_cases hw : w = .word <;> simp [hw]
  | mem sp off => cases sp <;> simp
  | reserved => simp

/-- The addresses of R49 that name nothing, at an access that is aligned and, at a register, 32 bits wide. -/
theorem target_eq_reserved_iff {a : Nat} (h4 : a < 0x1000 → a % 4 = 0) :
    target a = .reserved ↔
      (0x05000 ≤ a ∧ a < 0x40000) ∨ (0x60000 ≤ a ∧ a < 0x80000) ∨ (0x200 ≤ a ∧ a < 0x1000) ∨
      (0x064 ≤ a ∧ a < 0x100) ∨ (0x100 ≤ a ∧ a < 0x200 ∧ 0x28 ≤ a % 0x40) := by
  by_cases ha : a < 0x1000
  · have : target a = .reserved ↔ regAt a = none := by
      rw [target, if_pos ha]
      cases regAt a <;> simp
    rw [this, regAt_eq_none_iff (h4 ha) ha]
    omega
  · rw [target, if_neg ha]
    split_ifs <;> simp <;> omega

/-- A register stands at a word offset, and the windows above 0x1000 are no registers. -/
theorem target_word_offset {a : Nat} (h : target a ≠ .reserved) (ha : a < 0x1000) : a % 4 = 0 := by
  cases ht : target a with
  | reg r =>
    rw [target_eq_reg_iff.mp ht]
    cases r with
    | fstate c f hi => have := f.offset_bound hi; simp only [Reg.addr]; omega
    | _ => rfl
  | mem sp off => rcases target_mem ht with h | h | h <;> omega
  | reserved => exact absurd ht h

/-- Settles O48: an aligned access is decided by what its address names, and each of the three kinds of target is a set
of addresses. -/
theorem busErrorCauses : Obligations.BusErrorCauses := by
  intro s w a v n misaligned reserved narrow readOnly locked
  have hreserved (hal : n % w.bytes = 0) (ht : target n = .reserved) : reserved ∨ narrow := by
    by_cases hn : narrow
    · exact .inr hn
    · refine .inl ((target_eq_reserved_iff fun hlt => ?_).mp ht)
      have hw : w = .word := by_contra fun hw => hn ⟨hlt, hw⟩
      rwa [hw] at hal
  have hnamed (ht : target n ≠ .reserved) : ¬reserved :=
    fun h => ht ((target_eq_reserved_iff (target_word_offset ht)).mpr h)
  refine ⟨?_, ?_, State.hostRead_of_none, State.hostWrite_of_none⟩ <;> by_cases hal : n % w.bytes = 0
  · have hm : ¬misaligned := fun h => h hal
    rw [s.readData_eq_none_iff hal]
    cases ht : target n with
    | reg r =>
      have hn : narrow ↔ w ≠ .word := and_iff_right (target_reg ht).1
      have := hnamed (by simp [ht])
      clear_value misaligned reserved narrow readOnly locked
      dsimp only
      tauto
    | mem sp off =>
      have hn : ¬narrow := by rcases target_mem ht with h | h | h <;> omega
      have := hnamed (by simp [ht])
      clear_value misaligned reserved narrow readOnly locked
      dsimp only
      tauto
    | reserved => exact iff_of_true trivial (.inr (hreserved hal ht))
  · exact iff_of_true (s.readData_misaligned hal) (.inl hal)
  · have hm : ¬misaligned := fun h => h hal
    rw [s.writeData_eq_none_iff v hal]
    cases ht : target n with
    | reg r =>
      have hn : narrow ↔ w ≠ .word := and_iff_right (target_reg ht).1
      have hr : s.writeReg r v = none ↔ readOnly ∨ locked := by
        have hnr := target_eq_reg_iff.mp ht
        have hlt := r.addr_lt
        rw [s.writeReg_eq_none_iff, ← hnr, ← or_assoc]
        exact or_congr (by omega) Iff.rfl
      have := hnamed (by simp [ht])
      clear_value misaligned reserved narrow readOnly locked
      dsimp only
      tauto
    | mem sp off =>
      have hsp : (sp ≠ .ring ↔ readOnly) ∧ ¬narrow ∧ ¬locked := by
        rcases target_mem ht with ⟨rfl, h⟩ | ⟨rfl, h⟩ | ⟨rfl, h⟩ <;> simp <;> omega
      have := hnamed (by simp [ht])
      clear_value misaligned reserved narrow readOnly locked
      dsimp only
      tauto
    | reserved =>
      refine iff_of_true trivial (.inr ?_)
      rw [← or_assoc]
      exact .inl (hreserved hal ht)
  · exact iff_of_true (s.writeData_misaligned v hal) (.inl hal)

end Sys2Proof.Machine
end

section
/-! The race rule and the host's RING window: what one RING write changes, and what a run of them leaves (R53, R59-R61). -/

namespace Sys2Proof.Machine

/-! ### Racing reads (R61) -/

theorem State.mem_racingWrites {s : State} {o : Nat} {b : Byte} :
    b ∈ s.racingWrites o ↔ (o, b) ∈ s.work.ringWrites := by
  unfold State.racingWrites
  constructor
  · intro h
    obtain ⟨⟨a, c⟩, hc, rfl⟩ := List.mem_map.mp h
    obtain ⟨hmem, ha⟩ := List.mem_filter.mp hc
    rwa [← eq_of_beq ha]
  · intro h
    exact List.mem_map.mpr ⟨(o, b), List.mem_filter.mpr ⟨h, beq_self_eq_true o⟩, rfl⟩

/-- A byte nothing wrote since acceptance reads as at acceptance. -/
theorem State.ringByte_of_racingWrites_nil {s : State} {o : Nat} (h : s.racingWrites o = []) :
    s.ringByte o = s.ringAtAcceptByte o := by
  rw [State.ringByte, h]

/-- Every outcome of the free choice is the value at acceptance or one written since (U2). -/
theorem State.ringByte_mem (s : State) (o : Nat) :
    s.ringByte o = s.ringAtAcceptByte o ∨ s.ringByte o ∈ s.racingWrites o := by
  cases h : s.racingWrites o with
  | nil => exact .inl (State.ringByte_of_racingWrites_nil h)
  | cons b bs =>
    have hlt : Config.raceChoice s.draws o % (bs.length + 2) < (s.ringAtAcceptByte o :: b :: bs).length :=
      Nat.mod_lt _ (by omega)
    have hv : s.ringByte o ∈ s.ringAtAcceptByte o :: b :: bs := by
      simp only [State.ringByte, h, List.getD_eq_getElem?_getD, List.getElem?_eq_getElem hlt, Option.getD_some]
      exact List.getElem_mem hlt
    exact List.mem_cons.mp hv

/-! ### One RING write (R59) -/

theorem State.writeRing_eq (s : State) (off : Nat) (b : Byte) :
    s.writeRing off b =
      { s with ring := (s.writeRing off b).ring, sequencer := (s.writeRing off b).sequencer } := by
  unfold State.writeRing State.writeMem State.setMem
  cases s.sequencer <;> rfl

/-- While a command runs, a RING write leaves the values at acceptance. -/
theorem State.writeRing_ringAtAcceptByte {s : State} {cmd : Word} {wk : Work} (h : s.sequencer = .busy cmd wk)
    (off : Nat) (b : Byte) (o : Nat) : (s.writeRing off b).ringAtAcceptByte o = s.ringAtAcceptByte o := by
  simp only [State.ringAtAcceptByte, State.work_of_busy h, State.work_of_busy (State.writeRing_sequencer h off b),
    State.writeRing_powerOn]

/-- While a command runs, a RING write joins the values of its own byte alone. -/
theorem State.writeRing_racingWrites {s : State} {cmd : Word} {wk : Work} (h : s.sequencer = .busy cmd wk)
    (off : Nat) (b : Byte) (o : Nat) :
    (s.writeRing off b).racingWrites o = if o = off then b :: s.racingWrites o else s.racingWrites o := by
  simp only [State.racingWrites, State.work_of_busy h, State.work_of_busy (State.writeRing_sequencer h off b)]
  by_cases ho : o = off
  · subst ho
    simp
  · simp [ho, Ne.symm ho]

/-- Settles O40: the read by the list its choice is made from, the write field by field, the port by whether its
transport is there. -/
theorem raceRule : Obligations.RaceRule := by
  intro s
  refine ⟨fun cmd wk hb o => ⟨?_, fun hnone => ?_⟩, fun off b => ⟨s.writeRing_memByte off b, fun hi => ?_, ?_⟩, ?_⟩
  · rw [← State.work_of_busy hb, ← State.mem_racingWrites]
    exact s.ringByte_mem o
  · refine State.ringByte_of_racingWrites_nil (List.eq_nil_iff_forall_not_mem.mpr fun b hb' => ?_)
    rw [State.mem_racingWrites, State.work_of_busy hb] at hb'
    exact hnone _ hb' rfl
  · conv_lhs => rw [s.writeRing_eq off b, State.writeRing_idle hi off b]
    rw [hi]
  · intro cmd wk hb
    refine ⟨?_, State.writeRing_ringAtAcceptByte hb off b, State.writeRing_racingWrites hb off b⟩
    conv_lhs => rw [s.writeRing_eq off b, State.writeRing_sequencer hb off b]
  · intro p off b
    rcases s.tick.portWrite_cases p off b with ⟨hp, e⟩ | ⟨hp, e⟩
    · exact ⟨fun h => absurd h (Nat.not_lt.mpr hp), fun _ => congrArg _ e⟩
    · refine ⟨fun _ => ?_, fun h => absurd h (Nat.not_le.mpr hp)⟩
      rw [takeEvent, e, State.writeRing_tick, State.tick, State.writeRing_draws]

/-! ### A host write of RING (R53, R60) -/

theorem State.writeRingRun_eq (s : State) (off : Nat) (bs : List Byte) :
    s.writeRingRun off bs =
      { s with ring := (s.writeRingRun off bs).ring, sequencer := (s.writeRingRun off bs).sequencer } := by
  induction bs generalizing s off with
  | nil => rfl
  | cons b bs ih => rw [State.writeRingRun, ih, s.writeRing_eq off b]

theorem State.writeData_ring (s : State) {w : Width} {a : Nat} (v : Word) (ha : 0x80000 ≤ a) (hal : a % w.bytes = 0) :
    s.writeData w a v = some (s.writeRingRun (a - 0x80000) (leBytes w.bytes v.toNat)) := by
  rw [State.writeData, if_pos (aligned_eq_true_iff.mpr hal), target_ring ha]

/-- No command writes RING (R59), so the host reads it as held at every time. -/
theorem State.byteUnspecified_ring (s : State) (off : Nat) : s.byteUnspecified .ring off = false := by
  unfold State.byteUnspecified
  cases s.running? with
  | none => rfl
  | some i => cases i <;> rfl

/-- An aligned read of a window whose bytes read as held: their little-endian value (R53). -/
theorem State.readData_mem {s : State} {w : Width} {a off : Nat} {sp : Space} (ht : target a = .mem sp off)
    (hal : a % w.bytes = 0) (hb : ∀ i, s.hostByte (a + i) sp (off + i) = s.memByte sp (off + i)) :
    s.readData w a = some (BitVec.ofNat 32 (ofLeBytes ((List.range w.bytes).map fun i => s.memByte sp (off + i)))) := by
  rw [State.readData, if_pos (aligned_eq_true_iff.mpr hal), ht]
  simp only [State.hostBytes, hb]

theorem State.readData_ring (s : State) {w : Width} {a : Nat} (ha : 0x80000 ≤ a) (hal : a % w.bytes = 0) :
    s.readData w a = some (BitVec.ofNat 32 (ofLeBytes
      ((List.range w.bytes).map fun i => s.memByte .ring (a - 0x80000 + i)))) :=
  State.readData_mem (target_ring ha) hal fun i => by simp [State.hostByte, State.byteUnspecified_ring]

/-- The bytes of a value are its 8-bit slices, lowest first (R53). -/
theorem leBytes_toNat (n : Nat) (v : Word) : leBytes n v.toNat = (List.range n).map fun i => v.extractLsb' (8 * i) 8 :=
  rfl

/-- The cells of a run of writes whose bytes come from a range. -/
theorem zipIdx_map_range (n off : Nat) (f : Nat → Byte) :
    (((List.range n).map f).zipIdx off).map (fun p => (p.2, p.1)) = (List.range n).map fun i => (off + i, f i) := by
  apply List.ext_getElem
  · simp
  · intro i _ _
    simp

/-- A run of RING writes leaves each of its bytes at its offset, whatever was there. -/
theorem State.writeRingRun_memByte_inside (s : State) (off : Nat) {bs : List Byte} {i : Nat} (h : i < bs.length) :
    (s.writeRingRun off bs).memByte .ring (off + i) = bs[i] := by
  rw [State.writeRingRun_memByte, if_pos (Nat.le_add_right off i), Nat.add_sub_cancel_left,
    List.getElem?_eq_getElem h, Option.getD_some]

theorem State.writeRingRun_memByte_outside (s : State) (off : Nat) {bs : List Byte} {o : Nat}
    (h : o < off ∨ off + bs.length ≤ o) : (s.writeRingRun off bs).memByte .ring o = s.memByte .ring o := by
  rw [State.writeRingRun_memByte]
  split
  · rw [List.getElem?_eq_none (by omega), Option.getD_none]
  · rfl

/-- The step of an aligned host write of RING: its run of bytes, its count and its response (R53, R60). -/
theorem takeEvent_wr_ring (s : State) {w : Width} {a : BitVec 20} (v : Word) (ha : 0x80000 ≤ a.toNat)
    (hal : a.toNat % w.bytes = 0) :
    takeEvent (.wr w a v) s =
      .next ((s.writeRingRun (a.toNat - 0x80000) (leBytes w.bytes v.toNat)).tick.respond 0) := by
  rw [takeEvent, s.hostWrite_tick, State.hostWrite, s.writeData_ring v ha hal]
  rfl

/-- Settles O52: the write is a run of RING writes of the value's bytes, and its read finds those bytes again. -/
theorem ringWindow : Obligations.RingWindow := by
  intro s w a v ha hal off cells
  have hcells : ((leBytes w.bytes v.toNat).zipIdx off).map (fun p => (p.2, p.1)) = cells := zipIdx_map_range _ _ _
  have hlen : (leBytes w.bytes v.toNat).length = w.bytes := leBytes_length _ _
  refine ⟨_, takeEvent_wr_ring s v ha hal, ?_, fun hi => State.writeRingRun_idle hi _ _, fun cmd wk hb => ?_,
    fun cell hc => ?_, fun o ho => ?_, ?_⟩
  · simp only [State.respond, State.drive, State.tick, State.writeRingRun_draws, State.writeRingRun_outputs]
    conv_lhs => rw [s.writeRingRun_eq]
  · rw [← hcells]
    exact State.writeRingRun_sequencer hb _ _
  · obtain ⟨i, hi, rfl⟩ := List.mem_map.mp hc
    have hi' : i < (leBytes w.bytes v.toNat).length := by simpa [hlen] using hi
    simp only [State.respond_eq, State.drive_memByte, State.tick_memByte]
    rw [s.writeRingRun_memByte_inside _ hi']
    simp [leBytes_toNat]
  · simp only [State.respond_eq, State.drive_memByte, State.tick_memByte]
    exact s.writeRingRun_memByte_outside _ (by rwa [hlen])
  · rw [State.readData_ring _ ha hal]
    simp only [State.respond_eq, State.drive_memByte, State.tick_memByte]
    rw [← ofLeBytes_leBytes]
    congr 3
    refine List.ext_getElem (by simp) fun i _ hi => ?_
    rw [List.getElem_map, List.getElem_range, s.writeRingRun_memByte_inside _ hi]

end Sys2Proof.Machine
end

section
/-! Host reads: a response and nothing else, and at an IDLE sequencer what the place holds (R25-R41, R52, R53, R58). -/

namespace Sys2Proof.Machine

/-! ### Values made of fields -/

theorem toNat_append_eq_add {m n : Nat} (x : BitVec m) (y : BitVec n) :
    (x ++ y).toNat = x.toNat * 2 ^ n + y.toNat := by
  rw [BitVec.toNat_append, ← Nat.shiftLeft_add_eq_or_of_lt y.isLt, Nat.shiftLeft_eq]

/-- RESULT's fields stand where R25 puts them. -/
theorem ReadResult.toWord_fields (r : ReadResult) :
    r.toWord.extractLsb' 0 16 = r.nwritten ∧ r.toWord.getLsbD 16 = r.consumed ∧ r.toWord.getLsbD 17 = r.rebased ∧
    r.toWord.extractLsb' 18 6 = 0 ∧ r.toWord.extractLsb' 24 8 = r.slot := by
  refine ⟨?_, ?_, ?_, ?_, ?_⟩
  · ext i hi
    simp only [ReadResult.toWord, BitVec.getElem_extractLsb', BitVec.getLsbD_append]
    simp [hi]
  · simp only [ReadResult.toWord, BitVec.getLsbD_append]
    simp
  · simp only [ReadResult.toWord, BitVec.getLsbD_append]
    simp
  · ext i hi
    simp only [ReadResult.toWord, BitVec.getElem_extractLsb', BitVec.getLsbD_append]
    interval_cases i <;> simp
  · ext i hi
    simp only [ReadResult.toWord, BitVec.getElem_extractLsb', BitVec.getLsbD_append]
    interval_cases i <;> simp

theorem Configuration.fmtWord_eq (a : Configuration) :
    a.fmtWord = BitVec.ofNat 32 (a.nch.toNat + 16 * a.dsel.toNat + 256 * a.nprod.toNat) := by
  apply BitVec.eq_of_toNat_eq
  have := a.nch.isLt
  simp only [Configuration.fmtWord, toNat_append_eq_add, BitVec.toNat_ofBool, BitVec.toNat_ofNat]
  cases a.dsel <;> cases a.nprod <;> simp <;> omega

theorem Configuration.ringWord_eq (a : Configuration) :
    a.ringWord = BitVec.ofNat 32 (a.b.toNat + 256 * a.guard.toNat + 65536 * a.offset.toNat) := by
  apply BitVec.eq_of_toNat_eq
  have := a.b.isLt
  simp only [Configuration.ringWord, toNat_append_eq_add, BitVec.toNat_ofNat, BitVec.ofNat_eq_ofNat]
  omega

theorem State.xportWord_eq (s : State) :
    s.xportWord = BitVec.ofNat 32 (s.armed[0].toNat + 2 * s.armed[1].toNat) := by
  unfold State.xportWord
  cases s.armed[0] <;> cases s.armed[1] <;> rfl

/-- The little-endian value of four bytes, of two and of one (R53). -/
theorem ofLeBytes_word (b0 b1 b2 b3 : Byte) : BitVec.ofNat 32 (ofLeBytes [b0, b1, b2, b3]) = b3 ++ b2 ++ b1 ++ b0 := by
  apply BitVec.eq_of_toNat_eq
  simp only [ofLeBytes, toNat_append_eq_add, BitVec.toNat_ofNat]
  omega

theorem ofLeBytes_half (b0 b1 : Byte) : BitVec.ofNat 32 (ofLeBytes [b0, b1]) = (b1 ++ b0).setWidth 32 := by
  apply BitVec.eq_of_toNat_eq
  simp only [ofLeBytes, BitVec.toNat_setWidth, toNat_append_eq_add, BitVec.toNat_ofNat]
  omega

theorem ofLeBytes_byte (b : Byte) : BitVec.ofNat 32 (ofLeBytes [b]) = b.setWidth 32 := by
  rw [← BitVec.ofNat_toNat]
  simp [ofLeBytes]

/-- A PCM sample is its two bytes (R52). -/
theorem State.pcmSample_eq_append (s : State) (i : Nat) :
    s.pcmSample i = s.memByte .pcm (2 * i + 1) ++ s.memByte .pcm (2 * i) := by
  apply BitVec.eq_of_toNat_eq
  simp only [State.pcmSample, ofLeBytes, toNat_append_eq_add, BitVec.toNat_ofNat]
  omega

/-! ### Reads at an IDLE sequencer -/

/-- Nothing is about to be written at an IDLE sequencer (R62). -/
theorem State.running?_idle {s : State} (h : s.sequencer = .idle) : s.running? = none := by
  rw [State.running?, h]

theorem State.hostRegWord_idle {s : State} (h : s.sequencer = .idle) (a : Nat) (r : Reg) :
    s.hostRegWord a r = s.regWord r := by
  simp [State.hostRegWord, State.regUnspecified, State.running?_idle h]

theorem State.hostByte_idle {s : State} (h : s.sequencer = .idle) (a : Nat) (sp : Space) (off : Nat) :
    s.hostByte a sp off = s.memByte sp off := by
  simp [State.hostByte, State.byteUnspecified, State.running?_idle h]

theorem State.readData_addr (s : State) (r : Reg) : s.readData .word r.addr = some (s.hostRegWord r.addr r) := by
  have ht : target r.addr = .reg r := target_eq_reg_iff.mpr rfl
  have hal : r.addr % Width.word.bytes = 0 := target_word_offset (by simp [ht]) (target_reg ht).1
  rw [State.readData, if_pos (aligned_eq_true_iff.mpr hal), ht]
  rfl

theorem State.readData_addr_idle {s : State} (h : s.sequencer = .idle) (r : Reg) :
    s.readData .word r.addr = some (s.regWord r) := by
  rw [s.readData_addr r, State.hostRegWord_idle h]

/-- CMD is no storage: it reads 0 at every time (R23). -/
theorem State.readData_cmd (s : State) : s.readData .word 0x004 = some 0 := by
  have : s.regUnspecified .cmd = false := by
    unfold State.regUnspecified
    cases s.running? with
    | none => rfl
    | some i => cases i <;> simp [State.willWriteReg, initRegs, startRegs, Reg.inFilter]
  rw [show 0x004 = Reg.cmd.addr from rfl, s.readData_addr, State.hostRegWord, this]
  rfl

/-- A window of R49: its space, its first address and its size. -/
theorem target_window {sp : Space} {base size : Nat}
    (h : (sp, base, size) ∈ ([(.pcm, 0x01000, 0x4000), (.scratch, 0x40000, 0x20000), (.ring, 0x80000, 0x80000)] :
      List (Space × Nat × Nat))) {o : Nat} (ho : o < size) : target (base + o) = .mem sp o ∧ base % 4 = 0 := by
  simp only [List.mem_cons, List.not_mem_nil, or_false, Prod.mk.injEq] at h
  rcases h with ⟨rfl, rfl, rfl⟩ | ⟨rfl, rfl, rfl⟩ | ⟨rfl, rfl, rfl⟩ <;> refine ⟨?_, rfl⟩
  · rw [target, if_neg (by omega), if_pos (by omega), Nat.add_sub_cancel_left]
  · rw [target, if_neg (by omega), if_neg (by omega), if_neg (by omega), if_pos (by omega), Nat.add_sub_cancel_left]
  · rw [target_ring (by omega), Nat.add_sub_cancel_left]

theorem State.hostWrite_draws (s : State) (w : Width) (a : BitVec 20) (v : Word) :
    (s.hostWrite w a v).draws = s.draws := by
  rcases s.hostWrite_cases w a v with e | ⟨t, e, ht⟩ <;> rw [e]
  · rfl
  rw [State.respond_eq, State.drive_draws]
  rcases ht with ⟨-, -, rfl⟩ | ⟨-, -, rfl⟩ | ⟨-, -, rfl⟩ | ⟨-, c, rfl⟩ | ⟨-, -, rfl⟩
  · rfl
  · rcases s.issue_cases v with ⟨-, e⟩ | ⟨-, e⟩ <;> rw [e] <;> rfl
  · rfl
  · rfl
  · simp

/-- The bytes of a window at an IDLE sequencer, one, two and four at a time (R49, R53). -/
theorem State.readData_window_idle {s : State} (h : s.sequencer = .idle) {sp : Space} {base off : Nat}
    (ht : target (base + off) = .mem sp off) (hb : base % 4 = 0) :
    s.readData .byte (base + off) = some ((s.memByte sp off).setWidth 32) ∧
    (off % 2 = 0 →
      s.readData .half (base + off) = some ((s.memByte sp (off + 1) ++ s.memByte sp off).setWidth 32)) ∧
    (off % 4 = 0 →
      s.readData .word (base + off) = some
        (s.memByte sp (off + 3) ++ s.memByte sp (off + 2) ++ s.memByte sp (off + 1) ++ s.memByte sp off)) := by
  have hheld (i : Nat) : s.hostByte (base + off + i) sp (off + i) = s.memByte sp (off + i) :=
    State.hostByte_idle h _ sp _
  refine ⟨?_, fun h2 => ?_, fun h4 => ?_⟩
  · rw [State.readData_mem ht (Nat.mod_one _) hheld, ← ofLeBytes_byte]
    rfl
  · rw [State.readData_mem ht (show _ % 2 = 0 by omega) hheld, ← ofLeBytes_half]
    rfl
  · rw [State.readData_mem ht (show _ % 4 = 0 by omega) hheld, ← ofLeBytes_word]
    rfl

/-- Settles O49: a read is its response, a write its own step, and at an IDLE sequencer each place is read at its address
as the fields or bytes it holds. -/
theorem hostReadOnlyResponds : Obligations.HostReadOnlyResponds := by
  intro s
  refine ⟨fun w a => ?_, fun w a v => ?_, s.readData_cmd, fun h => ⟨?_, ?_, ?_, ?_, ?_⟩⟩
  · rw [takeEvent, State.hostRead]
    cases s.readData w a.toNat <;> rfl
  · rw [takeEvent, s.hostWrite_tick, State.tick, s.hostWrite_draws]
  · exact ⟨_, State.readData_addr_idle h .result, s.result.toWord_fields⟩
  · have held (r : Reg) {n : Nat} (hn : s.regWord r = BitVec.ofNat 32 n) :
        s.readData .word r.addr = some (BitVec.ofNat 32 n) := hn ▸ State.readData_addr_idle h r
    have number {k : Nat} (x : BitVec k) : x.setWidth 32 = BitVec.ofNat 32 x.toNat := (BitVec.ofNat_toNat 32 x).symm
    have word (x : Word) : x = BitVec.ofNat 32 x.toNat := by simp
    intro p hp
    fin_cases hp
    · exact held .cfgFs (number s.cfg.fs)
    · exact held .cfgSbs (number s.cfg.sbs)
    · exact held .cfgFmt s.cfg.fmtWord_eq
    · exact held .cfgRing s.cfg.ringWord_eq
    · exact held .volume (number s.consts.volume)
    · exact held .gain (number s.consts.gain)
    · exact held .maxvol (number s.consts.maxvol)
    · exact held .lpHz (number s.consts.lpHz)
    · exact held .hpHz (number s.consts.hpHz)
    · exact held .lpAlfa (number s.consts.lpAlfa)
    · exact held .hpAlfa (number s.consts.hpAlfa)
    · exact held .subConst (word s.consts.subConst)
    · exact held .divConst (word s.consts.divConst)
    · exact held .spm (number s.spm)
    · exact held .slotBytes (word s.slotBytes)
    · exact held .wcur (number s.w)
    · exact held .rcur (number s.r)
    · exact held .wc0 (number s.wc[0])
    · exact held .wc1 (number s.wc[1])
    · exact held .completions (number s.completions)
    · exact held .xport s.xportWord_eq
  · have held (c : Fin 4) (f : FilterField) (hi : Bool) := State.readData_addr_idle h (.fstate c f hi)
    intro c f p hp
    fin_cases hp
    · exact ⟨held c .oldOut false, held c .oldOut true⟩
    · exact ⟨held c .oldIn false, held c .oldIn true⟩
    · exact ⟨held c .oldZ false, held c .oldZ true⟩
    · exact ⟨held c .coef0 false, held c .coef0 true⟩
    · exact ⟨held c .coef1 false, held c .coef1 true⟩
  · intro p hp o ho b
    obtain ⟨ht, hb⟩ := target_window hp ho
    exact State.readData_window_idle h ht hb
  · intro i hi
    obtain ⟨ht, hb⟩ := target_window (sp := .pcm) (base := 0x01000) (size := 0x4000) (by simp) (o := 2 * i) (by omega)
    rw [(State.readData_window_idle h ht hb).2.1 (by omega), ← State.pcmSample_eq_append]

end Sys2Proof.Machine
end

section
/-! What each command writes: every completion stays inside the places the model counts for its command, and those places
stand at the addresses the command's rule names (R62, R122; log 7). -/

namespace Sys2Proof.Machine

/-! ### Register words after the updates a command makes -/

theorem State.finish_regWord (s : State) (e : ErrCode) {r : Reg} (hs : r ≠ .status) :
    (s.finish e).regWord r = s.regWord r := by
  cases r <;> simp at hs <;> rfl

theorem State.newSession_regWord (s : State) {r : Reg} (hs : r ≠ .status) (hr : r ∉ initRegs)
    (hf : r.inFilter (fun _ => true) = false) : s.newSession.regWord r = s.regWord r := by
  cases r <;> simp [initRegs, Reg.inFilter] at hs hr hf <;> rfl

theorem State.started_regWord (s : State) {r : Reg} (hs : r ≠ .status) (hr : r ∉ startRegs) :
    s.started.regWord r = s.regWord r := by
  rw [s.started_eq]
  cases r <;> simp [startRegs] at hs hr <;> rfl

theorem State.stopped_regWord (s : State) {r : Reg} (hs : r ≠ .status) (hr : r ≠ .xport) :
    s.stopped.regWord r = s.regWord r := by
  rw [s.stopped_eq]
  cases r <;> simp at hs hr <;> rfl

/-- What a READ reports and where it moves R are RESULT and RCUR (R25, R37). -/
theorem State.readCursor_regWord (s : State) (cursor : BitVec 8) (res : ReadResult) {r : Reg} (hs : r ≠ .status)
    (hres : r ≠ .result) (hr : r ≠ .rcur) : ({ s with r := cursor, result := res } : State).regWord r = s.regWord r := by
  cases r <;> simp at hs hres hr <;> rfl

theorem State.filterAt_fin (s : State) (c : Fin 4) : s.filterAt c.val = s.filter[c] := by
  simp [State.filterAt]

/-- After an update of the filter state file and storage alone, a register reads as before unless its channel changed. -/
theorem State.regWord_of_filter {s t : State}
    (e : t = { s with filter := t.filter, scratch := t.scratch, pcm := t.pcm }) {p : Nat → Bool}
    (hf : ∀ c, p c = false → t.filterAt c = s.filterAt c) {r : Reg} (hr : r.inFilter p = false) :
    t.regWord r = s.regWord r := by
  cases r with
  | fstate c f hi =>
    have := hf c hr
    rw [State.filterAt_fin, State.filterAt_fin] at this
    simp only [State.regWord, this]
  | _ => rw [e]; rfl

/-! ### Completions stay inside their places (R113-R118, R106, R89, R97, R88) -/

/-- `t` is the end of a command `i` that ran in `s`: the sequencer is IDLE, and what the model does not count among the
places of `i` is as `s` held it. STATUS is apart: its ERR and BUSY are written by every completion (R15). -/
structure State.CompletedBy (i : Instr) (s t : State) : Prop where
  idle : t.sequencer = .idle
  regWord : ∀ r, r ≠ .status → s.willWriteReg i r = false → t.regWord r = s.regWord r
  memByte : ∀ sp off, s.willWriteByte i sp off = false → t.memByte sp off = s.memByte sp off

/-- What is written before the outcome bounds what the command writes. -/
theorem State.CompletedBy.of_finish {i : Instr} {s u : State} (e : ErrCode)
    (hr : ∀ r, r ≠ .status → s.willWriteReg i r = false → u.regWord r = s.regWord r)
    (hm : ∀ sp off, s.willWriteByte i sp off = false → u.memByte sp off = s.memByte sp off) :
    State.CompletedBy i s (u.finish e) where
  idle := rfl
  regWord r hs hw := (u.finish_regWord e hs).trans (hr r hs hw)
  memByte sp off hw := (u.finish_memByte e sp off).trans (hm sp off hw)

/-- The same for a command that writes registers only. -/
theorem State.CompletedBy.of_registers {i : Instr} {s u : State} (e : ErrCode)
    (hm : ∀ sp, u.mem sp = s.mem sp) (hp : u.powerOn = s.powerOn)
    (hr : ∀ r, r ≠ .status → s.willWriteReg i r = false → u.regWord r = s.regWord r) :
    State.CompletedBy i s (u.finish e) :=
  .of_finish e hr fun sp off _ => State.memByte_congr (hm sp) hp off

/-- A command that fails, and NOP, writes nothing but its code (R122). -/
theorem State.CompletedBy.finish (i : Instr) (s : State) (e : ErrCode) : State.CompletedBy i s (s.finish e) :=
  .of_registers e (fun _ => rfl) rfl fun _ _ _ => rfl

theorem execInit_completed {s t : State} (h : exec .init s = .next t) : State.CompletedBy .init s t := by
  rcases execInit_cases s with ⟨-, e⟩ | ⟨-, c, -, e⟩ | ⟨hr, hc, e⟩ <;> cases e.symm.trans h
  · exact .finish _ _ _
  · exact .of_registers _ (fun sp => by cases sp <;> rfl) rfl fun r hs _ => by cases r <;> simp at hs <;> rfl
  · refine .of_registers _ (fun sp => by cases sp <;> rfl) rfl fun r hs hw => ?_
    simp only [State.willWriteReg, hr, hc, Bool.not_false, Option.isNone_none, Bool.true_and,
      Bool.or_eq_false_iff] at hw
    exact s.newSession_regWord hs (by simpa using hw.1) hw.2

theorem execStart_completed {s t : State} (h : exec .start s = .next t) : State.CompletedBy .start s t := by
  rcases execStart_cases s with ⟨-, c, -, e⟩ | ⟨hok, -, -, e⟩ <;> cases e.symm.trans h
  · exact .finish _ _ _
  · refine .of_registers _ (fun sp => ?_) (by rw [s.started_eq]) fun r hs hw => ?_
    · rw [s.started_eq]; cases sp <;> rfl
    · exact s.started_regWord hs (by simpa [State.willWriteReg, hok] using hw)

theorem execStop_completed {s t : State} (h : exec .stop s = .next t) : State.CompletedBy .stop s t := by
  rcases execStop_cases s with ⟨-, e⟩ | ⟨hr, e⟩ <;> cases e.symm.trans h
  · exact .finish _ _ _
  · refine .of_registers _ (fun sp => ?_) (by rw [s.stopped_eq]) fun r hs hw => ?_
    · rw [s.stopped_eq]; cases sp <;> rfl
    · exact s.stopped_regWord hs (by simpa [State.willWriteReg, hr] using hw)

theorem execSetVolume_completed {s t : State} {v : Nat} (h : exec (.setVolume v) s = .next t) :
    State.CompletedBy (.setVolume v) s t := by
  rcases execSetVolume_cases s v with ⟨-, e⟩ | ⟨hi, e⟩ <;> cases e.symm.trans h
  · exact .finish _ _ _
  · refine .of_registers _ (fun sp => by cases sp <;> rfl) rfl fun r hs hw => ?_
    cases r <;> simp [State.willWriteReg, hi] at hs hw <;> rfl

theorem execSetGain_completed {s t : State} {g : Nat} (h : exec (.setGain g) s = .next t) :
    State.CompletedBy (.setGain g) s t := by
  rcases execSetGain_cases s g with ⟨c, -, e⟩ | ⟨hi, hg, e⟩ <;> cases e.symm.trans h
  · exact .finish _ _ _
  · refine .of_registers _ (fun sp => by cases sp <;> rfl) rfl fun r hs hw => ?_
    cases r <;> simp [State.willWriteReg, hi, hg] at hs hw <;> rfl

theorem execSetMaxvol_completed {s t : State} {m : Nat} (h : exec (.setMaxvol m) s = .next t) :
    State.CompletedBy (.setMaxvol m) s t := by
  rcases execSetMaxvol_cases s m with ⟨-, e⟩ | ⟨hi, e⟩ <;> cases e.symm.trans h
  · exact .finish _ _ _
  · refine .of_registers _ (fun sp => by cases sp <;> rfl) rfl fun r hs hw => ?_
    cases r <;> simp [State.willWriteReg, hi] at hs hw <;> rfl

theorem execFreset_completed {s t : State} {c : Nat} (hc : c < 4) (h : exec (.freset c) s = .next t) :
    State.CompletedBy (.freset c) s t := by
  rcases execFreset_cases s c with ⟨-, e⟩ | ⟨hi, e⟩ <;> cases e.symm.trans h
  · exact .finish _ _ _
  · refine .of_registers _ (s.setFilter_mem c _) rfl fun r _ hw => ?_
    refine State.regWord_of_filter rfl (p := fun x => x == c) (fun c' hc' => ?_)
      (by simpa [State.willWriteReg, hi] using hw)
    rw [s.setFilter_filterAt _ _ hc, if_neg (by simpa using hc')]

theorem execDemux_completed {s t : State} {n : Nat} (hinv : s.Inv) (h : exec (.demux n) s = .next t) :
    State.CompletedBy (.demux n) s t := by
  rcases execDemux_cases s n with ⟨c, -, e⟩ | ⟨hi, hn, e⟩ <;> cases e.symm.trans h
  · exact .finish _ _ _
  have hch := ((initCheck_eq_none _).mp (hinv.legal hi)).1
  refine .of_finish _ (fun r hs _ => ?_) fun sp off hw => ?_
  · exact State.regWord_of_filter (by rw [s.demuxSlot_eq n]) (p := fun _ => false) (fun c _ => by simp [State.filterAt])
      (by cases r <;> rfl)
  · by_cases hsp : sp = .scratch
    · subst hsp
      exact s.demuxSlot_outside n hch (by simpa [State.willWriteByte, demuxOperandOk, hi, hn] using hw)
    · exact s.demuxSlot_memByte_of_ne n hsp off

theorem execDecode_completed {s t : State} {c k : Nat} (hinv : s.Inv) (h : exec (.decode c k) s = .next t) :
    State.CompletedBy (.decode c k) s t := by
  rcases execDecode_cases s c k with ⟨e', -, e⟩ | ⟨hi, hc, hk, e⟩ <;> cases e.symm.trans h
  · exact .finish _ _ _
  have hch := ((initCheck_eq_none _).mp (hinv.legal hi)).1
  have hok : decodeOperandsOk s.active c k = true := by simp [decodeOperandsOk, hc, hk]
  refine .of_finish _ (fun r _ hw => ?_) fun sp off hw => ?_
  · refine State.regWord_of_filter rfl (p := fun x => x == c) (fun c' hc' => ?_)
      (by simpa [State.willWriteReg, hi, hok] using hw)
    exact (s.setFilter_filterAt _ c' (by omega)).trans (if_neg (by simpa using hc'))
  · by_cases hsp : sp = .pcm
    · subst hsp
      have ho : 2 * s.active.spm ≤ off := by simpa [State.willWriteByte, hi, hok] using hw
      refine (State.memByte_writeMem_outside _ .pcm (.inr ?_)).trans (s.setFilter_memByte c _ .pcm off)
      simpa [Nat.mul_comm] using ho
    · exact s.decodeBlock_memByte_of_ne c _ _ hsp off

/-- The filtering of a READ leaves the channels that are not there, every channel where n = 0, and PCM past its samples
(R106). -/
theorem State.decodeAll_frame (s : State) (nreq : Nat) (h : initCheck s.active = none) :
    (∀ c, readCount s.active nreq = 0 ∨ s.active.channels ≤ c →
      (s.decodeAll (readCount s.active nreq)).filterAt c = s.filterAt c) ∧
    ∀ o, 2 * (s.active.channels * readCount s.active nreq) ≤ o →
      (s.decodeAll (readCount s.active nreq)).memByte .pcm o = s.memByte .pcm o := by
  have hch := ((initCheck_eq_none _).mp h).1
  obtain ⟨-, hin, hout, hpcm⟩ :=
    State.decodeChannels_spec _ s (readCount_blocks h nreq).1 s.active.channels (by omega)
  refine ⟨fun c hc => ?_, hpcm⟩
  rcases Nat.lt_or_ge c s.active.channels with hlt | hge
  · have h0 : readCount s.active nreq = 0 := by omega
    have := (hin c hlt).1
    rw [h0] at this ⊢
    exact this
  · exact hout c hge

/-- The data path of a READ writes F, SCRATCH and PCM (R106). -/
theorem State.decodeAll_demuxSlot_eq (s : State) (n slot : Nat) :
    (s.demuxSlot slot).decodeAll n =
      { s with
        filter := ((s.demuxSlot slot).decodeAll n).filter
        scratch := ((s.demuxSlot slot).decodeAll n).scratch
        pcm := ((s.demuxSlot slot).decodeAll n).pcm } := by
  have hdecode := (s.demuxSlot slot).decodeAll_eq n
  have hdemux := s.demuxSlot_eq slot
  generalize (s.demuxSlot slot).decodeAll n = v at hdecode ⊢
  generalize s.demuxSlot slot = u at hdecode hdemux
  rw [hdecode, hdemux]

/-- A READ of a session holds the slot its selection finds (R109; log 12). -/
theorem State.Inv.sSel_of_read {s : State} {cmd : Word} {wk : Work} {n : Nat} (hinv : s.Inv)
    (hb : s.sequencer = .busy cmd wk) (hd : decode cmd = .ok (.read n)) (hi : s.status.inited = true) :
    s.work.sSel = (select s.active s.r s.work.wSnap).map (·.slot) := by
  have h := hinv.selection
  unfold State.selectionOk at h
  rw [hb] at h
  rw [State.work_of_busy hb, h]
  simp only [State.slotReadBy, hd, State.slotRead, hi, if_true]

theorem execRead_completed {s t : State} {cmd : Word} {wk : Work} {nreq : Nat} (hinv : s.Inv)
    (hb : s.sequencer = .busy cmd wk) (hd : decode cmd = .ok (.read nreq)) (h : exec (.read nreq) s = .next t) :
    State.CompletedBy (.read nreq) s t := by
  rcases execRead_cases s nreq with ⟨-, e⟩ | ⟨hi, hsel, e⟩ | ⟨hi, sel, hsel, e⟩ <;> cases e.symm.trans h
  · exact .finish _ _ _
  · refine .of_registers _ (fun sp => by cases sp <;> rfl) rfl fun r hs hw => ?_
    cases r <;> simp [State.willWriteReg, hi] at hs hw <;> rfl
  have hsome : s.work.sSel.isSome = true := by rw [hinv.sSel_of_read hb hd hi, hsel]; rfl
  have hl := hinv.legal hi
  have hch := ((initCheck_eq_none _).mp hl).1
  obtain ⟨hfilter, hpcm⟩ := (s.demuxSlot sel.slot.toNat).decodeAll_frame nreq (by simpa using hl)
  simp only [State.demuxSlot_active] at hfilter hpcm
  refine .of_finish _ (fun r hs hw => ?_) fun sp off hw => ?_
  · simp only [State.willWriteReg, hi, hsome, Bool.true_and, Bool.or_eq_false_iff, beq_eq_false_iff_ne] at hw
    obtain ⟨hresult, hr, hw⟩ := hw
    refine (State.readCursor_regWord _ _ _ hs hresult hr).trans (State.regWord_of_filter (s.decodeAll_demuxSlot_eq _ _)
      (p := fun c => readCount s.active nreq != 0 && decide (c < s.active.channels)) (fun c hc => ?_) ?_)
    · refine (hfilter c ?_).trans (by simp [State.filterAt])
      simpa [or_iff_not_imp_left] using hc
    · cases r with
      | fstate c f b => exact hw
      | _ => rfl
  · refine Eq.trans (State.memByte_congr (s := (s.demuxSlot sel.slot.toNat).decodeAll (readCount s.active nreq))
      (by cases sp <;> rfl) rfl off) ?_
    cases sp with
    | ring => exact State.memByte_congr (by simp [State.mem]) (by simp) off
    | scratch =>
      refine (State.memByte_congr (by simp [State.mem]) (by simp) off).trans
        (s.demuxSlot_outside sel.slot.toNat hch (o := off) ?_)
      simpa [State.willWriteByte, hi, hsome] using hw
    | pcm =>
      refine (hpcm off ?_).trans (s.demuxSlot_memByte_of_ne _ (by decide) off)
      simpa [State.willWriteByte, hi, hsome] using hw

/-- Every command, in a state that meets the invariant, stays inside its places. -/
theorem exec_completed {s t : State} {cmd : Word} {wk : Work} {i : Instr} (hinv : s.Inv)
    (hb : s.sequencer = .busy cmd wk) (hd : decode cmd = .ok i) (h : exec i s = .next t) : State.CompletedBy i s t := by
  cases i with
  | nop => cases h; exact .finish _ _ _
  | init => exact execInit_completed h
  | start => exact execStart_completed h
  | stop => exact execStop_completed h
  | read n => exact execRead_completed hinv hb hd h
  | setVolume v => exact execSetVolume_completed h
  | setGain g => exact execSetGain_completed h
  | setMaxvol m => exact execSetMaxvol_completed h
  | freset c =>
    have hc : c ≤ 3 := of_decide_eq_true (decode_wellFormed hd)
    exact execFreset_completed (by omega) h
  | demux n => exact execDemux_completed hinv h
  | decode c k => exact execDecode_completed hinv h

/-! ### The addresses of the places (R49) -/

/-- The addresses that command `i`, running with the working values `wk`, writes at its completion; none where it is
sure to fail. It is O54's `written`, in the model's own terms. -/
def State.Footprint (s : State) (wk : Work) (i : Instr) (x : Nat) : Prop :=
  let within (lo n : Nat) := lo ≤ x ∧ x < lo + n
  let inited := s.status.inited = true
  let a := s.active
  match i with
  | .nop => False
  | .init => ¬s.status.running = true ∧ initCheck s.cfg = none ∧ (within 0x020 0x3C ∨ within 0x100 0x100)
  | .start =>
    inited ∧ ¬s.status.running = true ∧
      (wk.pins.xportAvail0 = true ∧ (a.nprod = true → wk.pins.xportAvail1 = true)) ∧ wk.pins.notifyOk = true ∧
      (within 0x04C 16 ∨ within 0x060 4)
  | .stop => s.status.running = true ∧ within 0x060 4
  | .read nreq =>
    inited ∧ (within 0x00C 4 ∨ (wk.wSnap ≠ s.r ∧
      (within 0x050 4 ∨ within 0x40000 a.slotSize ∨
        (readCount a nreq ≠ 0 ∧
          (within 0x100 (0x40 * a.channels) ∨ within 0x01000 (2 * (a.channels * readCount a nreq)))))))
  | .setVolume _ => inited ∧ within 0x020 4
  | .setGain g => inited ∧ g ≠ 0 ∧ (within 0x024 4 ∨ within 0x040 4)
  | .setMaxvol _ => inited ∧ (within 0x028 4 ∨ within 0x040 4)
  | .freset c => inited ∧ within (0x100 + 0x40 * c) 0x40
  | .demux slot => inited ∧ slot < a.slots ∧ within 0x40000 a.slotSize
  | .decode c k =>
    inited ∧ c < a.channels ∧ (k + 1) * a.spm ≤ a.samples ∧
      (within (0x100 + 0x40 * c) 0x40 ∨ within 0x01000 (2 * a.spm))

theorem addr_of_mem_initRegs : ∀ r ∈ initRegs, 0x020 ≤ r.addr ∧ r.addr < 0x020 + 0x3C := by decide

theorem addr_of_mem_startRegs : ∀ r ∈ startRegs,
    (0x04C ≤ r.addr ∧ r.addr < 0x04C + 16) ∨ (0x060 ≤ r.addr ∧ r.addr < 0x060 + 4) := by decide

theorem Reg.addr_of_inFilter {p : Nat → Bool} {r : Reg} (h : r.inFilter p = true) :
    ∃ c : Fin 4, p c.val = true ∧ 0x100 + 0x40 * c.val ≤ r.addr ∧ r.addr < 0x100 + 0x40 * c.val + 0x40 := by
  cases r with
  | fstate c f hi =>
    have := Reg.addr_fstate c f hi
    exact ⟨c, h, this.1, by omega⟩
  | _ => cases h

theorem select_isSome {a : Configuration} {r w : BitVec 8} (h : (select a r w).isSome = true) : w ≠ r := by
  rintro rfl
  simp [select] at h

theorem State.Inv.wSnap_ne_of_read {s : State} {cmd : Word} {wk : Work} {n : Nat} (hinv : s.Inv)
    (hb : s.sequencer = .busy cmd wk) (hd : decode cmd = .ok (.read n)) (hi : s.status.inited = true)
    (h : s.work.sSel.isSome = true) : wk.wSnap ≠ s.r := by
  rw [hinv.sSel_of_read hb hd hi, State.work_of_busy hb, Option.isSome_map] at h
  exact select_isSome h

/-- A register the model counts among a command's places stands in its footprint. -/
theorem State.footprint_of_willWriteReg {s : State} {cmd : Word} {wk : Work} {i : Instr} (hinv : s.Inv)
    (hb : s.sequencer = .busy cmd wk) (hd : decode cmd = .ok i) {r : Reg} (h : s.willWriteReg i r = true) :
    s.Footprint wk i r.addr := by
  cases i with
  | nop => cases h
  | init =>
    simp only [State.willWriteReg, Bool.and_eq_true, Bool.not_eq_true', Option.isNone_iff_eq_none, Bool.or_eq_true,
      List.contains_iff_mem] at h
    obtain ⟨⟨hr, hc⟩, h⟩ := h
    refine ⟨by simp [hr], hc, ?_⟩
    rcases h with h | h
    · exact .inl (addr_of_mem_initRegs r h)
    · obtain ⟨c, -, hlo, hhi⟩ := Reg.addr_of_inFilter h
      right
      omega
  | start =>
    simp only [State.willWriteReg, State.startOk, State.xportsAvailable, State.work_of_busy hb, Bool.and_eq_true,
      Bool.not_eq_true', Bool.or_eq_true, List.contains_iff_mem] at h
    obtain ⟨⟨⟨⟨hi, hr⟩, h0, h1⟩, hn⟩, h⟩ := h
    refine ⟨hi, by simp [hr], ⟨h0, fun hp => ?_⟩, hn, addr_of_mem_startRegs r h⟩
    exact h1.resolve_left (by simp [hp])
  | stop =>
    simp only [State.willWriteReg, Bool.and_eq_true, beq_iff_eq] at h
    obtain ⟨hr, rfl⟩ := h
    exact ⟨hr, by decide⟩
  | read nreq =>
    simp only [State.willWriteReg, Bool.and_eq_true, Bool.or_eq_true, beq_iff_eq] at h
    obtain ⟨hi, rfl | ⟨hsome, h⟩⟩ := h
    · exact ⟨hi, .inl (by decide)⟩
    refine ⟨hi, .inr ⟨hinv.wSnap_ne_of_read hb hd hi hsome, ?_⟩⟩
    rcases h with rfl | ⟨hn, h⟩
    · exact .inl (by decide)
    · obtain ⟨c, hc, hlo, hhi⟩ := Reg.addr_of_inFilter h
      refine .inr (.inr ⟨by simpa using hn, .inl ?_⟩)
      simp only [decide_eq_true_eq] at hc
      omega
  | setVolume v =>
    simp only [State.willWriteReg, Bool.and_eq_true, beq_iff_eq] at h
    obtain ⟨hi, rfl⟩ := h
    exact ⟨hi, by decide⟩
  | setGain g =>
    simp only [State.willWriteReg, Bool.and_eq_true, Bool.or_eq_true, beq_iff_eq, bne_iff_ne] at h
    obtain ⟨⟨hi, hg⟩, rfl | rfl⟩ := h
    · exact ⟨hi, hg, .inl (by decide)⟩
    · exact ⟨hi, hg, .inr (by decide)⟩
  | setMaxvol m =>
    simp only [State.willWriteReg, Bool.and_eq_true, Bool.or_eq_true, beq_iff_eq] at h
    obtain ⟨hi, rfl | rfl⟩ := h
    · exact ⟨hi, .inl (by decide)⟩
    · exact ⟨hi, .inr (by decide)⟩
  | freset c =>
    simp only [State.willWriteReg, Bool.and_eq_true] at h
    obtain ⟨c', hc, hlo, hhi⟩ := Reg.addr_of_inFilter h.2
    rw [eq_of_beq hc] at hlo hhi
    exact ⟨h.1, hlo, hhi⟩
  | demux n => cases h
  | decode c k =>
    simp only [State.willWriteReg, Bool.and_eq_true, decodeOperandsOk, decide_eq_true_eq] at h
    obtain ⟨⟨hi, hc, hk⟩, h⟩ := h
    obtain ⟨c', hc', hlo, hhi⟩ := Reg.addr_of_inFilter h
    rw [eq_of_beq hc'] at hlo hhi
    exact ⟨hi, hc, hk, .inl ⟨hlo, hhi⟩⟩

/-- The first address of a storage window (R49). -/
def windowBase : Space → Nat
  | .ring => 0x80000
  | .scratch => 0x40000
  | .pcm => 0x01000

theorem eq_windowBase_add {x off : Nat} {sp : Space} (h : target x = .mem sp off) : x = windowBase sp + off := by
  rcases target_mem h with ⟨rfl, h⟩ | ⟨rfl, h⟩ | ⟨rfl, h⟩ <;> simp only [windowBase] <;> omega

/-- A byte of a run from `lo` on stands inside the run. -/
theorem within_add {lo n off : Nat} (h : off < n) : lo ≤ lo + off ∧ lo + off < lo + n := by omega

/-- A storage byte the model counts among a command's places stands in its footprint. -/
theorem State.footprint_of_willWriteByte {s : State} {cmd : Word} {wk : Work} {i : Instr} (hinv : s.Inv)
    (hb : s.sequencer = .busy cmd wk) (hd : decode cmd = .ok i) {sp : Space} {off : Nat}
    (h : s.willWriteByte i sp off = true) : s.Footprint wk i (windowBase sp + off) := by
  cases i with
  | read nreq =>
    cases sp with
    | ring => cases h
    | scratch =>
      simp only [State.willWriteByte, Bool.and_eq_true, decide_eq_true_eq] at h
      obtain ⟨⟨hi, hsome⟩, ho⟩ := h
      exact ⟨hi, .inr ⟨hinv.wSnap_ne_of_read hb hd hi hsome, .inr (.inl (within_add ho))⟩⟩
    | pcm =>
      simp only [State.willWriteByte, Bool.and_eq_true, decide_eq_true_eq] at h
      obtain ⟨⟨hi, hsome⟩, ho⟩ := h
      have hn : readCount s.active nreq ≠ 0 := by
        intro h0
        rw [h0] at ho
        omega
      exact ⟨hi, .inr ⟨hinv.wSnap_ne_of_read hb hd hi hsome, .inr (.inr ⟨hn, .inr (within_add ho)⟩)⟩⟩
  | demux n =>
    cases sp with
    | ring => cases h
    | pcm => cases h
    | scratch =>
      simp only [State.willWriteByte, demuxOperandOk, Bool.and_eq_true, decide_eq_true_eq] at h
      obtain ⟨⟨hi, hn⟩, ho⟩ := h
      exact ⟨hi, hn, within_add ho⟩
  | decode c k =>
    cases sp with
    | ring => cases h
    | scratch => cases h
    | pcm =>
      simp only [State.willWriteByte, decodeOperandsOk, Bool.and_eq_true, decide_eq_true_eq] at h
      obtain ⟨⟨hi, hc, hk⟩, ho⟩ := h
      exact ⟨hi, hc, hk, .inr (within_add ho)⟩
  | _ => cases sp <;> cases h

/-! ### Host reads beside the footprint (R62) -/

theorem State.hostRegWord_of_not_willWriteReg {s : State} {cmd : Word} {wk : Work} {i : Instr}
    (hb : s.sequencer = .busy cmd wk) (hd : decode cmd = .ok i) {r : Reg} (h : s.willWriteReg i r = false) (x : Nat) :
    s.hostRegWord x r = s.regWord r := by
  simp [State.hostRegWord, State.regUnspecified, State.running?_of_busy hb hd, h]

theorem State.hostByte_of_not_willWriteByte {s : State} {cmd : Word} {wk : Work} {i : Instr}
    (hb : s.sequencer = .busy cmd wk) (hd : decode cmd = .ok i) {sp : Space} {off : Nat}
    (h : s.willWriteByte i sp off = false) (x : Nat) : s.hostByte x sp off = s.memByte sp off := by
  simp [State.hostByte, State.byteUnspecified, State.running?_of_busy hb hd, h]

/-- The state with the same contents and no command running: what the places hold now. -/
def State.rested (s : State) : State := { s with sequencer := .idle }

theorem State.rested_regWord (s : State) {r : Reg} (hs : r ≠ .status) : s.rested.regWord r = s.regWord r := by
  cases r <;> simp at hs <;> rfl

theorem State.rested_memByte (s : State) (sp : Space) (off : Nat) : s.rested.memByte sp off = s.memByte sp off :=
  State.memByte_congr (by cases sp <;> rfl) rfl off

/-- A host read of `u` returns what `s` holds, if it does so at the register or at each byte the read meets. -/
theorem State.readData_eq_rested {s u : State} {w : Width} {x : Nat}
    (hr : ∀ r, target x = .reg r → r ≠ .status ∧ u.hostRegWord x r = s.regWord r)
    (hm : ∀ sp off, target x = .mem sp off → ∀ j < w.bytes, u.hostByte (x + j) sp (off + j) = s.memByte sp (off + j)) :
    u.readData w x = s.rested.readData w x := by
  refine State.readData_congr (fun r ht => ?_) fun sp off ht j hj => ?_
  · obtain ⟨hs, h⟩ := hr r ht
    rw [h, State.hostRegWord_idle rfl, s.rested_regWord hs]
  · rw [hm sp off ht j hj, State.hostByte_idle rfl, s.rested_memByte]

/-- Settles O54: a completion stays inside the places the model counts, those places stand in the footprint, and a read
beside the footprint meets none of them. -/
theorem commandsWriteOnlyTheirPlaces : Obligations.CommandsWriteOnlyTheirPlaces := by
  intro s t cmd wk i hinv hb hd he inited running a spm sbs channels slotBytes available within written held
  have hdone := exec_completed hinv hb hd he
  have hwritten (x : Nat) (h : s.Footprint wk i x) : written x := by
    cases i <;> exact h
  refine ⟨fun w x h8 hx => ?_, hdone.regWord, hdone.memByte,
    fun x r h => State.hostRegWord_of_not_willWriteReg hb hd h x,
    fun x sp off h => State.hostByte_of_not_willWriteByte hb hd h x⟩
  have hreg (r : Reg) (ht : target x = .reg r) : r ≠ .status ∧ s.willWriteReg i r = false := by
    have hxr := target_eq_reg_iff.mp ht
    refine ⟨fun hs => h8 (hxr.trans (congrArg Reg.addr hs)), Bool.eq_false_iff.mpr fun h => ?_⟩
    refine hx 0 (width_bytes_pos w) (hwritten _ ?_)
    rw [Nat.add_zero, hxr]
    exact State.footprint_of_willWriteReg hinv hb hd h
  have hbyte (sp : Space) (off : Nat) (ht : target x = .mem sp off) (j : Nat) (hj : j < w.bytes) :
      s.willWriteByte i sp (off + j) = false := by
    refine Bool.eq_false_iff.mpr fun h => hx j hj (hwritten _ ?_)
    rw [eq_windowBase_add ht, Nat.add_assoc]
    exact State.footprint_of_willWriteByte hinv hb hd h
  constructor
  · refine State.readData_eq_rested (fun r ht => ?_) fun sp off ht j hj => ?_
    · exact ⟨(hreg r ht).1, State.hostRegWord_of_not_willWriteReg hb hd (hreg r ht).2 x⟩
    · exact State.hostByte_of_not_willWriteByte hb hd (hbyte sp off ht j hj) _
  · refine State.readData_eq_rested (fun r ht => ?_) fun sp off ht j hj => ?_
    · obtain ⟨hs, hw⟩ := hreg r ht
      exact ⟨hs, (State.hostRegWord_idle hdone.idle x r).trans (hdone.regWord r hs hw)⟩
    · exact (State.hostByte_idle hdone.idle _ sp _).trans (hdone.memByte sp _ (hbyte sp off ht j hj))

end Sys2Proof.Machine
end

section
/-! Command words (30_encoding.md): the rows of the table by the fields they fix, the illegal words, and that decoding
and encoding are each other's inverse. -/

namespace Sys2Proof

open Laws.EncodedFields (opc ch arg)

/-! ### A row selects a word by its fields (R68-R70) -/

/-- The fields of every row's mask and pattern: OPC and RSV are fixed, and so is each operand field that the row's command
does not use. -/
theorem encMap_fields : ∀ row ∈ encMap,
    row.mask = (if usesArg (fieldOpc row.pattern) then 0#16 else 0xFFFF#16) ++ 0x3F#6 ++
      (if usesCh (fieldOpc row.pattern) then 0#2 else 3#2) ++ 0xFF#8 ∧
    row.pattern = 0#16 ++ 0#6 ++ 0#2 ++ row.pattern.extractLsb' 0 8 := by decide

/-- A field that is masked unless the command uses it matches 0 exactly if it is 0 where it is not used. -/
theorem and_masked_iff {n : Nat} {x m : BitVec n} (hm : x &&& m = x) (used : Bool) :
    x &&& (if used then 0#n else m) = 0#n ↔ (used = false → x.toNat = 0) := by
  cases used <;> simp [hm, ← BitVec.toNat_inj]

/-- A row selects the words with its opcode, RSV = 0, and 0 in the fields their command does not use. -/
theorem selects_iff_fields {row : EncRow} (h : row ∈ encMap) (w : Word) :
    row.selects w = true ↔
      fieldOpc w = fieldOpc row.pattern ∧ fieldRsv w = 0 ∧ (usesCh (fieldOpc w) = false → fieldCh w = 0) ∧
        (usesArg (fieldOpc w) = false → fieldArg w = 0) := by
  obtain ⟨hmask, hpattern⟩ := encMap_fields row h
  have hopc : w.extractLsb' 0 8 = row.pattern.extractLsb' 0 8 ↔ fieldOpc w = fieldOpc row.pattern :=
    BitVec.toNat_inj.symm
  rw [EncRow.selects, beq_iff_eq, hmask]
  conv => lhs; rhs; rw [hpattern]
  rw [and_eq_fields, and_masked_iff (and_ones_16 _), and_ones_6, and_masked_iff (and_ones_2 _), and_ones_8, hopc]
  constructor
  · rintro ⟨ha, hr, hc, ho⟩
    rw [ho]
    exact ⟨rfl, congrArg BitVec.toNat hr, hc, ha⟩
  · rintro ⟨ho, hr, hc, ha⟩
    rw [ho] at hc ha
    exact ⟨ha, BitVec.eq_of_toNat_eq hr, hc, ho⟩

/-- The opcodes of the table's rows are those R71 does not reserve. -/
theorem exists_row_opc_iff (n : Nat) : (∃ row ∈ encMap, fieldOpc row.pattern = n) ↔ reservedOpc n = false := by
  have hopcodes : encMap.map (fieldOpc ·.pattern) = [0, 1, 2, 3, 4, 5, 6, 7, 0x10, 0x11, 0x12] := by decide
  refine List.mem_map.symm.trans ?_
  rw [hopcodes]
  simp only [List.mem_cons, List.not_mem_nil, or_false, reservedOpc, Bool.or_eq_false_iff, Bool.and_eq_false_iff,
    decide_eq_false_iff_not]
  omega

/-- A word is legal exactly if its opcode is that of a row, RSV is 0, and the fields its command does not use are 0. -/
theorem selected_iff (w : Word) :
    (∃ row ∈ encMap, row.selects w = true) ↔
      reservedOpc (fieldOpc w) = false ∧ fieldRsv w = 0 ∧ (usesCh (fieldOpc w) = false → fieldCh w = 0) ∧
        (usesArg (fieldOpc w) = false → fieldArg w = 0) := by
  rw [← exists_row_opc_iff]
  constructor
  · rintro ⟨row, hrow, hs⟩
    obtain ⟨ho, hf⟩ := (selects_iff_fields hrow w).mp hs
    exact ⟨⟨row, hrow, ho.symm⟩, hf⟩
  · rintro ⟨⟨row, hrow, ho⟩, hf⟩
    exact ⟨row, hrow, (selects_iff_fields hrow w).mpr ⟨ho.symm, hf⟩⟩

/-- Settles O5: the illegal words are those no row selects, and the causes of R71 are what a row's fields exclude. -/
theorem illegalWords : Obligations.IllegalWords := by
  intro x
  have hillegal : (∀ row ∈ encMap, row.selects x = false) ↔ ¬∃ row ∈ encMap, row.selects x = true := by simp
  rw [decode_error_iff, hillegal, selected_iff]
  simp only [reservedOpc, usesCh, usesArg, Bool.or_eq_false_iff, Bool.and_eq_false_iff, decide_eq_false_iff_not,
    beq_eq_false_iff_ne]
  omega

/-- Settles O4: either a row selects the word, and no other does, or none does. -/
theorem decodeTotal : Obligations.DecodeTotal := by
  intro x
  by_cases h : ∃ row ∈ encMap, row.selects x = true
  · obtain ⟨row, hrow, hs⟩ := h
    refine .inl ⟨row, hrow, eq_of_beq hs, fun other ho he => ?_, decode_of_selects hrow hs⟩
    exact selects_unique ho hrow (beq_iff_eq.mpr he) hs
  · have hnone : ∀ row ∈ encMap, row.selects x = false := by simpa using h
    exact .inr ⟨fun row hrow => beq_eq_false_iff_ne.mp (hnone row hrow), (decode_error_iff x).mpr hnone⟩

/-! ### The command of a row, and the row of a command (R69) -/

/-- Two words with the same fields are the same word (R68). -/
theorem eq_of_fields_eq {x y : Word} (ho : fieldOpc x = fieldOpc y) (hc : fieldCh x = fieldCh y)
    (hr : fieldRsv x = fieldRsv y) (ha : fieldArg x = fieldArg y) : x = y := by
  apply BitVec.eq_of_toNat_eq
  rw [toNat_eq_fields x, toNat_eq_fields y, ho, hc, hr, ha]

/-- The fields of a row's command with its operands from a word: the row's opcode, and the word's operand fields where the
command uses them. -/
theorem operandsOf_opc {row : EncRow} (h : row ∈ encMap) (w : Word) :
    opc (operandsOf row.mnemonic w) = fieldOpc row.pattern := by
  simp only [encMap, List.mem_cons, List.not_mem_nil, or_false] at h
  rcases h with rfl | rfl | rfl | rfl | rfl | rfl | rfl | rfl | rfl | rfl | rfl <;> rfl

theorem operandsOf_ch (m : Mnemonic) (w : Word) :
    ch (operandsOf m w) = if usesCh (opc (operandsOf m w)) then fieldCh w else 0 := by
  cases m <;> rfl

theorem operandsOf_arg (m : Mnemonic) (w : Word) :
    arg (operandsOf m w) = if usesArg (opc (operandsOf m w)) then fieldArg w else 0 := by
  cases m <;> rfl

/-- The fields of every well-formed command's word are the command's own (R68). -/
theorem encode_fields (i : Instr) : Laws.EncodedFields.Statement i := by
  cases i with
  | nop => exact Laws.EncodedFields.nop
  | init => exact Laws.EncodedFields.init
  | start => exact Laws.EncodedFields.start
  | stop => exact Laws.EncodedFields.stop
  | read n => exact Laws.EncodedFields.read n
  | setVolume v => exact Laws.EncodedFields.setVolume v
  | setGain g => exact Laws.EncodedFields.setGain g
  | setMaxvol m => exact Laws.EncodedFields.setMaxvol m
  | freset c => exact Laws.EncodedFields.freset c
  | demux s => exact Laws.EncodedFields.demux s
  | decode c k => exact Laws.EncodedFields.decode c k

/-- Settles O3: the command of a row, with its operands from the word, has the fields of the word, and a word is its
fields. -/
theorem encodeOfDecode : Obligations.EncodeOfDecode := by
  intro x i hd
  have hwf := decode_wellFormed hd
  refine ⟨hwf, ?_⟩
  obtain ⟨ho, hc, hr, ha⟩ := encode_fields i hwf
  obtain ⟨row, hrow, hs, rfl⟩ := selects_of_decode hd
  obtain ⟨ho', hr', hc', ha'⟩ := (selects_iff_fields hrow x).mp hs
  have hopc : opc (operandsOf row.mnemonic x) = fieldOpc x := (operandsOf_opc hrow x).trans ho'.symm
  refine eq_of_fields_eq (ho.trans hopc) (hc.trans ?_) (hr.trans hr'.symm) (ha.trans ?_)
  · rw [operandsOf_ch, hopc]
    exact ite_eq_left_iff.mpr fun hu => (hc' (Bool.eq_false_iff.mpr hu)).symm
  · rw [operandsOf_arg, hopc]
    exact ite_eq_left_iff.mpr fun hu => (ha' (Bool.eq_false_iff.mpr hu)).symm

/-- The mnemonic of the row a command is an instance of (R69): `operandsOf_mnemonic`. -/
def Instr.mnemonic : Instr → Mnemonic
  | .nop => .NOP
  | .init => .INIT
  | .start => .START
  | .stop => .STOP
  | .read _ => .READ
  | .setVolume _ => .SET_VOLUME
  | .setGain _ => .SET_GAIN
  | .setMaxvol _ => .SET_MAXVOL
  | .freset _ => .FRESET
  | .demux _ => .DEMUX
  | .decode _ _ => .DECODE

theorem exists_row (m : Mnemonic) : ∃ row ∈ encMap, row.mnemonic = m := by cases m <;> decide

theorem operandsOf_mnemonic {i : Instr} {w : Word} (hc : fieldCh w = ch i) (ha : fieldArg w = arg i) :
    operandsOf i.mnemonic w = i := by
  cases i <;> simp [operandsOf, Instr.mnemonic, hc, ha, ch, arg]

/-- A command that does not use CH has 0 there, and one that does not use ARG has 0 there (R68). -/
theorem ch_of_unused {i : Instr} (h : usesCh (opc i) = false) : ch i = 0 := by
  cases i with
  | freset c => cases h
  | decode c k => cases h
  | _ => rfl

theorem arg_of_unused {i : Instr} (h : usesArg (opc i) = false) : arg i = 0 := by
  cases i with
  | nop | init | start | stop | freset _ => rfl
  | _ => cases h

/-- A well-formed command's word is selected by the command's own row, whose operands are the command's. -/
theorem decode_encode {i : Instr} (h : i.wellFormed = true) : decode (encode i) = .ok i := by
  obtain ⟨ho, hc, hr, ha⟩ := encode_fields i h
  obtain ⟨row, hrow, hm⟩ := exists_row i.mnemonic
  have hi : operandsOf row.mnemonic (encode i) = i := by rw [hm, operandsOf_mnemonic hc ha]
  have hopc : opc i = fieldOpc row.pattern := by rw [← operandsOf_opc hrow (encode i), hi]
  have hs : row.selects (encode i) = true := by
    rw [selects_iff_fields hrow, ho, hc, ha]
    exact ⟨hopc, hr, ch_of_unused, arg_of_unused⟩
  rw [decode_of_selects hrow hs, hi]

/-- Settles O2: the word and its bytes decode alike, and the word decodes to the command (`decode_encode`). -/
theorem decodeOfEncode : Obligations.DecodeOfEncode := by
  intro i h
  refine ⟨decode_encode h, fun rest => ?_⟩
  rw [decodeBytes_bytesOfWord, decode_encode h]
  rfl

/-- Settles O1: each word written out is the word of its command, so each is a case of `decode_encode`. -/
theorem sampleWordsDecode : Obligations.SampleWordsDecode :=
  ⟨decode_encode (i := .nop) rfl, decode_encode (i := .init) rfl, decode_encode (i := .start) rfl,
    decode_encode (i := .stop) rfl, decode_encode (i := .read 16) rfl, decode_encode (i := .setVolume 4) rfl,
    decode_encode (i := .setGain 32) rfl, decode_encode (i := .setMaxvol 128) rfl,
    decode_encode (i := .freset 3) rfl, decode_encode (i := .demux 5) rfl, decode_encode (i := .decode 2 7) rfl⟩

end Sys2Proof
end

section
/-! A running command's completion as the next step, and the polls of a `wait` (30_encoding.md R74; log 2, log 15). -/

namespace Sys2Proof.Machine

/-! ### The completion step (R44, R109) -/

/-- The completion comes next where the sequencer has the turn or, while BUSY, nothing else is left to happen (log 2). -/
theorem step_complete {s : State} {cmd : Word} {wk : Work} {es : List Event} (hb : s.sequencer = .busy cmd wk)
    (he : s.events = .complete :: es ∨ (s.events = [] ∧ es = [])) :
    step s = ({ s with events := es } : State).tick.completeCommand := by
  have hbusy : s.busy = true := s.busy_iff.mpr ⟨cmd, wk, hb⟩
  have hnext : s.nextEvent = some (.complete, es) := by
    rcases he with he | ⟨he, rfl⟩
    · rw [State.nextEvent, he]
    · rw [State.nextEvent, he]
      exact if_pos hbusy
  rw [step, State.advance, hnext]
  rfl

theorem State.completeCommand_illegal {s : State} {cmd : Word} {wk : Work} {e : DecodeError}
    (hb : s.sequencer = .busy cmd wk) (hd : decode cmd = .error e) :
    s.completeCommand = .next (s.finish .illegalCmd) := by
  simp [State.completeCommand, hb, hd, State.fail]

/-- Settles O9: the completion step comes next, and an illegal word's is the failure ILLEGAL_CMD. -/
theorem illegalWordCompletes : Obligations.IllegalWordCompletes := by
  intro s cmd wk e es hb hd he
  rw [step_complete hb he, State.completeCommand_illegal (s := ({ s with events := es } : State).tick) hb hd]
  rfl

/-- Every command ends in an outcome, and none schedules an event. -/
theorem exec_finishes (i : Instr) (s : State) : ∃ u e, exec i s = .next (State.finish u e) ∧ u.events = s.events := by
  cases i with
  | nop => exact ⟨s, .ok, rfl, rfl⟩
  | init =>
    rcases execInit_cases s with ⟨-, h⟩ | ⟨-, e, -, h⟩ | ⟨-, -, h⟩ <;> exact ⟨_, _, h, rfl⟩
  | start =>
    rcases execStart_cases s with ⟨-, e, -, h⟩ | ⟨-, -, -, h⟩
    · exact ⟨_, _, h, rfl⟩
    · exact ⟨_, _, h, by rw [State.started_eq]⟩
  | stop =>
    rcases execStop_cases s with ⟨-, h⟩ | ⟨-, h⟩
    · exact ⟨_, _, h, rfl⟩
    · exact ⟨_, _, h, by rw [State.stopped_eq]⟩
  | read n =>
    rcases execRead_cases s n with ⟨-, h⟩ | ⟨-, -, h⟩ | ⟨-, sel, -, h⟩
    · exact ⟨_, _, h, rfl⟩
    · exact ⟨_, _, h, rfl⟩
    · exact ⟨_, _, h, by simp⟩
  | setVolume v => rcases execSetVolume_cases s v with ⟨-, h⟩ | ⟨-, h⟩ <;> exact ⟨_, _, h, rfl⟩
  | setGain g => rcases execSetGain_cases s g with ⟨e, -, h⟩ | ⟨-, -, h⟩ <;> exact ⟨_, _, h, rfl⟩
  | setMaxvol m => rcases execSetMaxvol_cases s m with ⟨-, h⟩ | ⟨-, h⟩ <;> exact ⟨_, _, h, rfl⟩
  | freset c => rcases execFreset_cases s c with ⟨-, h⟩ | ⟨-, h⟩ <;> exact ⟨_, _, h, rfl⟩
  | demux n =>
    rcases execDemux_cases s n with ⟨e, -, h⟩ | ⟨-, -, h⟩
    · exact ⟨_, _, h, rfl⟩
    · exact ⟨_, _, h, State.demuxSlot_events s n⟩
  | decode c k =>
    rcases execDecode_cases s c k with ⟨e, -, h⟩ | ⟨-, -, -, h⟩
    · exact ⟨_, _, h, rfl⟩
    · exact ⟨_, _, h, State.decodeBlock_events s c _ 0⟩

/-- The completion of a running command, legal or not, leaves the sequencer IDLE and the schedule as it was (R146). -/
theorem State.completeCommand_ends {s : State} {cmd : Word} {wk : Work} (hb : s.sequencer = .busy cmd wk) :
    ∃ t, s.completeCommand = .next t ∧ t.sequencer = .idle ∧ t.events = s.events := by
  rcases s.completeCommand_cases with ⟨hidle, -⟩ | ⟨-, -, i, -, -, h⟩ | ⟨-, -, -, -, -, h⟩
  · cases hidle.symm.trans hb
  · obtain ⟨u, e, hu, hev⟩ := exec_finishes i s
    exact ⟨_, h.trans hu, rfl, hev⟩
  · exact ⟨_, h, rfl, rfl⟩

/-! ### The polls of a `wait` (R74; log 15) -/

/-- A read of STATUS responds with the word it holds, also while BUSY (R62; log 7). -/
theorem State.hostRead_status (s : State) :
    s.hostRead .word statusAddr = { s with outputs := .response s.statusWord false :: s.outputs } := by
  rw [State.hostRead, show statusAddr.toNat = 0x008 from rfl, s.readData_status]
  rfl

theorem State.hostPoll_busy {s : State} {cmd : Word} {wk : Work} (hb : s.sequencer = .busy cmd wk) :
    s.hostPoll = { s with
      events := .complete :: .wait :: s.events, outputs := .response s.statusWord false :: s.outputs } := by
  have hbusy : s.busy = true := s.busy_iff.mpr ⟨cmd, wk, hb⟩
  rw [State.hostPoll, if_pos hbusy, State.hostRead_status]

theorem State.hostPoll_idle {s : State} (hi : s.sequencer = .idle) :
    s.hostPoll = { s with outputs := .response s.statusWord false :: s.outputs } := by
  have hbusy : ¬s.busy = true := by simp [s.busy_false_iff.mpr hi]
  rw [State.hostPoll, if_neg hbusy, State.hostRead_status]

theorem step_wait {s : State} {es : List Event} (he : s.events = .wait :: es) :
    step s = .next ({ s with events := es } : State).hostPoll := by
  rw [step, State.advance, State.nextEvent, he]
  rfl

theorem step_wait_busy {s : State} {es : List Event} {cmd : Word} {wk : Work} (he : s.events = .wait :: es)
    (hb : s.sequencer = .busy cmd wk) :
    step s = .next { s with
      events := .complete :: .wait :: es, outputs := .response s.statusWord false :: s.outputs } :=
  (step_wait he).trans (congrArg _ (State.hostPoll_busy hb))

theorem step_wait_idle {s : State} {es : List Event} (he : s.events = .wait :: es) (hi : s.sequencer = .idle) :
    step s = .next { s with events := es, outputs := .response s.statusWord false :: s.outputs } :=
  (step_wait he).trans (congrArg _ (State.hostPoll_idle hi))

/-! ### Runs of the machine -/

/-- A run of `k + 1` steps takes the next one and goes on for `k`. -/
theorem core_run_succ {s t : State} (h : step s = .next t) (k : Nat) : core.run (k + 1) s = core.run k t := by
  have hstep : core.step s = .next t := h
  simp only [Host.Core.run, hstep]

/-- Settles O11: a poll, the completion it puts next, and the poll of the sequencer that leaves IDLE. -/
theorem waitEnds : Obligations.WaitEnds := by
  intro s es he
  refine ⟨fun cmd wk hb => ?_, step_wait_idle he⟩
  have hpoll := step_wait_busy he hb
  refine ⟨hpoll, ?_⟩
  have hcomplete := step_complete (s := { s with
    events := .complete :: .wait :: es, outputs := .response s.statusWord false :: s.outputs }) hb (.inl rfl)
  obtain ⟨v, hv, hidle, hev⟩ := State.completeCommand_ends (s := State.tick { s with
    events := .wait :: es, outputs := .response s.statusWord false :: s.outputs }) hb
  have hlast := step_wait_idle hev hidle
  have hrun := (core_run_succ hpoll 2).trans ((core_run_succ (hcomplete.trans hv) 1).trans (core_run_succ hlast 0))
  exact ⟨_, hrun, hidle, rfl, rfl⟩

end Sys2Proof.Machine
end

section
/-! The filter step on bounded registers: its registers as unbounded arithmetic, and R85's bounds after it. -/

namespace Sys2Proof.Machine

/-! ### Taps (R79, R81, R82) -/

/-- T[s] by lookup table, with the table's entries written out: R81's sum (R82). -/
theorem tapTable_eq_sum (D s : Nat) (win : List Byte) :
    tapTable D s win =
      ((List.range win.length).map fun j =>
        ((List.range 8).map fun b => ((win.getD j 0).getLsbD (7 - b)).toNat * coef D s (8 * j + b)).sum).sum := by
  refine congrArg List.sum (List.ext_getElem (by simp) fun j hj _ => ?_)
  have hj' : j < win.length := by simpa using hj
  simp [lut, bitOf, hj']

theorem tapTable_eq_tapDirect (D s : Nat) (win : List Byte) : tapTable D s win = tapDirect D s win :=
  (tapTable_eq_sum D s win).trans (tapDirect_eq_sum D s win).symm

/-- A tap does not depend on the strategy (R82). -/
theorem tap_eq_tapDirect (strategy : Bool) (D s : Nat) (win : List Byte) :
    tap strategy D s win = tapDirect D s win := by
  cases strategy with
  | false => rfl
  | true => exact tapTable_eq_tapDirect D s win

/-! ### The constants a session's filter runs with (R77, R78, R85) -/

/-- R85's premises on the constants, for decimation factor D. -/
structure FilterConsts.Bounding (k : FilterConsts) (D : Nat) : Prop where
  decim : D = 64 ∨ D = 128
  subConst : k.subConst.toNat = D ^ 3 / 2
  lpAlfa : k.lpAlfa.toNat ≤ 255
  hpAlfa : k.hpAlfa.toNat ≤ 255

/-- The coefficients of both decimation factors sum to D^3 (R76). -/
theorem coefSum_eq_cube {D : Nat} (h : D = 64 ∨ D = 128) : coefSum D = D ^ 3 := by
  have hsum : coefSum 64 = 64 ^ 3 ∧ coefSum 128 = 128 ^ 3 := by decide +kernel
  rcases h with rfl | rfl
  · exact hsum.1
  · exact hsum.2

theorem cube_even_le {D : Nat} (h : D = 64 ∨ D = 128) : D ^ 3 % 2 = 0 ∧ D ^ 3 ≤ 2 ^ 21 := by
  rcases h with rfl | rfl <;> decide

/-- LP_ALFA is at most 255 at every sample rate (R77). -/
theorem lpAlfaOf_le (lp : Nat) {fs : Nat} (h : 0 < fs) : lpAlfaOf lp fs ≤ 255 := by
  have hlt : lpAlfaOf lp fs < 256 := by
    unfold lpAlfaOf
    rw [Nat.div_lt_iff_lt_mul (by omega)]
    calc 256 * lp * 628318 = 256 * (628318 * lp) := by ring
      _ < 256 * (628318 * lp + 100000 * fs) := by omega
      _ = _ := by ring
  omega

/-- HP_ALFA is at most 255 for every cutoff above 0 (R77). -/
theorem hpAlfaOf_le {hp : Nat} (h : 0 < hp) (fs : Nat) : hpAlfaOf hp fs ≤ 255 := by
  have hlt : hpAlfaOf hp fs < 256 := by
    unfold hpAlfaOf
    rw [Nat.div_lt_iff_lt_mul (by omega)]
    omega
  omega

/-- The constants INIT computes at a rate above 0 are such (R77, R78). -/
theorem initConsts_bounding {a : Configuration} (h : 0 < a.rateHz) : (initConsts a).Bounding a.decim := by
  have hD : a.decim = 64 ∨ a.decim = 128 := (decim_cases a).imp And.left And.left
  refine ⟨hD, ?_, ?_, ?_⟩
  · rw [initConsts, BitVec.toNat_ofNat, Nat.mod_eq_of_lt (subConstOf_decim_lt a), subConstOf, coefSum_eq_cube hD]
  · have := lpAlfaOf_le (a.rateHz / 2) h
    rw [initConsts, BitVec.toNat_ofNat]
    omega
  · have := hpAlfaOf_le (hp := Config.hpHzDefault) (by decide) a.rateHz
    rw [initConsts, BitVec.toNat_ofNat]
    omega

theorem State.Inv.consts_bounding {s : State} (h : s.Inv) (hi : s.status.inited = true) :
    s.consts.Bounding s.active.decim := by
  obtain ⟨-, hspm, -⟩ := (initCheck_eq_none _).mp (h.legal hi)
  have hrate : 0 < s.active.rateHz := Nat.pos_of_ne_zero fun h0 => by
    rw [Configuration.spm, h0] at hspm
    omega
  have hk := h.consts hi
  obtain ⟨hD, sub, lp, hp⟩ := initConsts_bounding hrate
  exact ⟨hD, by rw [hk.subConst]; exact sub, by rw [hk.lpAlfa]; exact lp, by rw [hk.hpAlfa]; exact hp⟩

/-! ### One filter step (R83) -/

/-- A product of bounded factors is bounded. -/
theorem natAbs_mul_le {x y : Int} {m n : Nat} (hx : x.natAbs ≤ m) (hy : y.natAbs ≤ n) : (x * y).natAbs ≤ m * n := by
  rw [Int.natAbs_mul]
  exact Nat.mul_le_mul hx hy

theorem filterStep_oldOut (k : FilterConsts) (strategy : Bool) (D : Nat) (f : FilterState) (win : List Byte) :
    (filterStep k strategy D f win).1.oldOut = reg64 (stepOldOut k f (stepZ k f (tapDirect D 2 win))) := by
  simp only [filterStep, tap_eq_tapDirect]

theorem filterStep_oldZ (k : FilterConsts) (strategy : Bool) (D : Nat) (f : FilterState) (win : List Byte) :
    (filterStep k strategy D f win).1.oldZ =
      reg64 (stepOldZ k f (stepOldOut k f (stepZ k f (tapDirect D 2 win)))) := by
  simp only [filterStep, tap_eq_tapDirect]

theorem filterStep_sample (k : FilterConsts) (strategy : Bool) (D : Nat) (f : FilterState) (win : List Byte) :
    (filterStep k strategy D f win).2 =
      stepSample k (stepOldZ k f (stepOldOut k f (stepZ k f (tapDirect D 2 win)))) := by
  simp only [filterStep, tap_eq_tapDirect]

section
variable {D : Nat} {k : FilterConsts} {f : FilterState}

theorem stepZ_exact (hk : k.Bounding D) (hf : f.Bounded D) {t2 : Nat} (ht : t2 ≤ rowSum D 2) :
    stepZ k f t2 = f.coef1.toInt + t2 - k.subConst.toNat ∧ 2 * (stepZ k f t2).natAbs ≤ D ^ 3 := by
  obtain ⟨hD, hsub, -, -⟩ := hk
  obtain ⟨heven, hle⟩ := cube_even_le hD
  have hsum : rowSum D 0 + rowSum D 1 + rowSum D 2 = D ^ 3 := coefSum_eq_cube hD
  obtain ⟨h0, h1⟩ := hf.coef1
  have hz : stepZ k f t2 = f.coef1.toInt + t2 - k.subConst.toNat :=
    wrap64_of_bounds (by omega) (by omega)
  exact ⟨hz, by omega⟩

theorem stepOldOut_exact (hk : k.Bounding D) (hf : f.Bounded D) {z : Int} (hz : 2 * z.natAbs ≤ D ^ 3) :
    stepOldOut k f z = k.hpAlfa.toNat * (f.oldOut.toInt + z - f.oldIn.toInt) / 256 ∧
    (stepOldOut k f z).natAbs ≤ 255 * D ^ 3 + 256 := by
  obtain ⟨hD, -, -, hhp⟩ := hk
  obtain ⟨-, hle⟩ := cube_even_le hD
  have hin := hf.oldIn
  have hout := hf.oldOut
  have hinner : (f.oldOut.toInt + z - f.oldIn.toInt).natAbs ≤ 256 * D ^ 3 + 256 := by omega
  have hprod := natAbs_mul_le (x := k.hpAlfa.toNat) (m := 255) (by omega) hinner
  have hstep : stepOldOut k f z = k.hpAlfa.toNat * (f.oldOut.toInt + z - f.oldIn.toInt) / 256 := by
    unfold stepOldOut
    rw [wrap64_of_bounds (v := f.oldOut.toInt + z - f.oldIn.toInt) (by omega) (by omega),
      wrap64_of_bounds (by omega) (by omega), asr_eight]
  exact ⟨hstep, by omega⟩

theorem stepOldZ_exact (hk : k.Bounding D) (hf : f.Bounded D) {x : Int} (hx : x.natAbs ≤ 255 * D ^ 3 + 256) :
    stepOldZ k f x = ((256 - (k.lpAlfa.toNat : Int)) * f.oldZ.toInt + k.lpAlfa.toNat * x) / 256 ∧
    (stepOldZ k f x).natAbs < 2 ^ 29 + 256 := by
  obtain ⟨hD, -, hlp, -⟩ := hk
  obtain ⟨-, hle⟩ := cube_even_le hD
  have hz := hf.oldZ
  have hold := natAbs_mul_le (x := 256 - (k.lpAlfa.toNat : Int)) (m := 256 - k.lpAlfa.toNat) (by omega)
    (show f.oldZ.toInt.natAbs ≤ 2 ^ 29 + 255 by omega)
  have hnew := natAbs_mul_le (x := k.lpAlfa.toNat) (m := k.lpAlfa.toNat) (by omega)
    (show x.natAbs ≤ 2 ^ 29 + 255 by omega)
  have hstep : stepOldZ k f x =
      ((256 - (k.lpAlfa.toNat : Int)) * f.oldZ.toInt + k.lpAlfa.toNat * x) / 256 := by
    unfold stepOldZ
    rw [wrap64_of_bounds (by omega) (by omega), asr_eight]
  exact ⟨hstep, by omega⟩

theorem stepSample_exact (k : FilterConsts) {x : Int} (hx : x.natAbs < 2 ^ 29 + 256) :
    (stepSample k x).toInt = max (-32700) (min 32700 (rounddiv (x * k.volume.toNat) k.divConst.toNat)) := by
  have hv := k.volume.isLt
  have hprod := natAbs_mul_le (show x.natAbs ≤ 2 ^ 30 by omega) (show (k.volume.toNat : Int).natAbs ≤ 2 ^ 16 by omega)
  unfold stepSample
  rw [saturate_toInt, clamp_eq _ _ _ (by decide), wrap64_of_bounds (by omega) (by omega)]

/-- A tap of a window of D bits, below the sum of all coefficients (R76, R81). -/
theorem tapDirect_le_cube (hD : D = 64 ∨ D = 128) {s : Nat} (hs : s < 3) {win : List Byte}
    (hw : win.length = D / 8) : tapDirect D s win ≤ D ^ 3 := by
  have hle := tapDirect_le D s win (by omega)
  have hsum : rowSum D 0 + rowSum D 1 + rowSum D 2 = D ^ 3 := coefSum_eq_cube hD
  interval_cases s <;> omega

/-- The Coef pipeline and Z of a step, in unbounded integers, from Coef registers that taps have left (R83). -/
theorem filterStep_pipeline {strategy : Bool} (hD : D = 64 ∨ D = 128) {win : List Byte} (hw : win.length = D / 8)
    (h0 : f.coef0.toInt.natAbs ≤ 2 ^ 21) (h1 : f.coef1.toInt.natAbs ≤ 2 ^ 22) :
    let out := (filterStep k strategy D f win).1
    out.coef0.toInt = tapDirect D 0 win ∧ out.coef1.toInt = f.coef0.toInt + tapDirect D 1 win ∧
    out.oldIn.toInt = f.coef1.toInt + tapDirect D 2 win - k.subConst.toNat := by
  obtain ⟨-, hle⟩ := cube_even_le hD
  have t0 := tapDirect_le_cube hD (show 0 < 3 by decide) hw
  have t1 := tapDirect_le_cube hD (show 1 < 3 by decide) hw
  have t2 := tapDirect_le_cube hD (show 2 < 3 by decide) hw
  have hsub := k.subConst.isLt
  simp only [filterStep, stepZ, tap_eq_tapDirect]
  rw [wrap64_of_bounds (by omega) (by omega), wrap64_of_bounds (by omega) (by omega)]
  exact ⟨reg64_toInt (by omega) (by omega), reg64_toInt (by omega) (by omega), reg64_toInt (by omega) (by omega)⟩

/-- After a step on bounded registers they hold the step's values unchanged, within the bounds (R84 (a), R85). -/
theorem filterStep_registers (hk : k.Bounding D) (hf : f.Bounded D) (strategy : Bool) {win : List Byte}
    (hw : win.length = D / 8) :
    let z := stepZ k f (tapDirect D 2 win)
    let out := (filterStep k strategy D f win).1
    out.coef0.toInt = tapDirect D 0 win ∧ out.coef1.toInt = f.coef0.toInt + tapDirect D 1 win ∧
    out.oldIn.toInt = z ∧ out.oldOut.toInt = stepOldOut k f z ∧ out.oldZ.toInt = stepOldZ k f (stepOldOut k f z) ∧
    out.Bounded D := by
  intro z out
  have hbits : 8 * win.length = D := by rcases hk.decim with rfl | rfl <;> omega
  have ht (s : Nat) : tapDirect D s win ≤ rowSum D s := tapDirect_le D s win hbits
  have ht0 := ht 0
  have ht1 := ht 1
  obtain ⟨-, hle⟩ := cube_even_le hk.decim
  have hsum : rowSum D 0 + rowSum D 1 + rowSum D 2 = D ^ 3 := coefSum_eq_cube hk.decim
  obtain ⟨b0, b0'⟩ := hf.coef0
  obtain ⟨b1, b1'⟩ := hf.coef1
  obtain ⟨ez, bz⟩ : z = _ ∧ 2 * z.natAbs ≤ D ^ 3 := stepZ_exact hk hf (ht 2)
  obtain ⟨-, bo⟩ := stepOldOut_exact hk hf bz
  obtain ⟨-, bl⟩ := stepOldZ_exact hk hf bo
  obtain ⟨coef0, coef1, oldIn⟩ : out.coef0.toInt = _ ∧ out.coef1.toInt = _ ∧ out.oldIn.toInt = _ :=
    filterStep_pipeline hk.decim hw (by omega) (by omega)
  rw [← ez] at oldIn
  have oldOut : out.oldOut.toInt = stepOldOut k f z := by
    rw [show out.oldOut = reg64 (stepOldOut k f z) from filterStep_oldOut ..]
    exact reg64_toInt (by omega) (by omega)
  have oldZ : out.oldZ.toInt = stepOldZ k f (stepOldOut k f z) := by
    rw [show out.oldZ = reg64 (stepOldZ k f (stepOldOut k f z)) from filterStep_oldZ ..]
    exact reg64_toInt (by omega) (by omega)
  exact ⟨coef0, coef1, oldIn, oldOut, oldZ, by omega, by omega, by omega, by omega, by omega⟩

theorem filterStep_bounded (hk : k.Bounding D) (hf : f.Bounded D) (strategy : Bool) {win : List Byte}
    (hw : win.length = D / 8) : (filterStep k strategy D f win).1.Bounded D := by
  obtain ⟨-, -, -, -, -, h⟩ := filterStep_registers hk hf strategy hw
  exact h

/-- A run of windows keeps the bounds (R85, R87). -/
theorem filterRun_bounded (hk : k.Bounding D) (hf : f.Bounded D) (strategy : Bool) {wins : List (List Byte)}
    (hw : ∀ win ∈ wins, win.length = D / 8) : (filterRun k strategy D f wins).1.Bounded D :=
  filterRun_induct (fun g => g.Bounded D) (fun _ win hwin hg => filterStep_bounded hk hg strategy (hw win hwin)) hf

end

/-- Settles O28: each line of R83 on bounded registers is the same line in unbounded integers. -/
theorem filterStepExact : Obligations.FilterStepExact := by
  intro D k strategy f win hD hw hf hsub hlp hhp t z oldOut oldZ out
  have hk : k.Bounding D := ⟨hD, hsub, hlp, hhp⟩
  have ht (s : Nat) : t s = tapDirect D s win := by
    rw [tapDirect_eq_sum, hw]
  have hbits : 8 * win.length = D := by rcases hD with rfl | rfl <;> omega
  obtain ⟨ez, bz⟩ := stepZ_exact hk hf (tapDirect_le D 2 win hbits)
  obtain ⟨eo, bo⟩ := stepOldOut_exact hk hf bz
  obtain ⟨el, bl⟩ := stepOldZ_exact hk hf bo
  have hz : stepZ k f (tapDirect D 2 win) = z := by rw [ez, ← ht]
  rw [hz] at eo el bl
  rw [eo] at el bl
  obtain ⟨coef0, coef1, oldIn, hOut, hZ, bounded⟩ := filterStep_registers hk hf strategy hw
  rw [hz] at oldIn hOut hZ
  rw [eo] at hOut hZ
  rw [el] at hZ
  refine ⟨by rw [ht]; exact coef0, by rw [ht]; exact coef1, oldIn, hOut, hZ, ?_, bounded⟩
  have hs : out.2 = stepSample k (stepOldZ k f oldOut) := by
    rw [filterStep_sample, hz, eo]
  rw [hs, stepSample_exact k bl, el]

end Sys2Proof.Machine
end

section
/-! The bounds on the filter state file (R85): what every command and every event keeps. -/

namespace Sys2Proof.Machine

/-! ### The filter state file -/

/-- The bounds on every channel, through F's accessor; a channel that is not there reads as zero. -/
theorem State.filtersBounded_iff (s : State) :
    s.FiltersBounded ↔ ∀ c, (s.filterAt c).Bounded s.active.decim := by
  refine ⟨fun h c => ?_, fun h c => by rw [← s.filterAt_fin]; exact h c⟩
  by_cases hc : c < 4
  · rw [s.filterAt_fin ⟨c, hc⟩]
    exact h ⟨c, hc⟩
  · rw [State.filterAt, Vector.getElem?_eq_none (by omega)]
    exact FilterState.zero_bounded _

/-- F and D are all the bounds look at. -/
theorem State.FiltersBounded.congr {s t : State} (h : s.FiltersBounded) (hf : t.filter = s.filter)
    (ha : t.active = s.active) : t.FiltersBounded := by
  unfold State.FiltersBounded at h ⊢
  rw [hf, ha]
  exact h

/-- One channel's registers replaced by bounded ones. -/
theorem State.FiltersBounded.setFilter {s : State} (h : s.FiltersBounded) (c : Nat) {f : FilterState}
    (hf : f.Bounded s.active.decim) : (s.setFilter c f).FiltersBounded := by
  intro c'
  simp only [State.setFilter, Fin.getElem_fin, Vector.getElem_setIfInBounds]
  split
  · exact hf
  · exact h c'

/-- INIT and reset zero every channel (R113, R135). -/
theorem State.filtersBounded_of_zero {s : State} (h : s.filter = Vector.replicate 4 .zero) : s.FiltersBounded := by
  intro c
  simp only [h, Fin.getElem_fin, Vector.getElem_replicate]
  exact FilterState.zero_bounded _

/-! ### Commands (R88, R89, R106, R113) -/

/-- A window of the stream has DB bytes (R80). -/
@[simp] theorem State.window_length (s : State) (c src i : Nat) :
    (s.window c src i).length = s.active.windowBytes := by simp [State.window]

/-- A block runs its channel's filter over windows of DB bytes (R87). -/
theorem State.FiltersBounded.decodeBlock {s : State} (h : s.FiltersBounded)
    (hk : s.consts.Bounding s.active.decim) (c src dst : Nat) : (s.decodeBlock c src dst).FiltersBounded :=
  (h.setFilter c (filterRun_bounded hk (s.filtersBounded_iff.mp h c) _ fun _ => State.mem_blockWindows)).congr
    (s.decodeBlock_filter c src dst) (s.decodeBlock_active c src dst)

/-- The filtering of a READ runs every channel's filter over windows of DB bytes (R106). -/
theorem State.FiltersBounded.decodeAll {s : State} (h : s.FiltersBounded) (hk : s.consts.Bounding s.active.decim)
    (hl : initCheck s.active = none) (nreq : Nat) : (s.decodeAll (readCount s.active nreq)).FiltersBounded := by
  have hch := ((initCheck_eq_none _).mp hl).1
  obtain ⟨-, hin, hout, -⟩ :=
    State.decodeChannels_spec _ s (readCount_blocks hl nreq).1 s.active.channels (by omega)
  have hs := s.filtersBounded_iff.mp h
  rw [State.filtersBounded_iff, State.decodeAll_active]
  intro c
  rcases Nat.lt_or_ge c s.active.channels with hc | hc
  · rw [State.decodeAll, (hin c hc).1]
    refine filterRun_bounded hk (hs c) _ fun win hwin => ?_
    obtain ⟨i, -, rfl⟩ := List.mem_map.mp hwin
    exact s.window_length c 0 i
  · rw [State.decodeAll, hout c hc]
    exact hs c

/-- READ, in each of its three outcomes (R106). -/
theorem State.FiltersBounded.execRead {s t : State} (h : s.FiltersBounded) (hinv : s.Inv) {nreq : Nat}
    (ht : exec (.read nreq) s = .next t) : t.FiltersBounded := by
  rcases execRead_cases s nreq with ⟨-, e⟩ | ⟨-, -, e⟩ | ⟨hi, sel, -, e⟩ <;> cases e.symm.trans ht
  · exact h.congr rfl rfl
  · exact h.congr rfl rfl
  · have hd : (s.demuxSlot sel.slot.toNat).FiltersBounded := h.congr (by simp) (by simp)
    have hf := hd.decodeAll (by simpa using hinv.consts_bounding hi) (by simpa using hinv.legal hi) nreq
    rw [State.demuxSlot_active] at hf
    exact hf.congr rfl rfl

/-- Every command keeps the bounds: only INIT, FRESET, DECODE and READ write F, and only INIT changes D. -/
theorem State.FiltersBounded.exec {s t : State} (h : s.FiltersBounded) (hinv : s.Inv) {i : Instr}
    (ht : exec i s = .next t) : t.FiltersBounded := by
  cases i with
  | nop => cases ht; exact h.congr rfl rfl
  | init =>
    rcases execInit_cases s with ⟨-, e⟩ | ⟨-, _, -, e⟩ | ⟨-, -, e⟩ <;> cases e.symm.trans ht
    · exact h.congr rfl rfl
    · exact h.congr rfl rfl
    · exact State.filtersBounded_of_zero rfl
  | start =>
    rcases execStart_cases s with ⟨-, _, -, e⟩ | ⟨-, -, -, e⟩ <;> cases e.symm.trans ht
    · exact h.congr rfl rfl
    · rw [State.started_eq]; exact h.congr rfl rfl
  | stop =>
    rcases execStop_cases s with ⟨-, e⟩ | ⟨-, e⟩ <;> cases e.symm.trans ht
    · exact h.congr rfl rfl
    · rw [State.stopped_eq]; exact h.congr rfl rfl
  | read n => exact h.execRead hinv ht
  | setVolume v =>
    rcases execSetVolume_cases s v with ⟨-, e⟩ | ⟨-, e⟩ <;> cases e.symm.trans ht <;> exact h.congr rfl rfl
  | setGain g =>
    rcases execSetGain_cases s g with ⟨_, -, e⟩ | ⟨-, -, e⟩ <;> cases e.symm.trans ht <;> exact h.congr rfl rfl
  | setMaxvol m =>
    rcases execSetMaxvol_cases s m with ⟨-, e⟩ | ⟨-, e⟩ <;> cases e.symm.trans ht <;> exact h.congr rfl rfl
  | freset c =>
    rcases execFreset_cases s c with ⟨-, e⟩ | ⟨-, e⟩ <;> cases e.symm.trans ht
    · exact h.congr rfl rfl
    · exact (h.setFilter c (FilterState.zero_bounded _)).congr rfl rfl
  | demux n =>
    rcases execDemux_cases s n with ⟨_, -, e⟩ | ⟨-, -, e⟩ <;> cases e.symm.trans ht
    · exact h.congr rfl rfl
    · exact h.congr (s.demuxSlot_filter n) (s.demuxSlot_active n)
  | decode c k =>
    rcases execDecode_cases s c k with ⟨_, -, e⟩ | ⟨hi, -, -, e⟩ <;> cases e.symm.trans ht
    · exact h.congr rfl rfl
    · exact (h.decodeBlock (hinv.consts_bounding hi) c _ 0).congr rfl rfl

/-! ### Steps -/

/-- The sequencer's completion step (R109). -/
theorem State.FiltersBounded.completeCommand {s t : State} (h : s.FiltersBounded) (hinv : s.Inv)
    (ht : s.completeCommand = .next t) : t.FiltersBounded := by
  rcases s.completeCommand_cases with ⟨-, e⟩ | ⟨-, -, i, -, -, e⟩ | ⟨-, -, -, -, -, e⟩
  · cases e.symm.trans ht; exact h
  · exact h.exec hinv (e.symm.trans ht)
  · cases e.symm.trans ht; exact h.congr rfl rfl

/-- A completion runs a command, reset zeroes F, and every other event leaves F and A as they are. -/
theorem State.FiltersBounded.takeEvent {s t : State} (h : s.FiltersBounded) (hinv : s.Inv) {e : Event}
    (ht : takeEvent e s = .next t) : t.FiltersBounded := by
  by_cases hc : e = .complete
  · subst hc
    exact State.FiltersBounded.completeCommand (s := s.tick) (h.congr rfl rfl) (hinv.of_environment rfl) ht
  by_cases hr : e = .reset
  · subst hr
    cases ht
    exact State.filtersBounded_of_zero rfl
  obtain ⟨u, hu, hut⟩ := OrdinaryEffect.of_takeEvent (fun he => absurd he hc) hr ht
  obtain ⟨hf, -, -, ha, -⟩ := hu.commandParts
  rw [show t = _ from hut]
  exact h.congr hf ha

/-- Settles O59: a step rests, or takes one agent's event from a state that differs in its schedule only. -/
theorem stepKeepsFiltersBounded : Obligations.StepKeepsFiltersBounded := by
  intro s t hinv h ht
  rcases step_cases s with ⟨-, e⟩ | ⟨ev, es, -, e⟩
  · cases e.symm.trans ht; exact h
  · exact State.FiltersBounded.takeEvent (s := { s with events := es }) (h.congr rfl rfl)
      (hinv.of_environment rfl) (e.symm.trans ht)

end Sys2Proof.Machine
end

section
/-! The arithmetic of one sample and of one run: rounding, saturation, the high-pass's residual, and the three windows
that Z combines (R84, R86, R90). -/

namespace Sys2Proof.Machine

/-! ### Rounding (R84 (c), R90 (b)) -/

theorem rounddiv_zero {d : Int} (hd : 0 ≤ d) : rounddiv 0 d = 0 := by
  rcases hd.eq_or_lt with rfl | hd
  · rfl
  · rw [rounddiv_of_nonpos (le_refl 0) hd, Int.ediv_eq_zero_of_lt (by omega) (by omega), Int.neg_zero]

theorem rounddiv_of_nonneg {a d : Int} (ha : 0 ≤ a) (hd : 0 < d) : rounddiv a d = (a + d / 2) / d := by
  rcases ha.eq_or_lt with rfl | ha
  · rw [rounddiv_zero hd.le, Int.ediv_eq_zero_of_lt (by omega) (by omega)]
  · exact rounddiv_of_pos ha hd

theorem rounddiv_neg (a : Int) {d : Int} (hd : 0 < d) : rounddiv (-a) d = -rounddiv a d := by
  rcases le_total 0 a with ha | ha
  · rw [rounddiv_of_nonpos (by omega) hd, rounddiv_of_nonneg ha hd, Int.neg_neg]
  · rw [rounddiv_of_nonneg (by omega) hd, rounddiv_of_nonpos ha hd, Int.neg_neg]

/-- The numerator of the floor is the quotient's multiple and a remainder below d: half of d bounds the error, and an
error of exactly half can only be above. -/
theorem rounddiv_nearest_of_nonneg {a d : Int} (ha : 0 ≤ a) (hd : 0 < d) :
    2 * (rounddiv a d * d - a).natAbs ≤ d ∧ (2 * (rounddiv a d * d - a).natAbs = d → a ≤ rounddiv a d * d) := by
  have hdiv : (a + d / 2) / d * d + (a + d / 2) % d = a + d / 2 := Int.ediv_mul_add_emod _ _
  have hlo := Int.emod_nonneg (a + d / 2) hd.ne'
  have hhi := Int.emod_lt_of_pos (a + d / 2) hd
  rw [rounddiv_of_nonneg ha hd]
  generalize (a + d / 2) / d * d = multiple at hdiv ⊢
  omega

theorem rounddiv_nearest (a : Int) {d : Int} (hd : 0 < d) :
    2 * (rounddiv a d * d - a).natAbs ≤ d ∧
    (2 * (rounddiv a d * d - a).natAbs = d → a.natAbs ≤ (rounddiv a d * d).natAbs) := by
  rcases le_total 0 a with ha | ha
  · have h := rounddiv_nearest_of_nonneg ha hd
    omega
  · have h := rounddiv_nearest_of_nonneg (a := -a) (by omega) hd
    rw [rounddiv_neg a hd, Int.neg_mul] at h
    omega

/-- Settles O30, from the nonnegative operands by oddness. -/
theorem rounddivNearest : Obligations.RounddivNearest := fun a _ hd =>
  ⟨(rounddiv_nearest a hd).1, (rounddiv_nearest a hd).2, rounddiv_neg a hd⟩

/-- Settles O31: the two quotients' errors are at most d/2 and 2·d/2, so the quotients differ by less than 2. -/
theorem volumeDoubling : Obligations.VolumeDoubling := by
  intro oldZ volume d hd
  rw [show oldZ * (2 * volume) = 2 * (oldZ * volume) by ring]
  generalize oldZ * volume = v
  obtain ⟨hsingle, -⟩ := rounddiv_nearest v hd
  obtain ⟨hdouble, -⟩ := rounddiv_nearest (2 * v) hd
  generalize rounddiv v d = q at hsingle ⊢
  generalize rounddiv (2 * v) d = q' at hdouble ⊢
  by_contra hgap
  have hapart : 2 * d.natAbs ≤ ((q' - 2 * q) * d).natAbs := by
    rw [Int.natAbs_mul]
    exact Nat.mul_le_mul_right _ (by omega)
  rw [Int.sub_mul, Int.mul_assoc] at hapart
  omega

/-! ### Saturation (R84 (d), R86) -/

theorem stepSample_bounds (k : FilterConsts) (x : Int) :
    -32700 ≤ (stepSample k x).toInt ∧ (stepSample k x).toInt ≤ 32700 := by
  rw [stepSample, saturate_toInt]
  exact clamp_bounds _ (by decide)

theorem stepSample_of_volume_zero {k : FilterConsts} (h : k.volume = 0) (x : Int) : stepSample k x = 0 := by
  have hproduct : wrap64 (x * k.volume.toNat) = 0 := by
    rw [h, show ((0 : BitVec 16).toNat : Int) = 0 from rfl, Int.mul_zero]
    rfl
  rw [stepSample, hproduct, rounddiv_zero (Int.natCast_nonneg _)]
  rfl

/-- Every sample of a run is a step's: R83's last three lines, of some OldZ. -/
theorem filterRun_samples {k : FilterConsts} {strategy : Bool} {D : Nat} {f : FilterState} {wins : List (List Byte)}
    {v : Sample} (h : v ∈ (filterRun k strategy D f wins).2) : ∃ x, v = stepSample k x := by
  induction wins generalizing f with
  | nil => cases h
  | cons win wins ih =>
    rw [filterRun_cons] at h
    rcases List.mem_cons.mp h with rfl | h
    · exact ⟨_, rfl⟩
    · exact ih h

/-- Settles O32: every sample of a run is a step's. -/
theorem samplesSaturate : Obligations.SamplesSaturate := by
  intro k strategy D f wins out
  refine ⟨filterRun_length .., fun v hv => ?_, fun hvol v hv => ?_⟩
  · obtain ⟨x, rfl⟩ := filterRun_samples hv
    exact stepSample_bounds k x
  · obtain ⟨x, rfl⟩ := filterRun_samples hv
    exact stepSample_of_volume_zero hvol x

/-! ### The residual of the high-pass (R90 (c)) -/

/-- R90's floor(a·(−k)/256) = −k, for k·(256 − a) < 256: the product is −256·k and less than 256 above it. -/
theorem mul_neg_ediv_eq {a j : Nat} (ha : a ≤ 256) (h : j * (256 - a) < 256) : (a : Int) * -j / 256 = -j := by
  obtain ⟨c, hc⟩ := Nat.exists_eq_add_of_le ha
  have hsplit : (a : Int) * -j = -(256 * j) + (j * c : Nat) := by
    rw [show (256 : Int) = a + c by exact_mod_cast hc]
    push_cast
    ring
  rw [show 256 - a = c by omega] at h
  omega

/-- Settles O33: with Z constant the difference term vanishes, and the floor shift gives back −k. -/
theorem highPassResidual : Obligations.HighPassResidual := by
  intro k f j ha h hj hout
  have hprod := natAbs_mul_le (x := k.hpAlfa.toNat) (y := -(j : Int)) (m := 256) (n := 255) (by omega) (by omega)
  unfold stepOldOut
  rw [Int.add_sub_cancel, hout, wrap64_of_bounds (v := -(j : Int)) (by omega) (by omega),
    wrap64_of_bounds (by omega) (by omega), asr_eight]
  exact mul_neg_ediv_eq ha h

/-! ### The three windows of Z (R86, R87) -/

/-- T_s(m − back) of the windows fed since F was zeroed, and 0 before the first of them (R86). -/
def tapAgo (D : Nat) (wins : List (List Byte)) (m s back : Nat) : Int :=
  if back ≤ m then tapDirect D s (wins.getD (m - back) []) else 0

theorem tapAgo_zero (D : Nat) {wins : List (List Byte)} {m : Nat} (h : m < wins.length) (s : Nat) :
    tapAgo D wins m s 0 = tapDirect D s wins[m] := by
  simp [tapAgo, h]

theorem tapAgo_succ_succ (D : Nat) (wins : List (List Byte)) (m s back : Nat) :
    tapAgo D wins (m + 1) s (back + 1) = tapAgo D wins m s back := by
  simp [tapAgo]

/-- The state after window m is one step from the state before it (R87). -/
theorem filterRun_take_succ {k : FilterConsts} {strategy : Bool} {D : Nat} {f : FilterState} {wins : List (List Byte)}
    {m : Nat} (h : m < wins.length) :
    (filterRun k strategy D f (wins.take (m + 1))).1 =
      (filterStep k strategy D (filterRun k strategy D f (wins.take m)).1 wins[m]).1 := by
  rw [← List.take_append_getElem h, filterRun_append, filterRun_cons, filterRun_nil]

section
variable {D : Nat} {k : FilterConsts} {strategy : Bool} {wins : List (List Byte)} (hD : D = 64 ∨ D = 128)
  (hw : ∀ win ∈ wins, win.length = D / 8)
include hD hw

/-- What a tap of an earlier window can be. -/
theorem tapAgo_bounds {m s back : Nat} (hs : s < 3) (hm : m < wins.length + back) :
    0 ≤ tapAgo D wins m s back ∧ tapAgo D wins m s back ≤ 2 ^ 21 := by
  unfold tapAgo
  split
  · have hlt : m - back < wins.length := by omega
    have htap := tapDirect_le_cube hD hs (hw _ (List.getElem_mem hlt))
    obtain ⟨-, hcube⟩ := cube_even_le hD
    rw [List.getD_eq_getElem _ _ hlt]
    omega
  · omega

/-- Step m, from the Coef pipeline that the two windows before it leave (R83, R86). -/
theorem filterStep_of_pipeline {f : FilterState} {m : Nat} (hm : m < wins.length)
    (h0 : f.coef0.toInt = tapAgo D wins m 0 1)
    (h1 : f.coef1.toInt = tapAgo D wins m 0 2 + tapAgo D wins m 1 1) :
    let out := (filterStep k strategy D f wins[m]).1
    out.coef0.toInt = tapAgo D wins m 0 0 ∧ out.coef1.toInt = tapAgo D wins m 0 1 + tapAgo D wins m 1 0 ∧
    out.oldIn.toInt = tapAgo D wins m 0 2 + tapAgo D wins m 1 1 + tapAgo D wins m 2 0 - k.subConst.toNat := by
  have b0 := tapAgo_bounds hD hw (m := m) (s := 0) (back := 1) (by decide) (by omega)
  have b1 := tapAgo_bounds hD hw (m := m) (s := 0) (back := 2) (by decide) (by omega)
  have b2 := tapAgo_bounds hD hw (m := m) (s := 1) (back := 1) (by decide) (by omega)
  rw [tapAgo_zero D hm, tapAgo_zero D hm, tapAgo_zero D hm, ← h0, ← h1]
  exact filterStep_pipeline hD (hw _ (List.getElem_mem hm)) (by omega) (by omega)

/-- The Coef pipeline before step m: T_0 and T_1 of the window before, and T_0 of the one before that. -/
theorem filterRun_pipeline {m : Nat} (hm : m ≤ wins.length) :
    let f := (filterRun k strategy D .zero (wins.take m)).1
    f.coef0.toInt = tapAgo D wins m 0 1 ∧ f.coef1.toInt = tapAgo D wins m 0 2 + tapAgo D wins m 1 1 := by
  induction m with
  | zero => exact ⟨rfl, rfl⟩
  | succ m ih =>
    obtain ⟨h0, h1⟩ := ih (by omega)
    obtain ⟨c0, c1, -⟩ :=
      filterStep_of_pipeline (k := k) (strategy := strategy) hD hw (show m < wins.length by omega) h0 h1
    rw [filterRun_take_succ hm, tapAgo_succ_succ, tapAgo_succ_succ, tapAgo_succ_succ]
    exact ⟨c0, c1⟩

/-- Z of step m, which OldIn then holds. -/
theorem filterRun_oldIn {m : Nat} (hm : m < wins.length) :
    (filterRun k strategy D .zero (wins.take (m + 1))).1.oldIn.toInt =
      tapAgo D wins m 0 2 + tapAgo D wins m 1 1 + tapAgo D wins m 2 0 - k.subConst.toNat := by
  obtain ⟨h0, h1⟩ := filterRun_pipeline (k := k) (strategy := strategy) hD hw hm.le
  obtain ⟨-, -, hz⟩ := filterStep_of_pipeline (k := k) (strategy := strategy) hD hw hm h0 h1
  rw [filterRun_take_succ hm, hz]

end

/-- Settles O29: Z of step m reads the Coef pipeline that the two windows before left. -/
theorem threeWindows : Obligations.ThreeWindows := by
  intro D k strategy wins m hD hw hm t
  exact ⟨filterRun_oldIn hD hw hm, fun f win => ⟨rfl, rfl⟩⟩

end Sys2Proof.Machine
end

section
/-! The commands of the filter: DECODE, FRESET and the operands that are not there (R88, R89, R97), and CTRL.STRATEGY,
which changes none of any command's effects (R82). -/

namespace Sys2Proof.Machine

/-! ### DECODE, DEMUX and FRESET (R88, R89, R97) -/

theorem decodeOperandsOk_iff (a : Configuration) (c k : Nat) :
    decodeOperandsOk a c k = true ↔ c < a.channels ∧ (k + 1) * a.spm ≤ a.samples := by
  simp [decodeOperandsOk]

theorem execDecode_ok {s : State} {c k : Nat} (hi : s.status.inited = true)
    (hok : decodeOperandsOk s.active c k = true) :
    exec (.decode c k) s = .next ((s.decodeBlock c (k * s.active.spm * s.active.windowBytes) 0).finish .ok) := by
  show execDecode c k s = _
  simp [execDecode, hi, hok, State.done]

theorem execDecode_badOperand {s : State} {c k : Nat} (hi : s.status.inited = true)
    (hbad : decodeOperandsOk s.active c k = false) : exec (.decode c k) s = .next (s.finish .arg) := by
  show execDecode c k s = _
  simp [execDecode, hi, hbad, State.fail]

theorem execDemux_badOperand {s : State} {slot : Nat} (hi : s.status.inited = true)
    (hbad : demuxOperandOk s.active slot = false) : exec (.demux slot) s = .next (s.finish .arg) := by
  show execDemux slot s = _
  simp [execDemux, hi, hbad, State.fail]

/-- Settles O35: the block's outcome is R87's run, and PCM holds its samples. -/
theorem decodeResult : Obligations.DecodeResult := by
  intro s c k hi _ hc hk a wins out
  have hout : s.blockOut c (k * s.active.spm * s.active.windowBytes) = out := rfl
  refine ⟨_, execDecode_ok hi ((decodeOperandsOk_iff _ _ _).mpr ⟨hc, hk⟩), rfl, fun i hilt => ?_, fun o ho => ?_⟩
  · have hsample := s.decodeBlock_pcmSample c (k * s.active.spm * s.active.windowBytes) 0 i hilt
    rw [Nat.zero_add] at hsample
    rw [← hout, List.getElem?_eq_getElem (by rw [State.blockOut_length]; exact hilt), ← hsample]
    rfl
  · rw [State.finish_memByte]
    exact s.decodeBlock_pcm_outside c _ 0 (.inr (by rw [Nat.mul_zero, Nat.zero_add]; exact ho))

/-- Settles O34: a channel below 4 is inside F, so its registers are replaced. -/
theorem fresetResult : Obligations.FresetResult := by
  intro s c hc hi
  rcases execFreset_cases s c with ⟨hi', -⟩ | ⟨-, e⟩
  · cases hi.symm.trans hi'
  · rw [e, State.setFilter, show s.filter.setIfInBounds c .zero = s.filter.set c .zero by
      ext i; simp [Vector.getElem_setIfInBounds, Vector.getElem_set]]
    rfl

/-- Settles O36: the operand checks are the two commands' only checks past NOT_INIT. -/
theorem operandRejects : Obligations.OperandRejects := by
  intro s hi failed
  refine ⟨fun c k h => execDecode_badOperand hi ?_, fun slot h => execDemux_badOperand hi ?_⟩
  · rw [← Bool.not_eq_true, decodeOperandsOk_iff]
    omega
  · exact decide_eq_false (by omega)

/-! ### CTRL.STRATEGY (R82) -/

/-- The state with the other field of CTRL as it was and STRATEGY <- b (R22). -/
def State.withStrategy (s : State) (b : Bool) : State := { s with ctrl := { s.ctrl with strategy := b } }

@[simp] theorem State.withStrategy_active (s : State) (b : Bool) : (s.withStrategy b).active = s.active := rfl
@[simp] theorem State.withStrategy_cfg (s : State) (b : Bool) : (s.withStrategy b).cfg = s.cfg := rfl
@[simp] theorem State.withStrategy_r (s : State) (b : Bool) : (s.withStrategy b).r = s.r := rfl
@[simp] theorem State.withStrategy_work (s : State) (b : Bool) : (s.withStrategy b).work = s.work := rfl

theorem filterStep_strategy (k : FilterConsts) (b b' : Bool) (D : Nat) (f : FilterState) (win : List Byte) :
    filterStep k b D f win = filterStep k b' D f win := by
  simp only [filterStep, tap_eq_tapDirect]

theorem filterRun_strategy (k : FilterConsts) (b b' : Bool) (D : Nat) (f : FilterState) (wins : List (List Byte)) :
    filterRun k b D f wins = filterRun k b' D f wins := by
  induction wins generalizing f with
  | nil => rfl
  | cons win wins ih => rw [filterRun_cons, filterRun_cons, filterStep_strategy k b b', ih]

theorem State.decodeBlock_withStrategy (s : State) (b : Bool) (c src dst : Nat) :
    (s.withStrategy b).decodeBlock c src dst = (s.decodeBlock c src dst).withStrategy b := by
  have hout : (s.withStrategy b).blockOut c src = s.blockOut c src := filterRun_strategy _ b s.ctrl.strategy _ _ _
  rw [State.decodeBlock, hout]
  rfl

theorem State.decodeAll_withStrategy (s : State) (b : Bool) (n : Nat) :
    (s.withStrategy b).decodeAll n = (s.decodeAll n).withStrategy b :=
  List.foldl_hom (State.withStrategy · b) fun _ _ =>
    List.foldl_hom (State.withStrategy · b) fun u _ => u.decodeBlock_withStrategy b _ _ _

theorem State.demuxSlot_withStrategy (s : State) (b : Bool) (slot : Nat) :
    (s.withStrategy b).demuxSlot slot = (s.demuxSlot slot).withStrategy b :=
  List.foldl_hom (State.withStrategy · b) fun _ _ => rfl

theorem State.started_withStrategy (s : State) (b : Bool) :
    (s.withStrategy b).started = s.started.withStrategy b := by
  unfold State.started State.armFirst
  cases h : s.active.nprod <;> simp [h] <;> rfl

theorem State.stopped_withStrategy (s : State) (b : Bool) :
    (s.withStrategy b).stopped = s.stopped.withStrategy b := by
  unfold State.stopped State.disarmAll
  cases h : s.active.nprod <;> simp [h] <;> rfl

/-- An outcome with another STRATEGY in its next state. -/
def nextWithStrategy (b : Bool) : Host.Outcome State Fault Refusal → Host.Outcome State Fault Refusal
  | .next t => .next (t.withStrategy b)
  | .fault r => .fault r
  | .refused r => .refused r

theorem nextWithStrategy_ite (b : Bool) (p : Prop) [Decidable p] (x y : Host.Outcome State Fault Refusal) :
    nextWithStrategy b (if p then x else y) = if p then nextWithStrategy b x else nextWithStrategy b y :=
  apply_ite _ _ _ _

/-- Every command: its checks do not read STRATEGY, and its effect is the same with the other one. -/
theorem exec_withStrategy (i : Instr) (s : State) (b : Bool) :
    exec i (s.withStrategy b) = nextWithStrategy b (exec i s) := by
  cases i with
  | nop => rfl
  | init =>
    simp only [exec, execInit, nextWithStrategy_ite, State.withStrategy_cfg]
    cases initCheck s.cfg <;> rfl
  | start =>
    show execStart (s.withStrategy b) = nextWithStrategy b (execStart s)
    have harmed := congrArg (fun t => t.done) (s.started_withStrategy b)
    simp only [execStart, nextWithStrategy_ite]
    exact if_congr Iff.rfl rfl (if_congr Iff.rfl rfl (if_congr Iff.rfl rfl (if_congr Iff.rfl rfl harmed)))
  | stop =>
    have hstopped := congrArg (fun t => t.done) (s.stopped_withStrategy b)
    simp only [exec, execStop, nextWithStrategy_ite]
    exact if_congr Iff.rfl rfl hstopped
  | read n =>
    simp only [exec, execRead, nextWithStrategy_ite, State.withStrategy_active, State.withStrategy_r,
      State.withStrategy_work, State.demuxSlot_withStrategy, State.decodeAll_withStrategy]
    cases select s.active s.r s.work.wSnap <;> rfl
  | setVolume v =>
    simp only [exec, execSetVolume, nextWithStrategy_ite]
    rfl
  | setGain g =>
    simp only [exec, execSetGain, nextWithStrategy_ite]
    rfl
  | setMaxvol m =>
    simp only [exec, execSetMaxvol, nextWithStrategy_ite]
    rfl
  | freset c =>
    simp only [exec, execFreset, nextWithStrategy_ite]
    rfl
  | demux slot =>
    simp only [exec, execDemux, nextWithStrategy_ite, State.demuxSlot_withStrategy]
    rfl
  | decode c k =>
    simp only [exec, execDecode, nextWithStrategy_ite, State.decodeBlock_withStrategy]
    rfl

/-- Settles O27: by either strategy a tap is R81's sum, so every filter step, and with it every command, is the same. -/
theorem strategyHasNoEffect : Obligations.StrategyHasNoEffect := by
  refine ⟨fun D s win => ⟨tapDirect_eq_sum D s win, tapTable_eq_tapDirect D s win⟩, fun i s t b h => ?_⟩
  exact (exec_withStrategy i s b).trans (congrArg (nextWithStrategy b) h)

end Sys2Proof.Machine
end

section
/-! The coefficient table: its closed form is the pulse convolved with itself twice, for every D, and its values for the
two decimation factors (R75, R76). -/

namespace Sys2Proof.Machine

/-! ### Convolution (R75) -/

theorem addSeq_getD (xs ys : List Nat) (n : Nat) :
    (convolve.addSeq xs ys).getD n 0 = xs.getD n 0 + ys.getD n 0 := by
  induction xs generalizing ys n with
  | nil => simp [convolve.addSeq]
  | cons x xs ih =>
    cases ys with
    | nil => simp [convolve.addSeq]
    | cons y ys =>
      cases n with
      | zero => rfl
      | succ n => exact ih ys n

theorem addSeq_length (xs ys : List Nat) : (convolve.addSeq xs ys).length = max xs.length ys.length := by
  induction xs generalizing ys with
  | nil => simp [convolve.addSeq]
  | cons x xs ih =>
    cases ys with
    | nil => simp [convolve.addSeq]
    | cons y ys => simp [convolve.addSeq, ih]

theorem convolve_length {as bs : List Nat} (ha : as ≠ []) (hb : bs ≠ []) :
    (convolve as bs).length + 1 = as.length + bs.length := by
  have hpos := List.length_pos_iff.mpr hb
  induction as with
  | nil => exact absurd rfl ha
  | cons a as ih =>
    rw [convolve, addSeq_length, List.length_map, List.length_cons, List.length_cons]
    rcases eq_or_ne as [] with rfl | has
    · simp [convolve]
      omega
    · have := ih has
      omega

@[simp] theorem rectPulse_length (D : Nat) : (rectPulse D).length = D := List.length_replicate

theorem rectPulse_ne_nil {D : Nat} (hD : 0 < D) : rectPulse D ≠ [] :=
  List.ne_nil_of_length_pos (by simpa using hD)

/-- Entry n of a sequence convolved with the pulse is the sum of its D entries up to n: the sum of the first n + 1
without that of the first n + 1 − D. -/
theorem convolve_rectPulse_getD (as : List Nat) {D : Nat} (hD : 0 < D) (n : Nat) :
    (convolve as (rectPulse D)).getD n 0 + (as.take (n + 1 - D)).sum = (as.take (n + 1)).sum := by
  induction as generalizing n with
  | nil => simp [convolve]
  | cons a as ih =>
    have hpulse : ((rectPulse D).map (a * ·)).getD n 0 = if n < D then a else 0 := by
      rw [rectPulse, List.map_replicate, Nat.mul_one, List.getD_eq_getElem?_getD, List.getElem?_replicate]
      split <;> rfl
    rw [convolve, addSeq_getD, hpulse]
    cases n with
    | zero => simp [hD, show 1 - D = 0 by omega]
    | succ n =>
      have hn := ih n
      rw [List.getD_cons_succ, List.take_succ_cons, List.sum_cons]
      split
      · rw [show n + 1 - D = 0 by omega] at hn
        rw [show n + 1 + 1 - D = 0 by omega, ← hn]
        simp
      · rw [show n + 1 + 1 - D = n + 1 - D + 1 by omega, List.take_succ_cons, List.sum_cons]
        omega

theorem sum_take_succ_getD (as : List Nat) (n : Nat) : (as.take (n + 1)).sum = (as.take n).sum + as.getD n 0 := by
  rw [List.take_add_one, List.sum_append, List.getD_eq_getElem?_getD]
  cases as[n]? <;> simp

/-! ### The closed form (R75) -/

/-- Twice the x-th triangular number. -/
def oblong (x : Nat) : Nat := x * (x + 1)

theorem oblong_sub_succ (n d : Nat) : oblong (n + 1 - d) = oblong (n - d) + 2 * (n + 1 - d) := by
  rcases Nat.lt_or_ge n d with h | h
  · rw [show n + 1 - d = 0 by omega, show n - d = 0 by omega, Nat.mul_zero, Nat.add_zero]
  · rw [show n + 1 - d = n - d + 1 by omega, oblong, oblong]
    ring

theorem rectPulse_take_sum (D n : Nat) : ((rectPulse D).take n).sum = min n D := by
  simp [rectPulse]

/-- The sum of the first n entries of the pulse convolved with itself, the triangle 1, 2, ..., D, ..., 2, 1. -/
theorem triangle_take_sum {D : Nat} (hD : 0 < D) (n : Nat) :
    2 * ((convolve (rectPulse D) (rectPulse D)).take n).sum + 2 * oblong (n - D) = oblong n + oblong (n - 2 * D) := by
  induction n with
  | zero => simp [oblong]
  | succ n ih =>
    have hentry := convolve_rectPulse_getD (rectPulse D) hD n
    rw [rectPulse_take_sum, rectPulse_take_sum] at hentry
    have h0 := oblong_sub_succ n 0
    rw [Nat.sub_zero, Nat.sub_zero] at h0
    rw [sum_take_succ_getD, oblong_sub_succ n D, oblong_sub_succ n (2 * D), h0]
    omega

theorem two_mul_oblong_half (x : Nat) : 2 * (oblong x / 2) = oblong x :=
  Nat.mul_div_cancel' (Nat.even_mul_succ_self x).two_dvd

/-- R75's rising range. -/
theorem c3_of_lt {D n : Nat} (h : n < D) : c3 D n = oblong (n + 1) / 2 := if_pos h

/-- R75's middle range, at n = D + m. -/
theorem c3_add {D m : Nat} (h : m < D) : c3 D (D + m) = oblong (D + m + 1) / 2 - 3 * oblong (m + 1) / 2 := by
  rw [c3, if_neg (by omega), if_pos (by omega), Nat.add_sub_cancel_left]
  rfl

/-- R75's falling range, at n = 3D − 2 − k. -/
theorem c3_of_ge {D n k : Nat} (h : 2 * D ≤ n) (hk : n + 2 + k = 3 * D) : c3 D n = oblong k / 2 := by
  rw [c3, if_neg (by omega), if_neg (by omega), show 3 * D - 2 - n = k by omega, show 3 * D - 1 - n = k + 1 by omega]
  rfl

/-- The third difference of the oblong numbers, cut at 0, is twice c3, in each of R75's three ranges. -/
theorem two_mul_c3 {D n : Nat} (h : n + 2 ≤ 3 * D) :
    2 * c3 D n + 3 * oblong (n + 1 - D) = oblong (n + 1) + 3 * oblong (n + 1 - 2 * D) := by
  rcases Nat.lt_or_ge n D with hrise | hge
  · have hhalf := two_mul_oblong_half (n + 1)
    rw [c3_of_lt hrise, show n + 1 - D = 0 by omega, show n + 1 - 2 * D = 0 by omega]
    omega
  rcases Nat.lt_or_ge n (2 * D) with hmid | hfall
  · obtain ⟨m, rfl⟩ := Nat.exists_eq_add_of_le hge
    have hm : m + 1 ≤ D := by omega
    have hhalf := two_mul_oblong_half (D + m + 1)
    have hhalf' := two_mul_oblong_half (m + 1)
    have hle : 3 * oblong (m + 1) ≤ oblong (D + m + 1) := by
      unfold oblong
      nlinarith
    rw [c3_add hm, show D + m + 1 - D = m + 1 by omega, show D + m + 1 - 2 * D = 0 by omega, show oblong 0 = 0 from rfl]
    omega
  · obtain ⟨k, hk⟩ := Nat.exists_eq_add_of_le h
    obtain ⟨m, rfl⟩ : ∃ m, D = k + 1 + m := ⟨D - 1 - k, by omega⟩
    rw [c3_of_ge hfall hk.symm, two_mul_oblong_half, show n + 1 = 2 * k + 2 + 3 * m by omega,
      show 2 * k + 2 + 3 * m - (k + 1 + m) = k + 1 + 2 * m by omega,
      show 2 * k + 2 + 3 * m - 2 * (k + 1 + m) = m by omega]
    unfold oblong
    ring

/-- The pulse convolved with itself twice, in closed form (R75). -/
theorem pulse_cubed_getD {D : Nat} (hD : 0 < D) {n : Nat} (h : n + 2 ≤ 3 * D) :
    (convolve (convolve (rectPulse D) (rectPulse D)) (rectPulse D)).getD n 0 = c3 D n := by
  have hentry := convolve_rectPulse_getD (convolve (rectPulse D) (rectPulse D)) hD n
  have hall := triangle_take_sum hD (n + 1)
  have hcut := triangle_take_sum hD (n + 1 - D)
  have hc3 := two_mul_c3 h
  rw [show n + 1 - D - D = n + 1 - 2 * D by omega, show n + 1 - D - 2 * D = 0 by omega] at hcut
  rw [show oblong 0 = 0 from rfl] at hcut
  omega

/-- R75's table: a zero, the pulse convolved with itself twice, and a zero. -/
theorem coefficientTable_getD {D : Nat} (hD : 0 < D) {k : Nat} (hk : k < 3 * D) :
    ([0] ++ convolve (convolve (rectPulse D) (rectPulse D)) (rectPulse D) ++ [0]).getD k 0 = sinc D k := by
  cases k with
  | zero => rfl
  | succ k =>
    rw [sinc, if_neg (Nat.succ_ne_zero k), Nat.add_sub_cancel, ← pulse_cubed_getD hD (by omega)]
    rw [List.append_assoc, List.singleton_append, List.getD_cons_succ]
    rcases Nat.lt_or_ge k (convolve (convolve (rectPulse D) (rectPulse D)) (rectPulse D)).length with h | h
    · rw [List.getD_append _ _ _ _ h]
    · rw [List.getD_append_right _ _ _ _ h, List.getD_eq_default _ _ h]
      cases k - (convolve (convolve (rectPulse D) (rectPulse D)) (rectPulse D)).length <;> rfl

/-- Settles O26, for every D: the pulse is convolved twice, each time entry by entry as a difference of two sums. -/
theorem coefficientsAreConvolution : Obligations.CoefficientsAreConvolution := by
  intro a D r table
  have hD : 0 < D := by rcases decim_cases a with ⟨h, -⟩ | ⟨h, -⟩ <;> omega
  have hr : r.length = D := rectPulse_length D
  have hne : r ≠ [] := rectPulse_ne_nil hD
  have hsquare := convolve_length hne hne
  have hcube := convolve_length (List.ne_nil_of_length_pos (show 0 < (convolve r r).length by omega)) hne
  have hlen : table.length = 3 * D := by
    simp only [table, List.length_append, List.length_singleton]
    omega
  refine ⟨hlen, fun s hs i hi => ?_⟩
  have hlt : s * D + i < table.length := by
    have := Nat.mul_le_mul_right D (show s ≤ 2 by omega)
    omega
  have hentry : table.getD (s * D + i) 0 = sinc D (s * D + i) := coefficientTable_getD hD (by omega)
  rw [List.getElem?_eq_getElem hlt, ← List.getD_eq_getElem table 0 hlt, hentry]
  rfl

/-! ### The values for D = 64 and D = 128 (R76) -/

/-- Settles O25: every clause is a finite computation over the 3D entries of one table. -/
theorem coefficientFacts : Obligations.CoefficientFacts :=
  ⟨by decide +kernel, by decide +kernel, by decide +kernel, by decide +kernel, by decide +kernel, by decide +kernel,
    by decide +kernel, by decide +kernel, by decide +kernel, by decide +kernel, by decide +kernel, by decide +kernel,
    by decide +kernel, by decide +kernel, by decide +kernel, by decide +kernel, by decide +kernel⟩

end Sys2Proof.Machine
end

section
/-! The demultiplexer: channel values as binary numerals, the shift and mask sequences as merges of runs of bits, the
interleaved word, and DEMUX's outcome (41_demux.md). -/

namespace Sys2Proof.Machine

/-! ### Channel values as binary numerals (R92, R96) -/

/-- A sum of bits at the places 0, 1, ... is the number of those bits. -/
theorem sum_bits_eq_ofBits (m : Nat) (f : Nat → Bool) :
    ((List.range m).map fun k => (f k).toNat * 2 ^ k).sum = Nat.ofBits fun k : Fin m => f k := by
  induction m generalizing f with
  | zero => rfl
  | succ m ih =>
    have hhigh : Nat.ofBits ((fun k : Fin (m + 1) => f k) ∘ Fin.succ) = _ := (ih fun k => f (k + 1)).symm
    rw [Nat.ofBits_succ, hhigh, ← List.sum_map_mul_left, List.range_succ_eq_map]
    simp [pow_succ', Nat.mul_left_comm, Nat.add_comm, Function.comp_def]

theorem chan_eq_sum (w : Word) (n c : Nat) :
    chan w n c = ((List.range (32 / n)).map fun k => (w.getLsbD (n * k + c)).toNat * 2 ^ k).sum := by
  simp only [chan, Nat.shiftLeft_eq]

/-- Bit k of channel c's value is bit N·k + c of the word (R92). -/
theorem chan_testBit (w : Word) (n c k : Nat) :
    (chan w n c).testBit k = (decide (k < 32 / n) && w.getLsbD (n * k + c)) := by
  rw [chan_eq_sum, sum_bits_eq_ofBits _ fun k => w.getLsbD (n * k + c), Nat.testBit_ofBits]
  split <;> simp [*]

/-! ### The interleaved word (R96) -/

/-- The position of every channel's every bit lies in the word. -/
theorem position_lt {n c k : Nat} (hn : n ∣ 32) (hc : c < n) (hk : k < 32 / n) : n * k + c < 32 :=
  calc n * k + c < n * (k + 1) := by rw [Nat.mul_succ]; omega
    _ ≤ n * (32 / n) := Nat.mul_le_mul_left n hk
    _ = 32 := Nat.mul_div_cancel' hn

/-- A position names its channel, as its remainder by N, and its bit, as its quotient. -/
theorem position_mod_div {n c : Nat} (hc : c < n) (k : Nat) : (n * k + c) % n = c ∧ (n * k + c) / n = k :=
  ⟨by rw [Nat.mul_add_mod, Nat.mod_eq_of_lt hc],
    by rw [Nat.mul_add_div (Nat.zero_lt_of_lt hc), Nat.div_eq_of_lt hc, Nat.add_zero]⟩

/-- The positions n·k + c, taken channel by channel, are the positions below n·m, each once. -/
theorem sum_strides (g : Nat → Nat) (n m : Nat) :
    ((List.range n).map fun c => ((List.range m).map fun k => g (n * k + c)).sum).sum =
      ((List.range (n * m)).map g).sum := by
  induction m with
  | zero => simp
  | succ m ih =>
    simp only [List.range_succ, List.map_append, List.sum_append, List.map_singleton, List.sum_singleton,
      List.sum_map_add]
    rw [ih, Nat.mul_succ, List.range_add, List.map_append, List.sum_append, List.map_map]
    rfl

theorem interleave_eq_sum (n : Nat) (p : Nat → Nat) :
    interleave n p = ((List.range n).map fun c =>
      ((List.range (32 / n)).map fun k => ((p c).testBit k).toNat * 2 ^ (n * k + c)).sum).sum := by
  simp only [interleave, Nat.shiftLeft_eq]

/-- Bit i of the interleaved word is bit i / N of channel i mod N's pattern. -/
theorem interleave_eq_ofBits {n : Nat} (p : Nat → Nat) (hn : n ∣ 32) :
    interleave n p = Nat.ofBits fun i : Fin 32 => (p (i % n)).testBit (i / n) := by
  rw [interleave_eq_sum, ← sum_bits_eq_ofBits 32 fun i => (p (i % n)).testBit (i / n)]
  have hstrides := sum_strides (fun i => ((p (i % n)).testBit (i / n)).toNat * 2 ^ i) n (32 / n)
  rw [Nat.mul_div_cancel' hn] at hstrides
  rw [← hstrides]
  refine congrArg List.sum (List.map_congr_left fun c hc => ?_)
  simp only [position_mod_div (List.mem_range.mp hc)]

theorem interleave_lt {n : Nat} (p : Nat → Nat) (hn : n ∣ 32) : interleave n p < 2 ^ 32 := by
  rw [interleave_eq_ofBits p hn]
  exact Nat.ofBits_lt_two_pow _

theorem interleave_testBit {n : Nat} (p : Nat → Nat) (hn : n ∣ 32) {c k : Nat} (hc : c < n) (hk : k < 32 / n) :
    (interleave n p).testBit (n * k + c) = (p c).testBit k := by
  rw [interleave_eq_ofBits p hn, Nat.testBit_ofBits_lt _ _ (position_lt hn hc hk)]
  simp only [position_mod_div hc]

theorem chan_interleave {n c : Nat} {p : Nat → Nat} (hn : n ∣ 32) (hc : c < n) (hp : p c < 2 ^ (32 / n)) :
    chan (BitVec.ofNat 32 (interleave n p)) n c = p c := by
  refine Nat.eq_of_testBit_eq fun k => ?_
  rw [chan_testBit]
  by_cases hk : k < 32 / n
  · rw [BitVec.getLsbD_ofNat, interleave_testBit p hn hc hk]
    simp [hk, position_lt hn hc hk]
  · have hzero : (p c).testBit k = false :=
      Nat.testBit_lt_two_pow (hp.trans_le (Nat.pow_le_pow_right (by decide) (by omega)))
    simp [hk, hzero]

/-- Settles O38: the word and each channel's value have the same bits, at N·k + c and at k. -/
theorem interleaveRoundTrip : Obligations.InterleaveRoundTrip := by
  intro n p hn hp
  have hdvd : n ∣ 32 := by rcases hn with rfl | rfl <;> decide
  exact ⟨interleave_eq_sum n p, interleave_lt p hdvd, fun c hc => chan_interleave hdvd hc (hp c hc)⟩

/-! ### The shift and mask sequences (R93) -/

/-- The bits of `f` stand in `x` in runs of `b` bits, one run at the foot of every n·b positions, zeros between. -/
def Spread (n b : Nat) (f : Nat → Bool) (x : Word) : Prop :=
  ∀ q r, n * b * (q + 1) ≤ 32 → r < n * b → x.getLsbD (n * b * q + r) = (decide (r < b) && f (b * q + r))

theorem getLsbD_mask {period b : Nat} {mask : Word} (hmask : ∀ i < 32, mask.getLsbD i = decide (i % period < b))
    {q r : Nat} (hq : period * (q + 1) ≤ 32) (hr : r < period) : mask.getLsbD (period * q + r) = decide (r < b) := by
  rw [Nat.mul_succ] at hq
  rw [hmask _ (by omega), Nat.mul_add_mod, Nat.mod_eq_of_lt hr]

/-- The first step of a sequence keeps channel c's bits, each a run of one bit at the foot of n positions. -/
theorem spread_first (w : Word) {n : Nat} (c : Nat) {mask : Word}
    (hmask : ∀ i < 32, mask.getLsbD i = decide (i % (n * 1) < 1)) :
    Spread n 1 (fun k => w.getLsbD (n * k + c)) (w >>> c &&& mask) := by
  intro q r hq hr
  rw [BitVec.getLsbD_and, BitVec.getLsbD_ushiftRight, getLsbD_mask hmask hq hr, Bool.and_comm]
  by_cases h : r < 1
  · obtain rfl : r = 0 := by omega
    simp [Nat.add_comm]
  · simp [h]

/-- A further step: shifted down by (n − 1)·b, every second run joins the run below it, and the mask keeps the pairs. -/
theorem Spread.merge {n b : Nat} {f : Nat → Bool} {x mask : Word} (hx : Spread n b f x) (hn : 2 ≤ n)
    (hmask : ∀ i < 32, mask.getLsbD i = decide (i % (n * (2 * b)) < 2 * b)) :
    Spread n (2 * b) f ((x ||| x >>> ((n - 1) * b)) &&& mask) := by
  intro q r hq hr
  have hperiod : n * (2 * b) = n * b + n * b := by ring
  have hfoot : n * (2 * b) * q = n * b * (2 * q) := by ring
  have hend : n * b * (2 * q + 1 + 1) = n * (2 * b) * (q + 1) := by ring
  have hgap : (n - 1) * b + b = n * b := by rw [← Nat.add_one_mul, Nat.sub_add_cancel (by omega)]
  have hroom : b ≤ (n - 1) * b := Nat.le_mul_of_pos_left b (by omega)
  have hlow : ∀ j < n * b, x.getLsbD (n * b * (2 * q) + j) = (decide (j < b) && f (b * (2 * q) + j)) :=
    fun j => hx (2 * q) j ((Nat.mul_le_mul_left _ (by omega)).trans (hend.trans_le hq))
  have hhigh : ∀ j < n * b, x.getLsbD (n * b * (2 * q) + n * b + j) = (decide (j < b) && f (b * (2 * q) + b + j)) :=
    fun j => hx (2 * q + 1) j (hend.trans_le hq)
  rw [BitVec.getLsbD_and, BitVec.getLsbD_or, BitVec.getLsbD_ushiftRight, getLsbD_mask hmask hq hr, hfoot,
    Nat.mul_assoc 2, Nat.mul_left_comm 2, Nat.add_left_comm]
  rcases Nat.lt_or_ge r (2 * b) with hkept | hcleared
  · rcases Nat.lt_or_ge r b with hlower | hupper
    · rw [hlow r (by omega), hlow ((n - 1) * b + r) (by omega)]
      simp [hkept, hlower, show ¬ (n - 1) * b + r < b by omega]
    · -- the upper half of a joined run is the run one step further up
      obtain ⟨j, rfl⟩ := Nat.exists_eq_add_of_le hupper
      have hnext : n * b * (2 * q) + ((n - 1) * b + (b + j)) = n * b * (2 * q) + n * b + j := by omega
      rw [hlow (b + j) (by omega), hnext, hhigh j (by omega)]
      simp [hkept, show j < b by omega, Nat.add_assoc]
  · simp [Nat.not_lt.mpr hcleared]

theorem Spread.toNat_eq_chan {w x : Word} {n c : Nat} (hn : n ∣ 32)
    (hx : Spread n (32 / n) (fun k => w.getLsbD (n * k + c)) x) : x.toNat = chan w n c := by
  refine Nat.eq_of_testBit_eq fun i => ?_
  rw [BitVec.testBit_toNat, chan_testBit]
  have hbits := hx 0 i
  simp only [Nat.mul_div_cancel' hn, Nat.mul_zero, Nat.zero_add] at hbits
  by_cases hi : i < 32
  · exact hbits (by omega) hi
  · have hout : ¬ i < 32 / n := fun h => hi (h.trans_le (Nat.div_le_self 32 n))
    simp [BitVec.getLsbD_of_ge x i (by omega), hout]

theorem chanMask2_eq_chan (w : Word) (c : Nat) : (chanMask2 w c).toNat = chan w 2 c := by
  have h₁ : Spread 2 1 _ _ := spread_first w c (mask := 0x55555555) (by decide)
  have h₂ : Spread 2 2 _ _ := h₁.merge (mask := 0x33333333) (by decide) (by decide)
  have h₄ : Spread 2 4 _ _ := h₂.merge (mask := 0x0F0F0F0F) (by decide) (by decide)
  have h₈ : Spread 2 8 _ _ := h₄.merge (mask := 0x00FF00FF) (by decide) (by decide)
  have h₁₆ : Spread 2 16 _ _ := h₈.merge (mask := 0x0000FFFF) (by decide) (by decide)
  exact h₁₆.toNat_eq_chan (by decide)

theorem chanMask4_eq_chan (w : Word) (c : Nat) : (chanMask4 w c).toNat = chan w 4 c := by
  have h₁ : Spread 4 1 _ _ := spread_first w c (mask := 0x11111111) (by decide)
  have h₂ : Spread 4 2 _ _ := h₁.merge (mask := 0x03030303) (by decide) (by decide)
  have h₄ : Spread 4 4 _ _ := h₂.merge (mask := 0x000F000F) (by decide) (by decide)
  have h₈ : Spread 4 8 _ _ := h₄.merge (mask := 0x000000FF) (by decide) (by decide)
  exact h₈.toNat_eq_chan (by decide)

/-- Settles O37: each step of a sequence doubles the runs of the channel's bits, until one run is left. -/
theorem maskSequences : Obligations.MaskSequences :=
  fun w => ⟨fun c _ => chanMask2_eq_chan w c, fun c _ => chanMask4_eq_chan w c, fun n _ c _ => chan_eq_sum w n c⟩

/-! ### DEMUX (R97) -/

theorem execDemux_ok {s : State} {slot : Nat} (hi : s.status.inited = true) (hs : slot < s.active.slots) :
    exec (.demux slot) s = .next ((s.demuxSlot slot).finish .ok) := by
  show execDemux slot s = _
  simp [execDemux, demuxOperandOk, hi, hs]

/-- Settles O39: SCRATCH holds the streams of the slot, byte for byte, and past them what it held. -/
theorem demuxResult : Obligations.DemuxResult := by
  intro s slot hi hcheck hslot a base word
  have hch := ((initCheck_eq_none s.active).mp hcheck).1
  refine ⟨_, execDemux_ok hi hslot, congrArg (State.finish · .ok) (s.demuxSlot_eq slot), fun c hc o ho => ?_,
    fun o ho => ?_⟩
  · rw [State.finish_memByte, ← Option.some_inj, ← s.demuxSlot_inside slot hch hc ho]
    exact s.streamOf_getElem? slot c o hch ho
  · rw [State.finish_memByte]
    exact s.demuxSlot_outside slot hch ho

end Sys2Proof.Machine
end

section
/-! The capture ring: the signed distance, slot selection, the producer completion and its count, and READ
(42_ring.md). -/

namespace Sys2Proof.Machine

/-! ### The signed distance (R103) -/

/-- norm(x) is the one number in [−B/2, B/2) that differs from x by a multiple of B. -/
theorem ringNorm_eq_iff {b : Nat} (hb : 0 < b) {x y : Int} :
    Machine.norm b x = y ↔ (-(b : Int) ≤ 2 * y ∧ 2 * y < b) ∧ (b : Int) ∣ x - y := by
  have hb' : (0 : Int) < b := by omega
  have hlow := Int.emod_nonneg x hb'.ne'
  have hhigh := Int.emod_lt_of_pos x hb'
  have hdvd : (b : Int) ∣ x - x % b := Int.dvd_self_sub_emod
  have hnorm : (-(b : Int) ≤ 2 * Machine.norm b x ∧ 2 * Machine.norm b x < b) ∧ (b : Int) ∣ x - Machine.norm b x := by
    unfold Machine.norm
    dsimp only
    split
    · exact ⟨by omega, hdvd⟩
    · refine ⟨by omega, ?_⟩
      rw [show x - (x % b - b) = (x - x % b) + b by ring]
      exact hdvd.add (dvd_refl _)
  refine ⟨fun h => h ▸ hnorm, fun ⟨hy, hxy⟩ => ?_⟩
  have hdiff : (b : Int) ∣ Machine.norm b x - y := by
    have h := hxy.sub hnorm.2
    rwa [sub_sub_sub_cancel_left] at h
  have hzero := Int.eq_zero_of_abs_lt_dvd hdiff (abs_lt.mpr ⟨by omega, by omega⟩)
  omega

/-- norm(x) lies in [−B/2, B/2) and differs from x by a multiple of B. -/
theorem ringNorm_spec {b : Nat} (hb : 0 < b) (x : Int) :
    (-(b : Int) ≤ 2 * Machine.norm b x ∧ 2 * Machine.norm b x < b) ∧ (b : Int) ∣ x - Machine.norm b x :=
  (ringNorm_eq_iff hb).mp rfl

/-- norm is odd but at −B/2, which is its own negative modulo B. -/
theorem ringNorm_neg {b : Nat} (hb : 0 < b) (x : Int) :
    Machine.norm b (-x) =
      if 2 * Machine.norm b x = -(b : Int) then Machine.norm b x else -Machine.norm b x := by
  obtain ⟨hrange, hdvd⟩ := ringNorm_spec hb x
  split
  case isTrue hhalf =>
    refine (ringNorm_eq_iff hb).mpr ⟨hrange, ?_⟩
    rw [show -x - Machine.norm b x = b - (x - Machine.norm b x) by omega]
    exact (dvd_refl _).sub hdvd
  case isFalse hhalf =>
    refine (ringNorm_eq_iff hb).mpr ⟨by omega, ?_⟩
    rw [neg_sub_neg, ← neg_sub]
    exact hdvd.neg_right

theorem ringNorm_neg_natAbs {b : Nat} (hb : 0 < b) (x : Int) :
    (Machine.norm b (-x)).natAbs = (Machine.norm b x).natAbs := by
  rw [ringNorm_neg hb]
  split
  · rfl
  · exact Int.natAbs_neg _

/-- At half the ring, norm is the lower end of its range. -/
theorem ringNorm_half {b : Nat} (hb : 0 < b) {x : Int} (heven : b % 2 = 0) (hx : (x - b / 2) % b = 0) :
    Machine.norm b x = -(b / 2 : Int) := by
  refine (ringNorm_eq_iff hb).mpr ⟨by omega, ?_⟩
  rw [show x - -(b / 2 : Int) = (x - b / 2) + b by omega]
  exact (Int.dvd_of_emod_eq_zero hx).add (dvd_refl _)

/-- Settles O41: norm(−x) is −norm(x), or norm(x) again at half the ring. -/
theorem normProperties : Obligations.NormProperties := by
  intro b x hb
  obtain ⟨⟨hlow, hhigh⟩, -⟩ := ringNorm_spec hb x
  refine ⟨rfl, fun _ => ⟨hlow, hhigh⟩, fun hodd => by omega, ringNorm_neg_natAbs hb x, fun heven hx => ?_⟩
  have hhalf := ringNorm_half hb heven hx
  exact ⟨hhalf, by rw [ringNorm_neg hb, if_pos (by omega), hhalf]⟩

/-! ### Slot selection (R104, R105, R107) -/

theorem select_eq_none_iff {a : Configuration} {r w : BitVec 8} : select a r w = none ↔ w = r := by
  unfold select
  by_cases h : w = r
  · simp [h]
  · rw [if_neg h]
    split <;> simp [h]

/-- A selection is R, outside the guard window or with no guard, or W + OFFSET inside the window (R104). -/
theorem select_eq_some {a : Configuration} {r w : BitVec 8} {sel : Selection} (h : select a r w = some sel) :
    w ≠ r ∧
    ((sel = ⟨r, false⟩ ∧ (0 < a.guardSlots → a.guardSlots < (Machine.norm a.slots (w.toNat - r.toNat)).natAbs)) ∨
      (sel = ⟨slotMod a.slots (w.toNat + a.offsetSlots), true⟩ ∧ 0 < a.guardSlots ∧
        (Machine.norm a.slots (w.toNat - r.toNat)).natAbs ≤ a.guardSlots)) := by
  unfold select at h
  split at h
  case isTrue => cases h
  case isFalse hne =>
    refine ⟨hne, ?_⟩
    split at h <;> cases h
    case isTrue hin => exact .inr ⟨rfl, hin⟩
    case isFalse hout => exact .inl ⟨rfl, fun hg => by omega⟩

/-- A slot at a distance of more than 1 from W is neither W nor the slot after it. -/
theorem ne_writer_of_ringNorm {b : Nat} (hb : 0 < b) {x y : Nat}
    (h : 1 < (Machine.norm b ((y : Int) - x)).natAbs) : x ≠ y ∧ x ≠ (y + 1) % b := by
  constructor
  · rintro rfl
    rw [ringNorm_of_emod_zero hb (by simp)] at h
    omega
  · rintro rfl
    have hone : (((y + 1) % b : Nat) - (y : Int)) % b = 1 % b := by
      rw [Int.natCast_emod, Int.emod_sub_emod]
      congr 1
      omega
    have hle := ringNorm_of_emod_one hb hone
    rw [← ringNorm_neg_natAbs hb, neg_sub] at hle
    omega

/-- The rebased slot is as far from W as OFFSET is from 0 (R104). -/
theorem ringNorm_rebased {a : Configuration} (hB : 0 < a.slots) (w : Nat) :
    (Machine.norm a.slots ((w : Int) - (slotMod a.slots (w + a.offsetSlots)).toNat)).natAbs =
      (Machine.norm a.slots a.offsetSlots).natAbs := by
  rw [slotMod_toNat hB (Nat.le_of_lt (slots_lt a)), ← ringNorm_neg_natAbs hB, neg_sub]
  congr 1
  apply ringNorm_congr
  rw [Int.emod_sub_emod, add_sub_cancel_left]

/-- Settles O42: a slot kept is R, which W is not; a rebased one is OFFSET away from W, further than GUARD (R113). -/
theorem selectionAvoidsWriter : Obligations.SelectionAvoidsWriter := by
  intro a r w hlegal hr _
  refine ⟨select_eq_none_iff, fun sel hsel => ?_⟩
  obtain ⟨-, -, -, -, -, hB, -, hguard⟩ := (initCheck_eq_none a).mp hlegal
  have hB0 : 0 < a.slots := by omega
  obtain ⟨hne, ⟨rfl, hfar⟩ | ⟨rfl, hg, hnear⟩⟩ := select_eq_some hsel
  · exact ⟨hr, hne.symm, fun _ => rfl, fun h => by simp at h,
      fun hg => ⟨hfar hg, (ne_writer_of_ringNorm hB0 (Nat.lt_of_le_of_lt hg (hfar hg))).2⟩⟩
  · have hle := Nat.le_of_lt (slots_lt a)
    have hfar : a.guardSlots < _ := (ringNorm_rebased hB0 w.toNat).symm ▸ hguard.resolve_left (by omega)
    obtain ⟨hw, hw1⟩ := ne_writer_of_ringNorm hB0 (Nat.lt_of_le_of_lt hg hfar)
    exact ⟨slotMod_lt hB0 hle _, fun h => hw (congrArg BitVec.toNat h), fun h => by simp at h,
      fun _ => ⟨slotMod_toNat hB0 hle _, hg, hnear⟩, fun _ => ⟨hfar, hw1⟩⟩

/-! ### Producer completions (R100-R102, R108) -/

theorem State.sequencer_cases (s : State) : s.sequencer = .idle ∨ ∃ cmd wk, s.sequencer = .busy cmd wk :=
  match s.sequencer with
  | .idle => .inl rfl
  | .busy cmd wk => .inr ⟨cmd, wk, rfl⟩

theorem State.consuming_of_idle {s : State} (hs : s.sequencer = .idle) (ns : BitVec 8) : s.consuming ns = false := by
  rw [State.consuming, hs]

theorem State.consuming_of_busy {s : State} {cmd : Word} {wk : Work} (hs : s.sequencer = .busy cmd wk) (ns : BitVec 8) :
    s.consuming ns = (wk.sSel == some ns) := by
  rw [State.consuming, hs]

theorem State.collideCheck_of_idle {s : State} (hs : s.sequencer = .idle) (ns : BitVec 8) : s.collideCheck ns = s := by
  unfold State.collideCheck
  split
  case h_1 => rfl
  case h_2 hb => cases hs.symm.trans hb

theorem State.collideCheck_of_busy {s : State} {cmd : Word} {wk : Work} (hs : s.sequencer = .busy cmd wk)
    (ns : BitVec 8) :
    s.collideCheck ns = if wk.sSel = some ns then { s with status := { s.status with collide := true } } else s := by
  unfold State.collideCheck
  split
  case h_1 hi => cases hs.symm.trans hi
  case h_2 hb =>
    cases hs.symm.trans hb
    rfl

/-- collide_check sets COLLIDE exactly if the running command is reading the slot (R102). -/
theorem State.collideCheck_eq (s : State) (ns : BitVec 8) :
    s.collideCheck ns = { s with status := { s.status with collide := s.status.collide || s.consuming ns } } := by
  obtain hs | ⟨cmd, wk, hs⟩ := s.sequencer_cases
  · rw [State.collideCheck_of_idle hs, State.consuming_of_idle hs, Bool.or_false]
  · rw [State.collideCheck_of_busy hs, State.consuming_of_busy hs]
    by_cases h : wk.sSel = some ns
    · rw [if_pos h, beq_iff_eq.mpr h, Bool.or_true]
    · rw [if_neg h, beq_false_of_ne h, Bool.or_false]

/-- The slot after `x`. -/
theorem slotMod_succ (b x : Nat) : slotMod b (x + 1) = BitVec.ofNat 8 ((x + 1) % b) := slotMod_natCast b (x + 1)

/-- The slot re-armed is W, or W + 1 with two transports (R100). -/
theorem rearmSlot_eq (a : Configuration) (w : BitVec 8) :
    rearmSlot a w = BitVec.ofNat 8 ((w.toNat + a.nprod.toNat) % a.slots) := by
  rw [← slotMod_natCast, rearmSlot, Configuration.producers]
  congr 1
  omega

theorem slot_toNat {b : Nat} (hb : 0 < b) (hb' : b ≤ 256) (x : Nat) : (BitVec.ofNat 8 (x % b)).toNat = x % b := by
  rw [BitVec.toNat_ofNat]
  exact Nat.mod_eq_of_lt ((Nat.mod_lt x hb).trans_le hb')

/-- An accepted completion, with the slots as remainders (R100). -/
theorem State.onDone_accepted_eq {s : State} {p : Transport} (hr : s.status.running = true)
    (hp : p.val < s.active.producers) (hB : 0 < s.active.slots) :
    let w := (s.w.toNat + 1) % s.active.slots
    let ns := (w + s.active.nprod.toNat) % s.active.slots
    s.onDone p =
      ((({ s with w := BitVec.ofNat 8 w }).arm p ns).notify).collideCheck (BitVec.ofNat 8 ns) := by
  have hB' := Nat.le_of_lt (slots_lt s.active)
  intro w ns
  rw [State.onDone_taken hr hp, slotMod_succ, rearmSlot_eq, slot_toNat hB hB', slot_toNat hB hB']

/-- Settles O43: the step counts after the completion, which is the named updates of R100 or nothing. -/
theorem completionEvent : Obligations.CompletionEvent := by
  intro s p
  refine ⟨?_, State.onDone_ignored, fun hr hp hB => ?_⟩
  · show Host.Outcome.next (s.tick.onDone p) = _
    rw [State.onDone_tick, State.tick, State.onDone_draws]
  · rw [State.onDone_accepted_eq hr hp (by omega), State.collideCheck_eq]
    rfl

/-- Settles O44, by induction on the completions. -/
theorem wCountsCompletions : Obligations.WCountsCompletions := by
  intro s ps hr hB hw hp
  induction ps generalizing s with
  | nil => simp [Nat.mod_eq_of_lt hw]
  | cons p ps ih =>
    obtain ⟨hhead, htail⟩ := List.forall_mem_cons.mp hp
    obtain ⟨hcount, hcursor⟩ := State.onDone_accepted hr hhead
    have hcursor := hcursor (by omega)
    have hlt : (s.onDone p).w.toNat < s.active.slots := hcursor ▸ Nat.mod_lt _ (by omega)
    have hrest := ih (s.onDone p) (by simpa using hr) (by simpa using hB) (by simpa using hlt) (by simpa using htail)
    simp only [State.onDone_active, State.onDone_r, State.onDone_result] at hrest
    obtain ⟨hw', hc', hr', hres'⟩ := hrest
    refine ⟨?_, ?_, hr', hres'⟩
    · rw [List.foldl_cons, hw', hcursor, Nat.mod_add_mod, List.length_cons, Nat.add_assoc, Nat.add_comm 1]
    · rw [List.foldl_cons, hc', hcount, List.length_cons, BitVec.add_assoc]
      congr 1
      bv_omega

/-! ### READ (R106) -/

theorem execRead_none {s : State} {nreq : Nat} (hi : s.status.inited = true)
    (h : select s.active s.r s.work.wSnap = none) :
    exec (.read nreq) s = .next (({ s with result := ⟨0, false, false, s.r⟩ }).finish .ok) := by
  rcases execRead_cases s nreq with ⟨hi', -⟩ | ⟨-, -, e⟩ | ⟨-, sel, hsel, -⟩
  · cases hi.symm.trans hi'
  · exact e
  · cases h.symm.trans hsel

/-- The state past the data path of a READ that consumes a slot, before its outcome (R106). -/
def State.consumed (s : State) (nreq : Nat) (sel : Selection) : State :=
  { (s.demuxSlot sel.slot.toNat).decodeAll (readCount s.active nreq) with
    r := slotMod s.active.slots (sel.slot.toNat + 1)
    result := ⟨BitVec.ofNat 16 (readCount s.active nreq), true, sel.rebased, sel.slot⟩ }

theorem execRead_some {s : State} {nreq : Nat} {sel : Selection} (hi : s.status.inited = true)
    (h : select s.active s.r s.work.wSnap = some sel) :
    exec (.read nreq) s = .next ((s.consumed nreq sel).finish .ok) := by
  rcases execRead_cases s nreq with ⟨hi', -⟩ | ⟨-, hsel, -⟩ | ⟨-, sel', hsel, e⟩
  · cases hi.symm.trans hi'
  · cases h.symm.trans hsel
  · cases h.symm.trans hsel
    exact e

/-- Settles O45: a snapshot of W equal to R is the one that selects nothing. -/
theorem readWithoutSlot : Obligations.ReadWithoutSlot := by
  intro s n hi
  refine ⟨fun hw => execRead_none hi (select_eq_none_iff.mpr hw), ?_⟩
  cases hsel : select s.active s.r s.work.wSnap with
  | none => exact ⟨_, execRead_none hi hsel, rfl, rfl⟩
  | some sel => exact ⟨_, execRead_some hi hsel, by simp [State.consumed], rfl⟩

/-- Window `i` of a channel's stream in SCRATCH, after demux_slot, is the stream's own (R80, R94). -/
theorem State.window_demuxSlot (s : State) (slot : Nat)
    (h : s.active.channels = 1 ∨ s.active.channels = 2 ∨ s.active.channels = 4) {c i : Nat}
    (hc : c < s.active.channels) (hi : i < s.active.samples) :
    (s.demuxSlot slot).window c 0 i =
      ((s.streamOf slot c).drop (i * s.active.windowBytes)).take s.active.windowBytes := by
  have hfit : (i + 1) * s.active.windowBytes ≤ s.active.streamBytes := Nat.mul_le_mul_right _ hi
  rw [Nat.succ_mul] at hfit
  apply List.ext_getElem
  · rw [State.window_length, List.length_take, List.length_drop, s.streamOf_length slot c h, State.demuxSlot_active]
    omega
  · intro j hj _
    rw [State.window_length, State.demuxSlot_active] at hj
    have hbyte := s.demuxSlot_inside slot h hc (o := i * s.active.windowBytes + j) (by omega)
    rw [List.getElem?_eq_getElem (by rw [s.streamOf_length slot c h]; omega), Option.some_inj] at hbyte
    rw [List.getElem_take, List.getElem_drop, hbyte]
    simp [State.window, Nat.add_assoc]

theorem State.filter_getElem? (s : State) {c : Nat} (hc : c < 4) : s.filter[c]? = some (s.filterAt c) := by
  simp [State.filterAt, hc]

theorem State.filter_getElem?_congr {s t : State} {c : Nat} (h : t.filterAt c = s.filterAt c) :
    t.filter[c]? = s.filter[c]? := by
  by_cases hc : c < 4
  · rw [t.filter_getElem? hc, s.filter_getElem? hc, h]
  · simp [hc]

theorem State.consumed_eq (s : State) (nreq : Nat) (sel : Selection) :
    s.consumed nreq sel = { s with
      filter := (s.consumed nreq sel).filter
      scratch := (s.consumed nreq sel).scratch
      pcm := (s.consumed nreq sel).pcm
      r := BitVec.ofNat 8 ((sel.slot.toNat + 1) % s.active.slots)
      result := ⟨BitVec.ofNat 16 (readCount s.active nreq), true, sel.rebased, sel.slot⟩ } := by
  have hpath := s.decodeAll_demuxSlot_eq (readCount s.active nreq) sel.slot.toNat
  unfold State.consumed
  generalize (s.demuxSlot sel.slot.toNat).decodeAll (readCount s.active nreq) = u at hpath ⊢
  rw [hpath, slotMod_succ]

theorem State.consumed_scratch (s : State) (nreq : Nat) (sel : Selection) (o : Nat) :
    (s.consumed nreq sel).memByte .scratch o = (s.demuxSlot sel.slot.toNat).memByte .scratch o :=
  State.memByte_congr (sp := .scratch) (State.decodeAll_scratch _ _) (State.decodeAll_powerOn _ _) o

/-- The filtering of a READ that consumes a slot: a run over the first n windows of each channel's stream (R106). -/
theorem State.consumed_filtering (s : State) (nreq : Nat) (sel : Selection) (h : initCheck s.active = none) :
    let a := s.active
    let n := readCount a nreq
    let out (c : Nat) := filterRun s.consts s.ctrl.strategy a.decim (s.filterAt c)
      ((List.range n).map fun i => ((s.streamOf sel.slot.toNat c).drop (i * a.windowBytes)).take a.windowBytes)
    (∀ c < a.channels, (s.consumed nreq sel).filterAt c = (out c).1 ∧
      ∀ i < n, (out c).2[i]? = some ((s.consumed nreq sel).pcmSample (c * n + i))) ∧
    (∀ c, a.channels ≤ c → (s.consumed nreq sel).filterAt c = s.filterAt c) ∧
    ∀ o, 2 * (a.channels * n) ≤ o → (s.consumed nreq sel).memByte .pcm o = s.memByte .pcm o := by
  intro a n out
  have hch := ((initCheck_eq_none a).mp h).1
  obtain ⟨hblocks, hn⟩ : n / a.spm * a.spm = n ∧ n ≤ a.samples := readCount_blocks h nreq
  have ha : (s.demuxSlot sel.slot.toNat).active = a := State.demuxSlot_active s _
  obtain ⟨-, hin, hout, hpcm⟩ :=
    State.decodeChannels_spec n (s.demuxSlot sel.slot.toNat) (by rw [ha]; exact hblocks) a.channels (by omega)
  have hpath : (List.range a.channels).foldl (State.decodeChannel n) (s.demuxSlot sel.slot.toNat) =
      (s.demuxSlot sel.slot.toNat).decodeAll n := by rw [State.decodeAll, ha]
  rw [hpath] at hin hout hpcm
  have hwins (c : Nat) (hc : c < a.channels) : (List.range n).map ((s.demuxSlot sel.slot.toNat).window c 0) =
      (List.range n).map fun i => ((s.streamOf sel.slot.toNat c).drop (i * a.windowBytes)).take a.windowBytes :=
    List.map_congr_left fun i hi =>
      s.window_demuxSlot sel.slot.toNat hch hc ((List.mem_range.mp hi).trans_le hn)
  have hfilter (c : Nat) : (s.demuxSlot sel.slot.toNat).filterAt c = s.filterAt c := by
    rw [State.filterAt, State.demuxSlot_filter, State.filterAt]
  refine ⟨fun c hc => ?_, fun c hc => (hout c hc).trans (hfilter c), fun o ho => (hpcm o ho).trans ?_⟩
  · have hrun := hin c hc
    simp only [hwins c hc, hfilter, State.demuxSlot_consts, State.demuxSlot_ctrl, ha] at hrun
    exact hrun
  · exact s.demuxSlot_memByte_of_ne sel.slot.toNat (by decide) o

/-- Settles O46: the data path is demux_slot and then each channel's run over its stream, which SCRATCH now holds. -/
theorem readConsumesSlot : Obligations.ReadConsumesSlot := by
  intro s nreq sel hi hlegal hsel a n stream wins out
  have hch := ((initCheck_eq_none a).mp hlegal).1
  obtain ⟨hin, hout, hpcm⟩ := s.consumed_filtering nreq sel hlegal
  refine ⟨_, execRead_some hi hsel, congrArg (State.finish · .ok) (s.consumed_eq nreq sel),
    fun c hc => ⟨s.streamOf_length _ c hch, fun o ho => ?_⟩, fun o ho => ?_, fun hslot u hu o => ?_,
    fun c hc => ⟨?_, (hin c hc).2⟩, fun c hc => State.filter_getElem?_congr (hout c hc), hpcm⟩
  · rw [State.finish_memByte, State.consumed_scratch]
    exact s.demuxSlot_inside _ hch hc ho
  · rw [State.finish_memByte, State.consumed_scratch]
    exact s.demuxSlot_outside _ hch ho
  · cases (execDemux_ok hi hslot).symm.trans hu
    rw [State.finish_memByte, State.finish_memByte, State.consumed_scratch]
  · rw [State.finish_filter, State.filter_getElem? _ (by omega), (hin c hc).1]
    rfl

end Sys2Proof.Machine
end

section
/-! Acceptance and the completion step (43_session.md R109): a CMD write at IDLE and while BUSY, and the step that runs
the command of the word (log 2, log 3). -/

namespace Sys2Proof.Machine

/-! ### A host write of CMD (R23, R44, R109) -/

theorem State.hostWrite_cmd (s : State) (x : Word) : s.hostWrite .word cmdAddr x = (s.issue x).respond 0 :=
  State.hostWrite_reg (r := .cmd) rfl rfl rfl

theorem State.issue_idle {s : State} (h : s.sequencer = .idle) (x : Word) : s.issue x = s.accept x :=
  if_neg (by rw [s.busy_false_iff.mpr h]; decide)

theorem State.issue_busy {s : State} (h : s.sequencer ≠ .idle) (x : Word) : s.issue x = s.dropCommand :=
  if_pos (by rwa [← Bool.not_eq_false, s.busy_false_iff])

theorem demuxOperandOk_iff (a : Configuration) (n : Nat) : demuxOperandOk a n = true ↔ n < a.slots :=
  decide_eq_true_iff

/-- A DEMUX reads its operand where its checks pass (R97, R102). -/
theorem State.slotRead_demux (s : State) (w : BitVec 8) (n : Nat) :
    s.slotRead w (.demux n) =
      if s.status.inited = true ∧ n < s.active.slots then some (BitVec.ofNat 8 n) else none := by
  rw [State.slotRead]
  simp only [Bool.and_eq_true, demuxOperandOk_iff]

/-- Settles O6: the write is `issue` and its response; the slot held is the one of the word's command. -/
theorem cmdWrite : Obligations.CmdWrite := by
  intro s x slot
  have hslot : s.slotReadBy s.w x = slot := by
    unfold State.slotReadBy slot
    cases decode x with
    | error e => rfl
    | ok i =>
      cases i with
      | demux n => exact s.slotRead_demux s.w n
      | _ => rfl
  refine ⟨hslot, fun hidle => ?_, fun hbusy => ?_⟩
  · rw [State.hostWrite_cmd, State.issue_idle hidle, State.accept, hslot]
    exact ⟨rfl, fun _ => rfl⟩
  · rw [State.hostWrite_cmd, State.issue_busy hbusy]
    rfl

/-! ### The step that completes a command (R109; log 2, log 3) -/

theorem State.completeCommand_legal {s : State} {cmd : Word} {wk : Work} {i : Instr} (hb : s.sequencer = .busy cmd wk)
    (hd : decode cmd = .ok i) : s.completeCommand = exec i s := by
  simp [State.completeCommand, hb, hd]

/-- Settles O7: the completion comes next, and a legal word's is `exec` of its command. -/
theorem stepRunsCommand : Obligations.StepRunsCommand := by
  intro s cmd wk i es hb hd he
  rw [step_complete hb he]
  exact State.completeCommand_legal (s := ({ s with events := es } : State).tick) hb hd

/-- The decoder reads all 32 bits of a table row as the word they are (R68). -/
theorem decodeTableWord_32 {n : Nat} {i : Instr} (hd : decode (BitVec.ofNat 32 n) = .ok i) :
    decodeTableWord 32 n = some i := by
  have hbytes : decodeBytes (bytesOfWord (BitVec.ofNat 32 n)) = .ok (i, []) := by
    rw [← List.append_nil (bytesOfWord _), decodeBytes_bytesOfWord, hd]
    rfl
  rw [decodeTableWord, if_pos (by decide), tableWord_32, hbytes]

/-- Settles O8: the word placed is accepted with the completion next, so the step is that of O7. -/
theorem fetchedWordRuns : Obligations.FetchedWordRuns := by
  intro s n i hd
  refine ⟨decodeTableWord_32 hd, ?_⟩
  rw [State.withFetchWord, tableWord_32]
  exact stepRunsCommand (s.withCommand (BitVec.ofNat 32 n)) _ _ i s.events rfl hd (.inl rfl)

end Sys2Proof.Machine
end

section
/-! The session commands (R112-R118): the whole next state of each, and INIT's and START's failures in their order. -/

namespace Sys2Proof.Machine

/-- Settles O14: NOP is its outcome alone. -/
theorem nopResult : Obligations.NopResult := fun _ => rfl

/-! ### INIT (R113) -/

theorem execInit_running {s : State} (hr : s.status.running = true) : exec .init s = .next (s.finish .state) :=
  if_pos hr

theorem execInit_rejected {s : State} {e : ErrCode} (hr : s.status.running = false) (hc : initCheck s.cfg = some e) :
    exec .init s = .next (({ s with status := { s.status with inited := false } }).finish e) := by
  show execInit s = _
  simp [execInit, hr, hc, State.fail]

theorem execInit_legal {s : State} (hr : s.status.running = false) (hc : initCheck s.cfg = none) :
    exec .init s = .next (s.newSession.finish .ok) := by
  show execInit s = _
  simp [execInit, hr, hc, State.done]

/-- GUARD = 0 in its register is GUARD = 0 as a number (R42). -/
theorem guard_eq_zero_iff (a : Configuration) : a.guard = 0 ↔ a.guardSlots = 0 :=
  BitVec.toNat_inj.symm

/-- INIT's validation as the checks that must pass, in R113's order, each with the code of its failure (R111). -/
theorem initCheck_eq (a : Configuration) :
    initCheck a =
      if a.channels = 1 ∨ a.channels = 2 ∨ a.channels = 4 then
        if a.spm ≠ 0 then
          if a.samples ≠ 0 ∧ a.samples % a.spm = 0 then
            if a.samples ≤ 2048 then
              if 2 ≤ a.slots then
                if a.slots * a.slotSize ≤ 524288 then
                  if a.guard = 0 ∨ a.guardSlots < (Machine.norm a.slots a.offsetSlots).natAbs then none
                  else some .config
                else some .resource
              else some .config
            else some .resource
          else some .config
        else some .config
      else some .config := by
  have hsamples : (a.samples = 0 ∨ a.samples % a.spm ≠ 0) ↔ ¬(a.samples ≠ 0 ∧ a.samples % a.spm = 0) := by tauto
  have hguard : (a.guardSlots > 0 ∧ a.guardSlots ≥ (Machine.norm a.slots a.offsetSlots).natAbs) ↔
      ¬(a.guard = 0 ∨ a.guardSlots < (Machine.norm a.slots a.offsetSlots).natAbs) := by
    rw [guard_eq_zero_iff]
    omega
  unfold initCheck Config.sbsMax Config.ringBytesMax
  simp only [hsamples, hguard, ite_not]
  simp only [gt_iff_lt, ← not_le, ite_not, ne_eq]

/-- Settles O16: each check's failure is the first one of `initCheck_eq` that fails. -/
theorem initRejects : Obligations.InitRejects := by
  intro s
  refine ⟨execInit_running, fun hr => ?_⟩
  have reject {e : ErrCode} (he : initCheck s.cfg = some e) := execInit_rejected hr he
  have hchecks := initCheck_eq s.cfg
  refine ⟨fun h1 => reject ?_, fun h1 h2 => reject ?_, fun h1 h2 h3 => reject ?_, fun h1 h2 h3 h4 => reject ?_,
    fun h1 h2 h3 h4 h5 => reject ?_, fun h1 h2 h3 h4 h5 h6 => reject ?_, fun h1 h2 h3 h4 h5 h6 h7 => reject ?_⟩
  · exact hchecks.trans (if_neg h1)
  · exact hchecks.trans ((if_pos h1).trans (if_neg h2))
  · exact hchecks.trans ((if_pos h1).trans ((if_pos h2).trans (if_neg h3)))
  · exact hchecks.trans ((if_pos h1).trans ((if_pos h2).trans ((if_pos h3).trans (if_neg h4))))
  · exact hchecks.trans ((if_pos h1).trans ((if_pos h2).trans ((if_pos h3).trans ((if_pos h4).trans (if_neg h5)))))
  · exact hchecks.trans ((if_pos h1).trans ((if_pos h2).trans ((if_pos h3).trans ((if_pos h4).trans
      ((if_pos h5).trans (if_neg h6))))))
  · exact hchecks.trans ((if_pos h1).trans ((if_pos h2).trans ((if_pos h3).trans ((if_pos h4).trans
      ((if_pos h5).trans ((if_pos h6).trans (if_neg h7)))))))

/-- DIV_CONST of the default MAXVOL and GAIN is not below its clamp for either decimation factor (R78, R113). -/
theorem divConstOf_default {D : Nat} (h : D = 64 ∨ D = 128) :
    divConstOf (D ^ 3 / 2) 64 16 = D ^ 3 / 2 * 64 / 32768 / 16 := by
  rcases h with rfl | rfl <;> decide

/-- The constants INIT sets, with SUB_CONST as half of D^3 (R76-R78, R113). -/
theorem initConsts_eq (a : Configuration) :
    initConsts a =
      { volume := 64, gain := 16, maxvol := 64
        lpHz := BitVec.ofNat 16 (a.rateHz / 2), hpHz := 10
        lpAlfa := BitVec.ofNat 9 (lpAlfaOf (a.rateHz / 2) a.rateHz)
        hpAlfa := BitVec.ofNat 9 (hpAlfaOf 10 a.rateHz)
        subConst := BitVec.ofNat 32 (a.decim ^ 3 / 2)
        divConst := BitVec.ofNat 32 (a.decim ^ 3 / 2 * 64 / 32768 / 16) } := by
  have hD : a.decim = 64 ∨ a.decim = 128 := (decim_cases a).imp And.left And.left
  have hsub : subConstOf a.decim = a.decim ^ 3 / 2 := by rw [subConstOf, coefSum_eq_cube hD]
  rw [initConsts, hsub, ← divConstOf_default hD]
  rfl

/-- Settles O15: the premises are INIT's checks, and the new session's constants are those of `initConsts_eq`. -/
theorem initCreatesSession : Obligations.InitCreatesSession := by
  intro s a fs sbs n d slot hr hn hfs hsbs hblocks hmax hB hring hguard
  have hlegal : initCheck s.cfg = none := by
    refine (initCheck_eq_none s.cfg).mpr ⟨hn, Nat.div_pos hfs (by decide), hsbs, hblocks, hmax, hB, hring, ?_⟩
    rwa [← guard_eq_zero_iff]
  rw [execInit_legal hr hlegal, State.newSession, initConsts_eq]
  rfl

/-! ### START (R114) -/

theorem State.xportsAvailable_iff (s : State) :
    s.xportsAvailable = true ↔
      s.work.pins.xportAvail0 = true ∧ (s.active.nprod = true → s.work.pins.xportAvail1 = true) := by
  unfold State.xportsAvailable
  cases s.active.nprod <;> simp

theorem execStart_ok {s : State} (h : s.startOk = true) : exec .start s = .next (s.started.finish .ok) := by
  rcases execStart_cases s with ⟨h', -⟩ | ⟨-, -, -, e⟩
  · cases h.symm.trans h'
  · exact e

theorem State.startOk_iff (s : State) :
    s.startOk = true ↔ s.status.inited = true ∧ s.status.running = false ∧ s.xportsAvailable = true ∧
      s.work.pins.notifyOk = true := by
  simp [State.startOk, and_assoc]

/-- Both entries of a pair of transports' registers written. -/
theorem set_both {α : Type} (v : Vector α 2) (x y : α) : (v.set 0 x).set 1 y = #v[x, y] := by
  ext i hi
  match i, hi with
  | 0, _ => simp
  | 1, _ => simp

/-- One transport: armed on slot 0, at base 0 (R98, R99). -/
theorem State.started_one {s : State} (h : s.active.nprod = false) :
    s.started = { s with
      w := 0, r := 0, wc := #v[0, 0], armed := s.armed.set 0 true
      outputs := .arm 0 0 0 s.active.slotSize :: s.outputs
      status := { s.status with running := true } } := by
  simp only [State.started, State.armFirst, h, State.arm, State.drive, Nat.zero_mul]
  rfl

/-- Two transports: armed on slot 0 and on slot 1, one slot's size further (R98, R99). -/
theorem State.started_two {s : State} (h : s.active.nprod = true) :
    s.started = { s with
      w := 0, r := 0, wc := #v[0, 1], armed := #v[true, true]
      outputs := .arm 1 1 s.active.slotSize s.active.slotSize :: .arm 0 0 0 s.active.slotSize :: s.outputs
      status := { s.status with running := true } } := by
  simp only [State.started, State.armFirst, h, State.arm, State.drive, Nat.zero_mul, Nat.one_mul]
  have hwc : ((Vector.replicate 2 (0 : BitVec 8)).set 0 0).set 1 1 = #v[0, 1] := set_both _ _ _
  have harmed : (s.armed.set 0 true).set 1 true = #v[true, true] := set_both _ _ _
  rw [← hwc, ← harmed]
  rfl

/-- Settles O17: every check passes, so the outcome is the armed session. -/
theorem startArms : Obligations.StartArms := by
  intro s hi hr hnotify hx0 slot
  refine ⟨fun hone => ?_, fun htwo hx1 => ?_⟩
  · have hx : s.xportsAvailable = true := s.xportsAvailable_iff.mpr ⟨hx0, fun h => absurd (hone.symm.trans h) nofun⟩
    rw [execStart_ok (s.startOk_iff.mpr ⟨hi, hr, hx, hnotify⟩), State.started_one hone]
    rfl
  · have hx : s.xportsAvailable = true := s.xportsAvailable_iff.mpr ⟨hx0, fun _ => hx1⟩
    rw [execStart_ok (s.startOk_iff.mpr ⟨hi, hr, hx, hnotify⟩), State.started_two htwo]
    rfl

/-- Settles O18: the failures in the order of START's checks, each on the inputs the command holds. -/
theorem startRejects : Obligations.StartRejects := by
  intro s failed inputs available
  have hheld (ps : Pins) (cmd : Word) (wk : Work) (hb : s.sequencer = .busy cmd wk) :
      ({ s with pins := ps }).work.pins = inputs := by
    rw [State.work_of_busy (s := { s with pins := ps }) hb]
    exact congrArg Work.pins (State.work_of_busy hb).symm
  refine ⟨fun hi => if_pos hi, fun hi hr => ?_, fun hi hr hx => ?_, fun hi hr hx hnotify => ?_, fun ps => rfl, hheld⟩
  · exact (if_neg (ne_false_of_eq_true hi)).trans (if_pos hr)
  · have hunavailable : s.xportsAvailable = false := Bool.eq_false_iff.mpr (mt s.xportsAvailable_iff.mp hx)
    exact (if_neg (ne_false_of_eq_true hi)).trans ((if_neg (ne_true_of_eq_false hr)).trans (if_pos hunavailable))
  · have havailable : s.xportsAvailable = true := s.xportsAvailable_iff.mpr hx
    exact (if_neg (ne_false_of_eq_true hi)).trans ((if_neg (ne_true_of_eq_false hr)).trans
      ((if_neg (ne_false_of_eq_true havailable)).trans (if_pos hnotify)))

/-! ### STOP (R115) -/

theorem State.stopped_outputs (s : State) :
    s.stopped.outputs =
      if s.active.nprod then .disarm 1 :: .disarm 0 :: s.outputs else .disarm 0 :: s.outputs := by
  unfold State.stopped State.disarmAll
  cases s.active.nprod <;> rfl

/-- Settles O19: the session disarmed while RUNNING, and the outcome alone otherwise. -/
theorem stopDisarms : Obligations.StopDisarms := by
  intro s
  refine ⟨fun hr => ?_, fun hr => ?_⟩
  · rcases execStop_cases s with ⟨-, e⟩ | ⟨hr', -⟩
    · exact e
    · cases hr.symm.trans hr'
  · rcases execStop_cases s with ⟨hr', -⟩ | ⟨-, e⟩
    · cases hr.symm.trans hr'
    · rw [e, State.stopped_eq, State.stopped_outputs]
      rfl

/-! ### SET_VOLUME, SET_GAIN, SET_MAXVOL (R116-R118) -/

/-- Settles O20: past NOT_INIT there is no check, and VOLUME belongs to no other constant. -/
theorem setVolumeResult : Obligations.SetVolumeResult := by
  intro s v hi _
  rcases execSetVolume_cases s v with ⟨hi', -⟩ | ⟨-, e⟩
  · cases hi.symm.trans hi'
  · exact e

/-- Settles O21: past NOT_INIT the one check is gain 0, and DIV_CONST's clamp is that of `divConstOf`. -/
theorem setGainResult : Obligations.SetGainResult := by
  intro s g hi _
  have hinited : ¬s.status.inited = false := ne_false_of_eq_true hi
  exact ⟨fun hg => (if_neg hinited).trans (if_neg hg), fun hg => (if_neg hinited).trans (if_pos hg)⟩

/-- Settles O22: past NOT_INIT there is no check, and DIV_CONST's clamp is that of `divConstOf`. -/
theorem setMaxvolResult : Obligations.SetMaxvolResult := by
  intro s m hi _
  rcases execSetMaxvol_cases s m with ⟨hi', -⟩ | ⟨-, e⟩
  · cases hi.symm.trans hi'
  · exact e

end Sys2Proof.Machine
end

section
/-! The life cycle of the session (43_session.md R119): the commands that change it, and that nothing else but reset
does. -/

namespace Sys2Proof.Machine

/-! ### The session state (R119) -/

theorem State.session_uninit {s : State} (hi : s.status.inited = false) (hr : s.status.running = false) :
    s.session = .uninit := by simp [State.session, hi, hr]

theorem State.session_ready {s : State} (hi : s.status.inited = true) (hr : s.status.running = false) :
    s.session = .ready := by simp [State.session, hi, hr]

theorem State.session_running {s : State} (hi : s.status.inited = true) (hr : s.status.running = true) :
    s.session = .running := by simp [State.session, hi, hr]

theorem State.session_congr {s t : State} (hi : t.status.inited = s.status.inited)
    (hr : t.status.running = s.status.running) : t.session = s.session := by rw [State.session, hi, hr, State.session]

/-- RUNNING only with INITED is the fourth combination out of reach. -/
theorem State.Inv.session_ne_broken {s : State} (h : s.Inv) : s.session ≠ .broken := by
  cases hr : s.status.running with
  | true => rw [State.session_running (h.running_inited hr) hr]; decide
  | false =>
    cases hi : s.status.inited with
    | true => rw [State.session_ready hi hr]; decide
    | false => rw [State.session_uninit hi hr]; decide

/-- The rows of R119's table that change the session: the command that completes, from session `a` in state `t`. -/
inductive SessionRow (a : Session) (t : State) : Instr → Prop
  | create (before : a = .uninit) (after : t.session = .ready) (code : t.status.err = .ok) : SessionRow a t .init
  | lose (before : a = .ready) (after : t.session = .uninit)
      (code : t.status.err = .config ∨ t.status.err = .resource) : SessionRow a t .init
  | start (before : a = .ready) (after : t.session = .running) (code : t.status.err = .ok) : SessionRow a t .start
  | stop (before : a = .running) (after : t.session = .ready) (code : t.status.err = .ok) : SessionRow a t .stop

/-! ### The completion of a command (R113-R115) -/

/-- INIT creates a session, or loses the stopped one it finds (R113). -/
theorem execInit_session {s t : State} (h : exec .init s = .next t) :
    t.session = s.session ∨ SessionRow s.session t .init := by
  rcases execInit_cases s with ⟨_, e⟩ | ⟨hr, c, hc, e⟩ | ⟨hr, _, e⟩ <;> cases e.symm.trans h
  · exact .inl rfl
  · cases hi : s.status.inited with
    | true => exact .inr (.lose (State.session_ready hi hr) (State.session_uninit rfl hr) (initCheck_code hc))
    | false => exact .inl (State.session_congr hi.symm rfl)
  · cases hi : s.status.inited with
    | true => exact .inl (State.session_congr hi.symm rfl)
    | false => exact .inr (.create (State.session_uninit hi hr) (State.session_ready rfl hr) rfl)

/-- START runs the session it finds stopped (R114). -/
theorem execStart_session {s t : State} (h : exec .start s = .next t) :
    t.session = s.session ∨ SessionRow s.session t .start := by
  rcases execStart_cases s with ⟨_, c, _, e⟩ | ⟨_, hi, hr, e⟩ <;> cases e.symm.trans h
  · exact .inl rfl
  · rw [State.started_eq]
    exact .inr (.start (State.session_ready hi hr) (State.session_running hi rfl) rfl)

/-- STOP stops a running session (R115). -/
theorem execStop_session {s t : State} (hs : s.status.running = true → s.status.inited = true)
    (h : exec .stop s = .next t) : t.session = s.session ∨ SessionRow s.session t .stop := by
  rcases execStop_cases s with ⟨_, e⟩ | ⟨hr, e⟩ <;> cases e.symm.trans h
  · exact .inl rfl
  · rw [State.stopped_eq]
    exact .inr (.stop (State.session_running (hs hr) hr) (State.session_ready (hs hr) rfl) rfl)

/-- Every other command leaves the session as it is (R119). -/
theorem exec_keeps_session {i : Instr} {s t : State} (hinit : i ≠ .init) (hstart : i ≠ .start) (hstop : i ≠ .stop)
    (h : exec i s = .next t) : t.session = s.session := by
  cases i with
  | init => exact absurd rfl hinit
  | start => exact absurd rfl hstart
  | stop => exact absurd rfl hstop
  | nop => cases h; rfl
  | read n =>
    rcases execRead_cases s n with ⟨_, e⟩ | ⟨_, _, e⟩ | ⟨_, _, _, e⟩ <;> cases e.symm.trans h
    · rfl
    · rfl
    · exact State.session_congr (by simp) (by simp)
  | setVolume v => rcases execSetVolume_cases s v with ⟨_, e⟩ | ⟨_, e⟩ <;> cases e.symm.trans h <;> rfl
  | setGain g => rcases execSetGain_cases s g with ⟨_, _, e⟩ | ⟨_, _, e⟩ <;> cases e.symm.trans h <;> rfl
  | setMaxvol m => rcases execSetMaxvol_cases s m with ⟨_, e⟩ | ⟨_, e⟩ <;> cases e.symm.trans h <;> rfl
  | freset c => rcases execFreset_cases s c with ⟨_, e⟩ | ⟨_, e⟩ <;> cases e.symm.trans h <;> rfl
  | demux n =>
    rcases execDemux_cases s n with ⟨_, _, e⟩ | ⟨_, _, e⟩ <;> cases e.symm.trans h
    · rfl
    · exact State.session_congr (by simp) (by simp)
  | decode c k =>
    rcases execDecode_cases s c k with ⟨_, _, e⟩ | ⟨_, _, _, e⟩ <;> cases e.symm.trans h
    · rfl
    · exact State.session_congr (by simp) (by simp)

/-- A command leaves the session as it is, or takes it along its row (R119). -/
theorem exec_session {i : Instr} {s t : State} (hs : s.status.running = true → s.status.inited = true)
    (h : exec i s = .next t) : t.session = s.session ∨ SessionRow s.session t i := by
  cases i with
  | init => exact execInit_session h
  | start => exact execStart_session h
  | stop => exact execStop_session hs h
  | _ => exact .inl (exec_keeps_session (by simp) (by simp) (by simp) h)

/-! ### Steps -/

/-- A running command's completion changes the session along a row of its command, and an illegal word's not at all. -/
theorem State.Inv.completeCommand_session {s t : State} (h : s.Inv) (ht : s.completeCommand = .next t) :
    t.session = s.session ∨ ∃ i, s.running? = some i ∧ SessionRow s.session t i := by
  rcases s.completeCommand_cases with ⟨_, e⟩ | ⟨_, _, i, hb, hd, e⟩ | ⟨_, _, _, _, _, e⟩
  · cases e.symm.trans ht; exact .inl rfl
  · have hrun : s.running? = some i := State.running?_of_busy hb hd
    exact (exec_session h.running_inited (e.symm.trans ht)).imp_right fun hrow => ⟨i, hrun, hrow⟩
  · cases e.symm.trans ht; exact .inl rfl

/-- The session state is that before the step, or reset's, or the one a row of the table gives (R119). -/
theorem State.Inv.step_session {s t : State} (h : s.Inv) (ht : step s = .next t) :
    t.session = s.session ∨ (s.nextEvent.map (·.1) = some .reset ∧ t.session = .uninit) ∨
    (s.nextEvent.map (·.1) = some .complete ∧ ∃ i, s.running? = some i ∧ SessionRow s.session t i) := by
  rcases step_cases s with ⟨_, e⟩ | ⟨ev, es, hn, e⟩
  · cases e.symm.trans ht; exact .inl rfl
  have htake := e.symm.trans ht
  rw [hn, Option.map_some]
  by_cases hreset : ev = .reset
  · subst hreset
    cases htake
    exact .inr (.inl ⟨rfl, rfl⟩)
  by_cases hcomplete : ev = .complete
  · subst hcomplete
    have hk : ({ s with events := es } : State).tick.Inv := h.of_environment rfl
    exact (hk.completeCommand_session htake).imp_right fun hrow => .inr ⟨rfl, hrow⟩
  · obtain ⟨u, hu, hut⟩ := OrdinaryEffect.of_takeEvent (fun hc => absurd hc hcomplete) hreset htake
    obtain ⟨-, -, -, -, -, -, -, -, -, hi, hr, -⟩ := hu.commandParts
    rw [show t = _ from hut]
    exact .inl (State.session_congr hi hr)

/-- Settles O24: a step changes the session by reset or along a row, and each row is a clause of the statement. -/
theorem sessionLifeCycle : Obligations.SessionLifeCycle := by
  intro s t h ht
  refine ⟨(stepKeepsInvariant s t h ht).session_ne_broken, fun hne => ?_⟩
  rcases h.step_session ht with heq | hreset | ⟨hev, i, hrun, hrow⟩
  · exact absurd heq hne
  · exact .inl hreset
  · refine .inr ⟨hev, ?_⟩
    rw [hrun]
    cases hrow with
    | create before after code => exact .inl ⟨rfl, .inl ⟨before, after, code⟩⟩
    | lose before after code => exact .inl ⟨rfl, .inr ⟨before, after, code⟩⟩
    | start before after code => exact .inr (.inl ⟨rfl, before, after, code⟩)
    | stop before after code => exact .inr (.inr ⟨rfl, before, after, code⟩)

end Sys2Proof.Machine
end

section
/-! The codes and the failures of the commands, that no step stops, and the interrupt (60_exceptions.md R120-R127). -/

namespace Sys2Proof.Machine

/-! ### How a command ends (R120-R122) -/

/-- The codes other than OK that a command can end with (R121). -/
def failureCodes : Instr → List ErrCode
  | .nop => []
  | .init => [.state, .config, .resource]
  | .start => [.notInit, .state, .resource, .hardware]
  | .stop => []
  | .read _ => [.notInit]
  | .setVolume _ => [.notInit]
  | .setGain _ => [.notInit, .config]
  | .setMaxvol _ => [.notInit]
  | .freset _ => [.notInit]
  | .demux _ => [.notInit, .arg]
  | .decode _ _ => [.notInit, .arg]

/-- The states a command can end in: of a failure the whole state, of a success that its code is OK. -/
inductive CommandEnd (i : Instr) (s : State) : State → Prop
  /-- A check fails that comes before the command's effect: the code alone is written (R122). -/
  | failed (e : ErrCode) (code : e ∈ failureCodes i) (keeps : i ≠ .init ∨ e = .state) : CommandEnd i s (s.finish e)
  /-- INIT's validation fails: INITED is cleared as well (R113, R122). -/
  | invalid (e : ErrCode) (hinit : i = .init) (code : e = .config ∨ e = .resource) :
      CommandEnd i s (({ s with status := { s.status with inited := false } }).finish e)
  | succeeded (u : State) : CommandEnd i s (u.finish .ok)

/-- NOT_INIT is the first check of every command but NOP, INIT and STOP (R121). -/
theorem exec_notInit {s : State} {i : Instr} (hi : s.status.inited = false) (hnop : i ≠ .nop) (hinit : i ≠ .init)
    (hstop : i ≠ .stop) : exec i s = .next (s.finish .notInit) := by
  cases i with
  | nop => exact absurd rfl hnop
  | init => exact absurd rfl hinit
  | stop => exact absurd rfl hstop
  | _ => exact if_pos hi

/-- INIT fails with STATE, fails in its validation, or creates a session (R113, R121). -/
theorem execInit_ends (s : State) : ∃ t, exec .init s = .next t ∧ CommandEnd .init s t := by
  rcases execInit_cases s with ⟨-, h⟩ | ⟨-, e, hc, h⟩ | ⟨-, -, h⟩
  · exact ⟨_, h, .failed .state (by simp [failureCodes]) (.inr rfl)⟩
  · exact ⟨_, h, .invalid e rfl (initCheck_code hc)⟩
  · exact ⟨_, h, .succeeded _⟩

/-- START's four checks in their order, each with its code (R114, R121). -/
theorem execStart_ends (s : State) : ∃ t, exec .start s = .next t ∧ CommandEnd .start s t := by
  show ∃ t, execStart s = _ ∧ _
  unfold execStart
  split
  · exact ⟨_, rfl, .failed .notInit (by simp [failureCodes]) (.inl nofun)⟩
  split
  · exact ⟨_, rfl, .failed .state (by simp [failureCodes]) (.inl nofun)⟩
  split
  · exact ⟨_, rfl, .failed .resource (by simp [failureCodes]) (.inl nofun)⟩
  split
  · exact ⟨_, rfl, .failed .hardware (by simp [failureCodes]) (.inl nofun)⟩
  · exact ⟨_, rfl, .succeeded _⟩

/-- The end in NOT_INIT of a command that has that code. -/
theorem exec_ends_of_notInit {i : Instr} {s : State} (hinit : i ≠ .init) (hcode : .notInit ∈ failureCodes i)
    (h : exec i s = .next (s.finish .notInit)) : ∃ t, exec i s = .next t ∧ CommandEnd i s t :=
  ⟨_, h, .failed .notInit hcode (.inl hinit)⟩

/-- A command of a session with one check of its operands: NOT_INIT, that check's code, or success (R88, R97, R117). -/
theorem exec_ends_of_operandCheck {i : Instr} {s u : State} {bad : Prop} [Decidable bad] {e : ErrCode}
    (hinit : i ≠ .init) (hcodes : failureCodes i = [.notInit, e])
    (h : exec i s = if s.status.inited = false then s.fail .notInit else if bad then s.fail e else u.done) :
    ∃ t, exec i s = .next t ∧ CommandEnd i s t := by
  rw [h]
  split
  · exact ⟨_, rfl, .failed .notInit (by simp [hcodes]) (.inl hinit)⟩
  split
  · exact ⟨_, rfl, .failed e (by simp [hcodes]) (.inl hinit)⟩
  · exact ⟨_, rfl, .succeeded u⟩

/-- Every command ends in one of its outcomes (R120, R121). -/
theorem exec_ends (i : Instr) (s : State) : ∃ t, exec i s = .next t ∧ CommandEnd i s t := by
  cases i with
  | nop => exact ⟨_, rfl, .succeeded s⟩
  | init => exact execInit_ends s
  | start => exact execStart_ends s
  | stop => rcases execStop_cases s with ⟨-, h⟩ | ⟨-, h⟩ <;> exact ⟨_, h, .succeeded _⟩
  | read n =>
    rcases execRead_cases s n with ⟨-, h⟩ | ⟨-, -, h⟩ | ⟨-, _, -, h⟩
    · exact exec_ends_of_notInit nofun (by simp [failureCodes]) h
    · exact ⟨_, h, .succeeded _⟩
    · exact ⟨_, h, .succeeded _⟩
  | setVolume v =>
    rcases execSetVolume_cases s v with ⟨-, h⟩ | ⟨-, h⟩
    · exact exec_ends_of_notInit nofun (by simp [failureCodes]) h
    · exact ⟨_, h, .succeeded _⟩
  | setMaxvol m =>
    rcases execSetMaxvol_cases s m with ⟨-, h⟩ | ⟨-, h⟩
    · exact exec_ends_of_notInit nofun (by simp [failureCodes]) h
    · exact ⟨_, h, .succeeded _⟩
  | freset c =>
    rcases execFreset_cases s c with ⟨-, h⟩ | ⟨-, h⟩
    · exact exec_ends_of_notInit nofun (by simp [failureCodes]) h
    · exact ⟨_, h, .succeeded _⟩
  | setGain g => exact exec_ends_of_operandCheck nofun rfl rfl
  | demux n => exact exec_ends_of_operandCheck nofun rfl rfl
  | decode c k => exact exec_ends_of_operandCheck nofun rfl rfl

theorem CommandEnd.sequencer {i : Instr} {s t : State} (h : CommandEnd i s t) : t.sequencer = .idle := by
  cases h <;> rfl

/-- ERR holds OK or one of the command's other codes (R121). -/
theorem CommandEnd.code {i : Instr} {s t : State} (h : CommandEnd i s t) : t.status.err ∈ failureCodes i ++ [.ok] := by
  cases h with
  | failed e code _ => exact List.mem_append_left _ code
  | invalid e hinit code =>
    subst hinit
    rcases code with rfl | rfl <;> simp [failureCodes]
  | succeeded u => exact List.mem_append_right _ (List.mem_singleton_self _)

/-- Settles O12: the command ends, and its codes are the statement's row of R121's table. -/
theorem everyCommandCompletes : Obligations.EveryCommandCompletes := by
  intro i s
  obtain ⟨t, ht, hend⟩ := exec_ends i s
  refine ⟨t, ht, hend.sequencer, ?_⟩
  have hcode := hend.code
  cases i <;> exact hcode

/-- Settles O23: the eight commands are those whose first check is NOT_INIT. -/
theorem notInitialised : Obligations.NotInitialised := fun _ _ => exec_notInit

/-- Settles O13: of the ends of a command with a code other than OK, only INIT's failed validation writes more. -/
theorem failureChangesOnlyItsCode : Obligations.FailureChangesOnlyItsCode := by
  intro i s t ht herr
  obtain ⟨t', ht', hend⟩ := exec_ends i s
  cases ht'.symm.trans ht
  cases hend with
  | failed e _ keeps =>
    have hkeeps : (i == .init && e != .state) = false := by rcases keeps with h | h <;> simp [h]
    simp [State.finish, hkeeps]
  | invalid e hinit code =>
    have hclears : (i == .init && e != .state) = true := by rcases code with rfl | rfl <;> simp [hinit]
    simp [State.finish, hclears]
  | succeeded u => exact absurd rfl herr

/-! ### No step stops (R127, R149) -/

theorem State.completeCommand_next (s : State) : ∃ t, s.completeCommand = .next t := by
  rcases s.completeCommand_cases with ⟨-, h⟩ | ⟨_, _, i, -, -, h⟩ | ⟨_, _, _, -, -, h⟩
  · exact ⟨_, h⟩
  · obtain ⟨t, ht, -⟩ := exec_ends i s
    exact ⟨t, h.trans ht⟩
  · exact ⟨_, h⟩

/-- Every agent's event answers a next state; only the sequencer's turn is not one by its definition. -/
theorem takeEvent_next (e : Event) (s : State) : ∃ t, takeEvent e s = .next t := by
  cases e with
  | complete => exact s.tick.completeCommand_next
  | _ => exact ⟨_, rfl⟩

/-- Settles O10: a step rests or takes one event, which answers. -/
theorem noStepStops : Obligations.NoStepStops := by
  intro s
  refine ⟨?_, fun e es he => ?_, fun hidle he => ?_⟩
  · rcases step_cases s with ⟨-, h⟩ | ⟨e, es, -, h⟩
    · exact ⟨s, h⟩
    · obtain ⟨t, ht⟩ := takeEvent_next e { s with events := es }
      exact ⟨t, h.trans ht⟩
  · have hnext : s.nextEvent = some (e, es) := by rw [State.nextEvent, he]
    rw [step, State.advance, hnext]
  · have hnext : s.nextEvent = none := by simp [State.nextEvent, he, s.busy_false_iff.mpr hidle]
    rw [step, State.advance, hnext]

/-! ### The interrupt (R24, R125) -/

/-- An accepted completion sets READY_PEND (R100). -/
theorem State.onDone_readyPend {s : State} {p : Transport} (hr : s.status.running = true)
    (hp : p.val < s.active.producers) : (s.onDone p).status.readyPend = true := by
  rw [State.onDone_taken hr hp, State.collideCheck_readyPend, State.notify_status]

/-- A STATUS write and a completion in one step: the write, then the completion (R126; log 17). -/
theorem takeEvent_statusWriteWithDone (s : State) (v : Word) (p : Transport) :
    takeEvent (.statusWriteWithDone v p) s = .next ((s.hostWrite .word statusAddr v).onDone p).tick := by
  show Host.Outcome.next ((s.tick.hostWrite .word statusAddr v).onDone p) = _
  rw [State.hostWrite_tick, State.onDone_tick]

/-- irq after a write of STATUS: bit 3 of the word clears it (R24, R125). -/
theorem State.hostWrite_status_irq (s : State) (v : Word) :
    (s.hostWrite .word statusAddr v).irq = (s.irq && !v.getLsbD 3) := by
  rw [State.hostWrite_status]
  simp [State.irq, Bool.and_assoc]

/-- Settles O53: the completion comes after the write in their common step, so its set wins. -/
theorem interrupt : Obligations.Interrupt := by
  intro s p v
  refine ⟨rfl, ?_, fun hr hp => ⟨State.onDone_readyPend hr hp, ?_, _, takeEvent_statusWriteWithDone s v p, ?_⟩,
    fun hv => ?_, fun hv => ?_⟩
  · rw [takeEvent_statusWriteWithDone, State.tick, State.onDone_draws, State.hostWrite_status]
    rfl
  · rw [State.irq, State.onDone_ctrl, State.onDone_readyPend hr hp, Bool.and_true]
  · rw [State.tick_status, State.hostWrite_status]
    exact State.onDone_readyPend (s := (s.clearFlags v).respond 0) hr hp
  · rw [State.hostWrite_status_irq, hv, Bool.not_true, Bool.and_false]
  · rw [State.hostWrite_status_irq, hv, Bool.not_false, Bool.and_true]

end Sys2Proof.Machine
end

section
/-! The reset event (R135): the full next state, from any state. -/

namespace Sys2Proof.Machine

/-- The reset event counts as a step, and then resets the core. -/
theorem takeEvent_reset (s : State) : takeEvent .reset s = .next s.tick.resetNow := rfl

/-- The environment's fields stay, disarm(0) and then disarm(1) are driven, and storage is read at the current draw. -/
theorem State.resetNow_eq (s : State) :
    s.resetNow = { State.reset with
      pins := s.pins
      events := s.events
      outputs := .disarm 1 :: .disarm 0 :: s.outputs
      draws := s.draws
      powerOn := s.draws } := rfl

/-- Settles O56: nothing of the core's old state enters what reset leaves, so the sequencer's state does not matter, and
the draw behind storage is the step's own. -/
theorem resetEvent : Obligations.ResetEvent := by
  intro s
  rw [takeEvent_reset, State.resetNow_eq, State.tick_pins, State.tick_events, State.tick_outputs, State.tick_draws]

end Sys2Proof.Machine
end
